-- ==== Sys2Proof/Word.lean ====
section
/-! DEFINITION. The word types of the CXU (00_scope.md R8 and R12). -/

namespace Sys2Proof

/-- One byte of host memory or of a text (00_scope.md R14). -/
abbrev Byte := BitVec 8

/-- A command word, and the width of EXP and PREC (10_state.md R22). -/
abbrev Word := BitVec 32

/-- A host address of AW bits. AW is a parameter of the model; this hardware takes AW = 64 (00_scope.md R8). -/
abbrev Addr (aw : Nat := 64) := BitVec aw

/-- The width of A, RESULT and RESULT2 (10_state.md R22). -/
abbrev Quad := BitVec 128

end Sys2Proof
end

