-- ==== Sys2Proof/Syntax.lean ====
section
/-! DEFINITION. The commands of the CXU: one constructor of `Instr` per row of spec/opcode_table.json
(30_encoding.md R82), with the operand fields of R83 to R87. -/

namespace Sys2Proof

/-- A floating layout, the LAYOUT field (30_encoding.md R88). -/
inductive Layout where
  | b32 | b64 | b80 | b128
deriving DecidableEq, Repr

/-- A representation, the FMT field (30_encoding.md R89). -/
inductive Fmt where
  | fixed | scientific | general | hex
deriving DecidableEq, Repr

/-- A representation the oracle port may be asked for (46_dispatcher.md R240): every one but Hex. -/
inductive DecFmt where
  | fixed | scientific | general
deriving DecidableEq, Repr

/-- A command of the CXU. `wid` and `base` of PARSE_INT are the raw fields: their reserved and illegal
values are encodings of PARSE_INT that raise a fault when issued (30_encoding.md R90, R91, R96). -/
inductive Instr where
  /-- FMT_FLOAT, OP 0x1 (30_encoding.md R83). -/
  | fmtFloat (layout : Layout) (fmt : Fmt) (pv : Bool)
  /-- PARSE_INT, OP 0x2 (30_encoding.md R84). -/
  | parseInt (wid : BitVec 3) (sgn : Bool) (base : BitVec 6)
  /-- CLASSIFY_FLOAT, OP 0x3 (30_encoding.md R85). -/
  | classifyFloat (layout : Layout)
  /-- CLASSIFY_DIGIT, OP 0x4 (30_encoding.md R86). -/
  | classifyDigit
  /-- WRITE_FIXED, OP 0x5 (30_encoding.md R87). -/
  | writeFixed (neg gen pv : Bool)
deriving DecidableEq, Repr

end Sys2Proof
end

