-- ==== Sys2Proof/Machine/Layouts.lean ====
section
/-! DEFINITION. LAYOUT_CONSTANTS (10_state.md R35, 42_float_layout.md R150) and WINDOW_CONFIG (10_state.md R36). -/

namespace Sys2Proof.Machine

/-- One row of LAYOUT_CONSTANTS (42_float_layout.md R150). Bit numbers count from 0, the least significant. -/
structure LayoutRow where
  /-- W(L), the operand width. -/
  width : Nat
  /-- The sign bit. -/
  signBit : Nat
  /-- The lowest bit of the exponent field. -/
  expLo : Nat
  /-- EW, the width of the exponent field. -/
  expWidth : Nat
  /-- The explicit integer bit, where the layout has one. -/
  intBit : Option Nat
  /-- FW, the width of the fraction field, whose lowest bit is bit 0. -/
  fracWidth : Nat
  /-- The exponent bias. -/
  bias : Nat
  /-- EMAX, the all-ones exponent. -/
  emax : Nat
  /-- P(L), the significand precision in bits, integer bit included. -/
  precision : Nat
  /-- The quiet bit of a NaN. -/
  quietBit : Nat
  /-- NHEX(L), the native count of fractional hex digits (00_scope.md R11). -/
  nhex : Nat
deriving DecidableEq, Repr

/-- LAYOUT_CONSTANTS (42_float_layout.md R150). -/
def layoutRow : Layout → LayoutRow
  | .b32 => { width := 32, signBit := 31, expLo := 23, expWidth := 8, intBit := none, fracWidth := 23,
              bias := 127, emax := 0xFF, precision := 24, quietBit := 22, nhex := 6 }
  | .b64 => { width := 64, signBit := 63, expLo := 52, expWidth := 11, intBit := none, fracWidth := 52,
              bias := 1023, emax := 0x7FF, precision := 53, quietBit := 51, nhex := 13 }
  | .b80 => { width := 80, signBit := 79, expLo := 64, expWidth := 15, intBit := some 63, fracWidth := 63,
              bias := 16383, emax := 0x7FFF, precision := 64, quietBit := 62, nhex := 16 }
  | .b128 => { width := 128, signBit := 127, expLo := 112, expWidth := 15, intBit := none, fracWidth := 112,
               bias := 16383, emax := 0x7FFF, precision := 113, quietBit := 111, nhex := 28 }

/-- The pair MAX_FRAC(L), MAX_INT(L) of one layout (10_state.md R36). -/
structure WindowPair where
  maxFrac : Nat
  maxInt : Nat
deriving DecidableEq, Repr

/-- WINDOW_CONFIG: one pair per layout (10_state.md R36). -/
structure WindowConfig where
  b32 : WindowPair
  b64 : WindowPair
  b80 : WindowPair
  b128 : WindowPair
deriving DecidableEq, Repr

/-- The pair of a layout. -/
def windowOf (c : WindowConfig) : Layout → WindowPair
  | .b32 => c.b32
  | .b64 => c.b64
  | .b80 => c.b80
  | .b128 => c.b128

/-- The default WINDOW_CONFIG of this hardware (10_state.md R36). -/
def defaultWindows : WindowConfig where
  b32 := { maxFrac := 10 ^ 7, maxInt := 2 ^ 32 }
  b64 := { maxFrac := 10 ^ 16, maxInt := 2 ^ 64 }
  b80 := { maxFrac := 10 ^ 19, maxInt := 2 ^ 64 }
  b128 := { maxFrac := 10 ^ 34, maxInt := 2 ^ 128 }

/-- The constraint 10_state.md R36 puts on the pair of one layout: 2^(P(L)-1) ≤ MAX_FRAC(L) ≤ MAX_INT(L). -/
def windowLegal (c : WindowConfig) (l : Layout) : Bool :=
  2 ^ ((layoutRow l).precision - 1) ≤ (windowOf c l).maxFrac && (windowOf c l).maxFrac ≤ (windowOf c l).maxInt

/-- The constraint of 10_state.md R36 on every layout. -/
def windowsLegal (c : WindowConfig) : Bool :=
  windowLegal c .b32 && windowLegal c .b64 && windowLegal c .b80 && windowLegal c .b128

end Sys2Proof.Machine
end

