-- ==== Sys2Proof/Machine/Memory.lean ====
section
/-! DEFINITION. Host memory (20_memory.md R60): a byte-addressed array of 2^AW bytes, held as the list of the bytes
that differ from what an unlisted address reads as, addresses strictly rising. -/

namespace Sys2Proof.Machine

/-- The number of bytes of host memory, 2^AW (20_memory.md R60, 00_scope.md R8). -/
def memorySize (aw : Nat) : Nat := 2 ^ aw

/-- Host memory (20_memory.md R60). -/
abbrev Memory := List Host.Cell

/-- What an unlisted address reads as: 0x00 (DESIGN CHOICE, unsafe, log 3: the spec gives no contents). -/
def unlistedByte : Byte := 0

/-- MemRead(addr, 1) (00_scope.md R13): the byte at an address. -/
def Memory.read : Memory → Nat → Byte
  | [], _ => unlistedByte
  | (k, v) :: rest, a => if k = a then v else Memory.read rest a

/-- The memory without the entries of one address. -/
def Memory.erase : Memory → Nat → Memory
  | [], _ => []
  | (k, v) :: rest, a => if k = a then Memory.erase rest a else (k, v) :: Memory.erase rest a

/-- The memory with one more entry, put before the first entry of a higher address. -/
def Memory.insert : Memory → Nat → Byte → Memory
  | [], a, b => [(a, b)]
  | (k, v) :: rest, a, b => if a < k then (a, b) :: (k, v) :: rest else (k, v) :: Memory.insert rest a b

/-- MemWrite(addr, 1, v) (00_scope.md R13), keeping the canonical form. -/
def Memory.write (m : Memory) (a : Nat) (b : Byte) : Memory :=
  if b = unlistedByte then Memory.erase m a else Memory.insert (Memory.erase m a) a b

/-- Bytes written at increasing addresses from `a` (20_memory.md R65). -/
def Memory.writeBytes : Memory → Nat → List Byte → Memory
  | m, _, [] => m
  | m, a, b :: bs => Memory.writeBytes (Memory.write m a b) (a + 1) bs

/-- The `n` bytes read at increasing addresses from `a` (20_memory.md R62). -/
def Memory.readBytes (m : Memory) : Nat → Nat → List Byte
  | _, 0 => []
  | a, n + 1 => Memory.read m a :: Memory.readBytes m (a + 1) n

/-- The canonical form from a lower bound on: addresses strictly rising, inside the address space of `aw` bits, and no
entry equal to what an unlisted address reads as. -/
def Memory.wfFrom (aw : Nat) : Nat → Memory → Bool
  | _, [] => true
  | lo, (k, v) :: rest => lo ≤ k && k < memorySize aw && v != unlistedByte && Memory.wfFrom aw (k + 1) rest

/-- The canonical form of a memory of 2^aw bytes holds. -/
def Memory.wf (aw : Nat) (m : Memory) : Bool := Memory.wfFrom aw 0 m

end Sys2Proof.Machine
end

