-- ==== Sys2Proof/Machine/State.lean ====
section
/-! DEFINITION. The state of one CXU instance (10_state.md R22, R36, R37), of the host memory it works on
(20_memory.md R60) and of what the host and the platform have in store for it; the state after reset (R40);
the model's faults and refusals. The address width AW is an argument of the state and of all that works on it, 64 where
none is given, as this hardware takes it (00_scope.md R8, 92_eei_decisions.md D4; log 4). -/

namespace Sys2Proof.Machine

/-- The name of an interface register (10_state.md R22). -/
inductive Reg where
  | cmd | first | last | a | exp | prec | status | cause | cursor | result | result2
deriving DecidableEq, Repr

/-- Why an address range is no place for a span. -/
inductive RegionKind where
  /-- Reads or writes have side effects (20_memory.md R68). -/
  | sideEffects
  /-- Another agent accesses the range while commands run on it (20_memory.md R72). -/
  | contended
deriving DecidableEq, Repr

/-- An address range that is no place for a span (20_memory.md R68, R72). -/
structure Region where
  base : Nat
  size : Nat
  kind : RegionKind
deriving DecidableEq, Repr

/-- What the host or the platform does to the CXU between commands (00_scope.md glossary "Host", 30_encoding.md
R98, 10_state.md R33, 70_reset_and_hazards.md R300). Host reads change nothing and are no action: `State.hostRead`
gives their value. -/
inductive HostAction (aw : Nat := 64) where
  /-- The host writes an interface register; a write of CMD issues the command (10_state.md R22, R23). -/
  | set (r : Reg) (v : BitVec 128)
  /-- The host stores bytes at increasing addresses (30_encoding.md R98, the action `mem`). -/
  | mem (addr : BitVec aw) (text : List (BitVec 8))
  /-- The platform resets the instance (70_reset_and_hazards.md R300). -/
  | reset
  /-- The platform says which ranges are no place for a span from now on (20_memory.md R68, R72; log 8). -/
  | regions (rs : List Region)
deriving DecidableEq, Repr

/-- Why the MODEL stops with a fault. A fault of the CXU itself (60_exceptions.md R273) is a next state. -/
inductive Fault where
  /-- Raised by the host action `mem` when it would store at an address past 2^AW - 1, which does not exist
  (20_memory.md R60). Safe: the model stops where the spec gives no meaning (log 9). -/
  | noSuchAddress (addr : Nat)
deriving DecidableEq, Repr

/-- Why the MODEL refuses to go on. -/
inductive Refusal where
  /-- Raised by `exec` for a command that has no meaning yet. Safe: nothing can be proved of it. -/
  | notModelled (mnemonic : String)
  /-- Raised by a command whose span covers memory with side effects: "a model refuses such a command"
  (20_memory.md R68). Safe. -/
  | spanSideEffects
  /-- Raised by a command on a span that another agent accesses meanwhile: "a model that cannot do so refuses the
  program" (20_memory.md R72). Safe. -/
  | spanContended
  /-- Raised by the host action `mem` on memory with side effects, to which the spec gives no meaning
  (20_memory.md R68; log 19). Safe. -/
  | storeSideEffects
deriving DecidableEq, Repr

/-- The whole state of an instance with `aw`-bit host addresses. Plain data. -/
structure State (aw : Nat := 64) where
  /-- CMD (10_state.md R23). -/
  cmd : BitVec 32
  /-- FIRST (10_state.md R24). -/
  first : BitVec aw
  /-- LAST (10_state.md R24). -/
  last : BitVec aw
  /-- A (10_state.md R25). -/
  a : BitVec 128
  /-- EXP (10_state.md R26). -/
  exp : BitVec 32
  /-- PREC (10_state.md R26). -/
  prec : BitVec 32
  /-- STATUS (10_state.md R27). -/
  status : BitVec 4
  /-- CAUSE (10_state.md R28). -/
  cause : BitVec 4
  /-- CURSOR (10_state.md R29). -/
  cursor : BitVec aw
  /-- RESULT (10_state.md R30). -/
  result : BitVec 128
  /-- RESULT2 (10_state.md R31). -/
  result2 : BitVec 128
  /-- The FAULTED latch (10_state.md R37). -/
  faulted : Bool
  /-- WINDOW_CONFIG (10_state.md R36; log 5). -/
  windows : WindowConfig
  /-- Host memory (20_memory.md R60). -/
  mem : Memory
  /-- The platform's map of ranges that are no place for a span (20_memory.md R68, R72; the model's own field, log 8). -/
  regions : List Region
  /-- The host and platform actions still to come, the next one first (the model's own field, log 1). -/
  pending : List (HostAction aw)
deriving DecidableEq, Repr

/-- An instance with `aw`-bit host addresses right after reset (10_state.md R40, 70_reset_and_hazards.md R300). The
registers R40 leaves UNSPECIFIED hold zero (DESIGN CHOICE, unsafe, log 2); memory has nothing listed (log 3);
WINDOW_CONFIG is the default of R36 (log 5). -/
def State.resetAt (aw : Nat) : State aw where
  cmd := 0
  first := 0
  last := 0
  a := 0
  exp := 0
  prec := 0
  status := 0
  cause := 0
  cursor := 0
  result := 0
  result2 := 0
  faulted := false
  windows := defaultWindows
  mem := []
  regions := []
  pending := []

/-- The machine right after reset, at this hardware's AW = 64 (00_scope.md R8; 10_state.md R40). -/
def State.reset : State := State.resetAt 64

end Sys2Proof.Machine
end

