-- ==== Sys2Proof/Machine/Flags.lean ====
section
/-! DEFINITION. The outcome codes: STATUS (10_state.md R27) and CAUSE (60_exceptions.md R270). The CXU has no other
flags (10_state.md R39). -/

namespace Sys2Proof.Machine

/-- The outcomes STATUS can hold (10_state.md R27). -/
inductive StatusCode where
  | none | ok | valueTooLarge | invalidArgument | outOfRange | fault
deriving DecidableEq, Repr

/-- The code of an outcome in STATUS (10_state.md R27). -/
def statusCode : StatusCode → BitVec 4
  | .none => 0x0
  | .ok => 0x1
  | .valueTooLarge => 0x2
  | .invalidArgument => 0x3
  | .outOfRange => 0x4
  | .fault => 0xF

/-- The causes of a CXU fault (60_exceptions.md R270). -/
inductive Cause where
  | badOpcode | badField | badSpan | badBase
deriving DecidableEq, Repr

/-- The code of a cause in CAUSE (60_exceptions.md R270). -/
def causeCode : Cause → BitVec 4
  | .badOpcode => 0x1
  | .badField => 0x2
  | .badSpan => 0x3
  | .badBase => 0x4

end Sys2Proof.Machine
end

