-- ==== Sys2Proof/Machine/Text.lean ====
section
/-! DEFINITION. Texts and digits (00_scope.md R14 to R16). A text is held in pieces, so that its length is known
without building it (45_fixed_writer.md R221, 44_hex_writer.md R189). -/

namespace Sys2Proof.Machine

/-- A piece of a text (00_scope.md R14). -/
inductive Piece where
  /-- Bytes as they stand. -/
  | bytes (bs : List (BitVec 8))
  /-- repeat(c, k): k copies of one byte. -/
  | run (c : BitVec 8) (k : Nat)
deriving DecidableEq, Repr

/-- A text: the bytes of its pieces in order (00_scope.md R14). -/
abbrev Text := List Piece

/-- The bytes of a piece. -/
def pieceBytes : Piece → List Byte
  | .bytes bs => bs
  | .run c k => List.replicate k c

/-- The number of bytes of a piece. -/
def pieceLength : Piece → Nat
  | .bytes bs => bs.length
  | .run _ k => k

/-- The bytes of a text. -/
def textBytes : Text → List Byte
  | [] => []
  | p :: ps => pieceBytes p ++ textBytes ps

/-- |T|, the length of a text (00_scope.md R14). -/
def textLength : Text → Nat
  | [] => 0
  | p :: ps => pieceLength p + textLength ps

/-- The ASCII bytes the spec names (00_scope.md R14). -/
def chZero : Byte := 0x30
@[inherit_doc chZero] def chPlus : Byte := 0x2B
@[inherit_doc chZero] def chMinus : Byte := 0x2D
@[inherit_doc chZero] def chPoint : Byte := 0x2E
@[inherit_doc chZero] def chP : Byte := 0x70

/-- The text of a sign bit: "-" when it is 1 (44_hex_writer.md R190, 45_fixed_writer.md R222). -/
def signText (neg : Bool) : Text := if neg then [.bytes [chMinus]] else []

/-- hexdig(v) (00_scope.md R15): lowercase. -/
def hexdig (v : Nat) : Byte :=
  if v ≤ 9 then BitVec.ofNat 8 (0x30 + v) else BitVec.ofNat 8 (0x61 + (v - 10))

/-- The decimal digits of `n`, most significant first, at most `fuel` of them. -/
def decDigits : Nat → Nat → List Nat
  | 0, _ => []
  | fuel + 1, n => if n < 10 then [n] else decDigits fuel (n / 10) ++ [n % 10]

/-- dec(n) (00_scope.md R16): the decimal digits of n as ASCII bytes, without leading zeros, "0" for 0. A number
has at most as many decimal digits as bits, so the fuel does not run out (log 20). -/
def dec (n : Nat) : List Byte := (decDigits (Nat.log2 n + 1) n).map fun d => BitVec.ofNat 8 (0x30 + d)

/-- ndigits(n) (00_scope.md R15, R16). -/
def ndigits (n : Nat) : Nat := (dec n).length

/-- The `count` low nibbles of `v` as hex digits, most significant first (44_hex_writer.md R190). -/
def hexDigits : Nat → Nat → List Byte
  | 0, _ => []
  | count + 1, v => hexDigits count (v / 16) ++ [hexdig (v % 16)]

end Sys2Proof.Machine
end

