-- ==== Sys2Proof/Machine/Ops.lean ====
section
/-! DEFINITION. The operations the commands share: taking a CXU fault and leaving it by reset, ending a command with
an outcome, the span check, and the all-or-nothing span write. -/

namespace Sys2Proof.Machine

/-- `raise Fault(cause)` (60_exceptions.md R273): FAULTED, STATUS and CAUSE change, nothing else. -/
def State.raiseFault {aw : Nat} (s : State aw) (c : Cause) : State aw :=
  { s with faulted := true, status := statusCode .fault, cause := causeCode c }

/-- Reset of the instance (70_reset_and_hazards.md R300 to R303): every register and the FAULTED latch as
10_state.md R40 says, the registers it leaves UNSPECIFIED as in `State.resetAt` (log 2). WINDOW_CONFIG and host memory
are not changed, nor are the platform's map and the actions still to come. This is the only way out of the fault
state (60_exceptions.md R276). -/
def State.platformReset {aw : Nat} (s : State aw) : State aw :=
  { State.resetAt aw with windows := s.windows, mem := s.mem, regions := s.regions, pending := s.pending }

/-- The command ends with an outcome in STATUS (10_state.md R27). -/
def State.endWith {aw : Nat} (s : State aw) (c : StatusCode) : State aw := { s with status := statusCode c }

/-- The size of the span, uint(LAST) - uint(FIRST) (20_memory.md R60). -/
def State.spanSize {aw : Nat} (s : State aw) : Nat := s.last.toNat - s.first.toNat

/-- The span is valid: uint(FIRST) ≤ uint(LAST) (20_memory.md R60). -/
def State.spanValid {aw : Nat} (s : State aw) : Bool := s.first.toNat ≤ s.last.toNat

/-- The bytes of the span (20_memory.md R60). -/
def State.spanBytes {aw : Nat} (s : State aw) : List Byte := s.mem.readBytes s.first.toNat s.spanSize

/-- A region has an address in [lo, hi). -/
def regionMeets (r : Region) (lo hi : Nat) : Bool := max r.base lo < min (r.base + r.size) hi

/-- Why the span is no place for a command: memory with side effects first (20_memory.md R68), then memory
another agent accesses (R72); an empty span meets no region (log 18). -/
def State.spanHazard {aw : Nat} (s : State aw) : Option Refusal :=
  if s.regions.any fun r => r.kind = .sideEffects && regionMeets r s.first.toNat s.last.toNat then
    some .spanSideEffects
  else if s.regions.any fun r => r.kind = .contended && regionMeets r s.first.toNat s.last.toNat then
    some .spanContended
  else none

/-- A command that uses the span: BAD_SPAN before any memory access when it is not valid (20_memory.md R61,
30_encoding.md R94), a refusal when the span is no place for a command (R68, R72), else the state `t`. -/
def State.onSpan {aw : Nat} (s : State aw) (t : State aw) : Host.Outcome (State aw) Fault Refusal :=
  if s.spanValid then
    match s.spanHazard with
    | some r => .refused r
    | none => .next t
  else .next (s.raiseFault .badSpan)

/-- `WriteSpan(FIRST, LAST, T)` (20_memory.md R63): the whole text and OK, or nothing and VALUE_TOO_LARGE. -/
def State.writeSpan {aw : Nat} (s : State aw) (t : Text) : State aw :=
  if textLength t ≤ s.spanSize then
    { s with
      mem := s.mem.writeBytes s.first.toNat (textBytes t)
      cursor := BitVec.ofNat aw (s.first.toNat + textLength t)
      status := statusCode .ok }
  else { s with cursor := s.last, status := statusCode .valueTooLarge }

end Sys2Proof.Machine
end

