-- ==== Sys2Proof/Machine/Operands.lean ====
section
/-! DEFINITION. The operands of the commands (30_encoding.md R92): which bits of which register each one reads. -/

namespace Sys2Proof.Machine

/-- The floating operand x = A[W(L)-1:0], zero-extended (10_state.md R25). -/
def State.floatOperand {aw : Nat} (s : State aw) (l : Layout) : Quad :=
  s.a &&& BitVec.ofNat 128 (2 ^ (layoutRow l).width - 1)

/-- The character operand c = A[7:0] (10_state.md R25). -/
def State.charOperand {aw : Nat} (s : State aw) : Byte := s.a.extractLsb' 0 8

/-- The decimal significand sig = uint(A) (10_state.md R25). -/
def State.sigOperand {aw : Nat} (s : State aw) : Nat := s.a.toNat

/-- The decimal exponent ex = sint(EXP) (10_state.md R26). -/
def State.exOperand {aw : Nat} (s : State aw) : Int := s.exp.toInt

/-- The precision P, read from PREC only when PV = 1 (10_state.md R26). -/
def State.precOperand {aw : Nat} (s : State aw) (pv : Bool) : Word := if pv then s.prec else 0

/-- Wt of the WID field (30_encoding.md R90); none for its reserved values. -/
def widthOf (wid : BitVec 3) : Option Nat :=
  if wid = 0 then some 8
  else if wid = 1 then some 16
  else if wid = 2 then some 32
  else if wid = 3 then some 64
  else if wid = 4 then some 128
  else none

/-- The base of the BASE field (30_encoding.md R91); none outside 2 to 36. -/
def baseOf (base : BitVec 6) : Option Nat :=
  if 2 ≤ base.toNat ∧ base.toNat ≤ 36 then some base.toNat else none

end Sys2Proof.Machine
end

