-- ==== Sys2Proof/Machine/FloatLayout.lean ====
section
/-! DEFINITION. The bit-layout extractor and classifier (42_float_layout.md) and CLASSIFY_FLOAT. A pattern `x` is the
W(L)-bit operand, zero-extended to 128 bits. -/

namespace Sys2Proof.Machine

/-- What Extract returns (42_float_layout.md R151). -/
structure FloatFields where
  /-- The sign s. -/
  sign : Bool
  /-- The biased exponent E. -/
  exponent : Nat
  /-- The integer bit J. -/
  intBit : Bool
  /-- The fraction F. -/
  fraction : Nat
deriving DecidableEq, Repr

/-- Extract(L, x) (42_float_layout.md R151). -/
def extractFloat (l : Layout) (x : Quad) : FloatFields :=
  let r := layoutRow l
  let e := (x.extractLsb' r.expLo r.expWidth).toNat
  { sign := x.getLsbD r.signBit
    exponent := e
    intBit := match r.intBit with
      | some b => x.getLsbD b
      | none => e != 0
    fraction := (x.extractLsb' 0 r.fracWidth).toNat }

/-- The six classes (42_float_layout.md R152). -/
inductive FloatClass where
  | zero | normal | subnormal | infinite | quietNaN | signalingNaN
deriving DecidableEq, Repr

/-- The class of a pattern (42_float_layout.md R152). In the layouts with an implicit integer bit J is 0 when E is 0,
so the test of J changes nothing there. -/
def classifyFloat (l : Layout) (x : Quad) : FloatClass :=
  let f := extractFloat l x
  if f.exponent = 0 then
    if f.intBit = false ∧ f.fraction = 0 then .zero else .subnormal
  else if f.exponent = (layoutRow l).emax then
    if f.fraction = 0 then .infinite
    else if x.getLsbD (layoutRow l).quietBit then .quietNaN
    else .signalingNaN
  else .normal

/-- The class code in RESULT (42_float_layout.md R157). -/
def classCode : FloatClass → BitVec 3
  | .zero => 0
  | .normal => 1
  | .subnormal => 2
  | .infinite => 3
  | .quietNaN => 4
  | .signalingNaN => 5

/-- The non-finite classes (42_float_layout.md R155). -/
def nonFinite : FloatClass → Bool
  | .infinite => true
  | .quietNaN => true
  | .signalingNaN => true
  | .zero => false
  | .normal => false
  | .subnormal => false

/-- The integer significand J * 2^FW + F (42_float_layout.md R153). -/
def significand (l : Layout) (x : Quad) : Nat :=
  let f := extractFloat l x
  f.intBit.toNat * 2 ^ (layoutRow l).fracWidth + f.fraction

/-- The exponent of the value, max(E, 1) - bias (42_float_layout.md R153, 44_hex_writer.md R184). -/
def unbiased (l : Layout) (x : Quad) : Int :=
  ((max (extractFloat l x).exponent 1 : Nat) : Int) - ((layoutRow l).bias : Int)

/-- The exponent of the integer significand, Eeff - bias - FW (42_float_layout.md R153). -/
def scale (l : Layout) (x : Quad) : Int := unbiased l x - ((layoutRow l).fracWidth : Int)

/-- mag(L, x) ≥ n as exact rationals, for an integer n (00_scope.md R18, 46_dispatcher.md R245). -/
def magAtLeast (l : Layout) (x : Quad) (n : Nat) : Bool :=
  if 0 ≤ scale l x then n ≤ significand l x * 2 ^ (scale l x).toNat
  else n * 2 ^ (-scale l x).toNat ≤ significand l x

/-- The integer part of mag(L, x), which is mag(L, x) itself where that is an integer (46_dispatcher.md R246). -/
def magInt (l : Layout) (x : Quad) : Nat :=
  if 0 ≤ scale l x then significand l x * 2 ^ (scale l x).toNat
  else significand l x / 2 ^ (-scale l x).toNat

/-- RESULT of CLASSIFY_FLOAT: {J, E on 15 bits, s, class on 3 bits}, zero-extended (42_float_layout.md R158). -/
def packClass (f : FloatFields) (c : FloatClass) : Quad :=
  (BitVec.ofBool f.intBit ++ BitVec.ofNat 15 f.exponent ++ BitVec.ofBool f.sign ++ classCode c).setWidth 128

/-- CLASSIFY_FLOAT (42_float_layout.md R158). -/
def execClassifyFloat {aw : Nat} (l : Layout) (s : State aw) : Host.Outcome (State aw) Fault Refusal :=
  let x := s.floatOperand l
  .next ({ s with
    result := packClass (extractFloat l x) (classifyFloat l x)
    result2 := BitVec.ofNat 128 (extractFloat l x).fraction }.endWith .ok)

end Sys2Proof.Machine
end

