-- ==== Sys2Proof/Machine/HexWriter.lean ====
section
/-! DEFINITION. The Hex Float Writer (44_hex_writer.md). -/

namespace Sys2Proof.Machine

/-- The digits of a hex text before they are written (44_hex_writer.md R185): the leading digit, the fraction value
and how many digits it has, and how many zeros follow them (R188). -/
structure HexParts where
  lead : Nat
  frac : Nat
  count : Nat
  zeros : Nat
deriving DecidableEq, Repr

/-- M, the fraction left-aligned to a nibble boundary (44_hex_writer.md R183). -/
def hexFraction (l : Layout) (x : Quad) : Nat :=
  (extractFloat l x).fraction * 2 ^ (4 * (layoutRow l).nhex - (layoutRow l).fracWidth)

/-- Q, the leading digit and the native fraction as one number (44_hex_writer.md R185). -/
def hexNative (l : Layout) (x : Quad) : Nat :=
  (extractFloat l x).intBit.toNat * 2 ^ (4 * (layoutRow l).nhex) + hexFraction l x

/-- K: Q without its `drop` low bits, rounded half to even (44_hex_writer.md R185). -/
def roundHalfEven (q drop : Nat) : Nat :=
  let k := q / 2 ^ drop
  let r := q % 2 ^ drop
  let h := 2 ^ (drop - 1)
  if h < r ∨ (r = h ∧ k % 2 = 1) then k + 1 else k

/-- The trailing-zero strip (44_hex_writer.md R187): the digits kept of `count` digits of `frac`. -/
def stripHex : Nat → Nat → Nat × Nat
  | 0, frac => (frac, 0)
  | count + 1, frac => if frac % 16 = 0 then stripHex count (frac / 16) else (frac, count + 1)

/-- The digits of the text: all native digits, stripped, when PV = 0 (44_hex_writer.md R187); padded with zeros when
P ≥ N (R188); rounded at the cut when P < N (R185). -/
def hexParts (l : Layout) (x : Quad) (pv : Bool) (p : Nat) : HexParts :=
  let n := (layoutRow l).nhex
  let j := (extractFloat l x).intBit.toNat
  let m := hexFraction l x
  if pv = false then { lead := j, frac := (stripHex n m).1, count := (stripHex n m).2, zeros := 0 }
  else if n ≤ p then { lead := j, frac := m, count := n, zeros := p - n }
  else
    let k := roundHalfEven (hexNative l x) (4 * (n - p))
    { lead := k / 16 ^ p, frac := k % 16 ^ p, count := p, zeros := 0 }

/-- The fractional digits and the point before them, nothing when there is no digit (44_hex_writer.md R181). -/
def hexFractionText (h : HexParts) : Text :=
  if h.count + h.zeros = 0 then []
  else [.bytes [chPoint], .bytes (hexDigits h.count h.frac), .run chZero h.zeros]

/-- 'p', the exponent sign and the exponent digits (44_hex_writer.md R181). -/
def hexExponentText (e : Int) : Text :=
  [.bytes [chP], .bytes [if 0 ≤ e then chPlus else chMinus], .bytes (dec e.natAbs)]

/-- HXW(L, x, PV, P) (44_hex_writer.md R190). -/
def hexText (l : Layout) (x : Quad) (pv : Bool) (p : Nat) : Text :=
  signText (extractFloat l x).sign ++ [.bytes [hexdig (hexParts l x pv p).lead]]
    ++ hexFractionText (hexParts l x pv p) ++ hexExponentText (unbiased l x)

/-- The hex zero literal (46_dispatcher.md R252). -/
def hexZeroText (sign : Bool) : Text := signText sign ++ [.bytes [0x30, 0x70, 0x2B, 0x30]]

end Sys2Proof.Machine
end

