-- ==== Sys2Proof/Machine/NonfiniteWriter.lean ====
section
/-! DEFINITION. The Non-finite Writer (43_nonfinite_writer.md). -/

namespace Sys2Proof.Machine

/-- NFTOKEN(c, s) (43_nonfinite_writer.md R171) as ASCII bytes; no token for a finite class. -/
def nfToken : FloatClass → Bool → List Byte
  | .infinite, false => [0x69, 0x6E, 0x66]
  | .infinite, true => [0x2D, 0x69, 0x6E, 0x66]
  | .quietNaN, false => [0x6E, 0x61, 0x6E]
  | .quietNaN, true => [0x2D, 0x6E, 0x61, 0x6E, 0x28, 0x69, 0x6E, 0x64, 0x29]
  | .signalingNaN, false => [0x6E, 0x61, 0x6E, 0x28, 0x73, 0x6E, 0x61, 0x6E, 0x29]
  | .signalingNaN, true => [0x2D, 0x6E, 0x61, 0x6E, 0x28, 0x73, 0x6E, 0x61, 0x6E, 0x29]
  | .zero, _ => []
  | .normal, _ => []
  | .subnormal, _ => []

/-- NFW(c, s) (43_nonfinite_writer.md R172): the whole token, no fallback. -/
def nfText (c : FloatClass) (sign : Bool) : Text := [.bytes (nfToken c sign)]

end Sys2Proof.Machine
end

