-- ==== Sys2Proof/Config.lean ====
section
/-! DEFINITION. What the spec leaves to the implementation as parameters of the model (00_scope.md R10): the
oracle port (46_dispatcher.md R240) and ADJ_PREC (R241). Each is an opaque function: nothing can evaluate it,
so whatever is proved holds for every oracle (log 6, log 7).

The opaque functions range over the raw material of an answer; Machine/OraclePort.lean builds the answers from
it so that the properties R240 requires hold of every answer, and any answer with them can occur. -/

namespace Sys2Proof

/-- Raw material of ORACLE_DECOMP(L, x) (46_dispatcher.md R240): the significand without its last digit, its
last digit less one (so never the digit 0), and the decimal exponent. Open parameter, log 6. -/
opaque Config.oracleDecomp : Layout → BitVec 128 → Nat × Fin 9 × Int

/-- Raw material of ORACLE_SHORTEST(L, x, f) (46_dispatcher.md R240): the first ASCII character of the text and
the rest of it. Open parameter, log 6. -/
opaque Config.oracleShortest : Layout → BitVec 128 → DecFmt → BitVec 7 × List (BitVec 7)

/-- Raw material of ORACLE_PREC(L, x, f, q) (46_dispatcher.md R240): the first ASCII character of the text and
the rest of it. Open parameter, log 6. -/
opaque Config.oraclePrec : Layout → BitVec 128 → DecFmt → Nat → BitVec 7 × List (BitVec 7)

/-- What an oracle text outside the usual decimal form says when it is parsed back (46_dispatcher.md R240: "ARC gives no
grammar for these texts"): its significant digits as a number, the exponent, the sign, and whether the form is
exponent-bearing. Open parameter, log 23. -/
opaque Config.readText : List (BitVec 8) → Option (Nat × Int × Bool × Bool)

/-- ADJ_PREC(P, below1, switched) (46_dispatcher.md R241). Open parameter, log 7. -/
opaque Config.adjPrec : BitVec 32 → Bool → Bool → Nat

end Sys2Proof
end

