-- ==== Sys2Proof/Machine/DigitClassifier.lean ====
section
/-! DEFINITION. The Digit Classifier (40_digit_classifier.md) and CLASSIFY_DIGIT. -/

namespace Sys2Proof.Machine

/-- DIGIT_TABLE (40_digit_classifier.md R110), the constant of 10_state.md R34: the digit value of a byte, 0xFF for
a byte that is no digit. DigitValue(c) (R111) is its entry. -/
def digitTable (c : Byte) : Byte :=
  if 0x30 ≤ c ∧ c ≤ 0x39 then c - 0x30
  else if 0x41 ≤ c ∧ c ≤ 0x5A then c - 0x41 + 10
  else if 0x61 ≤ c ∧ c ≤ 0x7A then c - 0x61 + 10
  else 0xFF

/-- DigitValue(c) as a number (40_digit_classifier.md R111). -/
def digitValue (c : Byte) : Nat := (digitTable c).toNat

/-- CLASSIFY_DIGIT (40_digit_classifier.md R112). -/
def execClassifyDigit {aw : Nat} (s : State aw) : Host.Outcome (State aw) Fault Refusal :=
  .next ({ s with result := (digitTable s.charOperand).setWidth 128 }.endWith .ok)

end Sys2Proof.Machine
end

