-- ==== Sys2Proof/Machine/FixedWriter.lean ====
section
/-! DEFINITION. The Fixed Decimal Writer (45_fixed_writer.md) and WRITE_FIXED. -/

namespace Sys2Proof.Machine

/-- A decomposition (45_fixed_writer.md R210): (-1)^neg * sig * 10^ex. -/
structure Decomp where
  sig : Nat
  ex : Int
  neg : Bool
deriving DecidableEq, Repr

/-- One division by ten, compensated in the exponent (45_fixed_writer.md R212). -/
def dropDigit (d : Decomp) : Decomp := { d with sig := d.sig / 10, ex := d.ex + 1 }

/-- The coarse truncation to at most P + 2 digits (45_fixed_writer.md R212). Each round drops a digit, so as many
rounds as there are digits are enough (log 20). -/
def coarseCut : Nat → Nat → Decomp → Decomp
  | 0, _, d => d
  | fuel + 1, p, d => if p + 2 < ndigits d.sig then coarseCut fuel p (dropDigit d) else d

/-- The boundary digit, removed with round-half-up (45_fixed_writer.md R213). -/
def roundBoundary (p : Nat) (d : Decomp) : Decomp :=
  if ndigits d.sig = p + 2 then
    if 5 ≤ d.sig % 10 then { dropDigit d with sig := d.sig / 10 + 1 } else dropDigit d
  else d

/-- The general-mode strip of trailing zero digits (45_fixed_writer.md R214), with fuel as in `coarseCut`. -/
def stripZeros : Nat → Decomp → Decomp
  | 0, d => d
  | fuel + 1, d => if 0 < d.sig ∧ d.sig % 10 = 0 then stripZeros fuel (dropDigit d) else d

/-- Step 1 of the writer (45_fixed_writer.md R212 to R214): nothing without a precision. -/
def adjustDecomp (pv : Bool) (p : Nat) (gen : Bool) (d : Decomp) : Decomp :=
  if pv then
    let r := roundBoundary p (coarseCut (ndigits d.sig) p d)
    if gen then stripZeros (ndigits r.sig) r else r
  else d

/-- Body(sig, ex) (45_fixed_writer.md R215, R216). -/
def fixedBody (sig : Nat) (ex : Int) : Text :=
  let n : Int := (ndigits sig : Int)
  if sig = 0 then [.bytes [chZero]]
  else if 0 ≤ ex then [.bytes (dec sig), .run chZero ex.toNat]
  else if 0 < n + ex then
    [.bytes ((dec sig).take (n + ex).toNat), .bytes [chPoint], .bytes ((dec sig).drop (n + ex).toNat)]
  else [.bytes [chZero, chPoint], .run chZero (-ex - n).toNat, .bytes (dec sig)]

/-- The text of a decomposition as it stands: the sign and the body (45_fixed_writer.md R215). -/
def decompText (d : Decomp) : Text := signText d.neg ++ fixedBody d.sig d.ex

/-- FXW(sig, ex, neg, pv, P, gen) (45_fixed_writer.md R222). -/
def fixedText (d : Decomp) (pv : Bool) (p : Nat) (gen : Bool) : Text := decompText (adjustDecomp pv p gen d)

/-- WRITE_FIXED (45_fixed_writer.md R225). -/
def execWriteFixed {aw : Nat} (neg gen pv : Bool) (s : State aw) : Host.Outcome (State aw) Fault Refusal :=
  s.onSpan (s.writeSpan
    (fixedText { sig := s.sigOperand, ex := s.exOperand, neg := neg } pv (s.precOperand pv).toNat gen))

end Sys2Proof.Machine
end

