-- ==== Sys2Proof/Machine/DecimalReader.lean ====
section
/-! DEFINITION. What an oracle text says, so that "when parsed back", "significant digits" and "in representation f"
(46_dispatcher.md R240) have a meaning. The spec gives no grammar for these texts: a text of the usual form (digits with
at most one point, an optional sign, an optional exponent) says what it always does, and any other text what an open
parameter says (DESIGN CHOICE, log 23). -/

namespace Sys2Proof.Machine

/-- What a decimal text says: the decimal it denotes, how many significant digits it has, and whether it bears an
exponent (46_dispatcher.md R240; log 23). -/
structure Reading where
  value : Decomp
  digits : Nat
  exponent : Bool
deriving DecidableEq, Repr

/-- Decimal digits from the front of a text: their value after `acc`, their number after `count`, and the rest. -/
def readDigits : List Byte → Nat → Nat → Nat × Nat × List Byte
  | [], acc, count => (acc, count, [])
  | c :: cs, acc, count =>
    if digitValue c < 10 then readDigits cs (acc * 10 + digitValue c) (count + 1) else (acc, count, c :: cs)

/-- A number that is the whole text: at least one digit and nothing after the digits. -/
def readWhole (cs : List Byte) : Option Nat :=
  match readDigits cs 0 0 with
  | (v, _ + 1, []) => some v
  | _ => none

/-- The exponent of a text: nothing, or 'e' or 'E', an optional sign and digits. -/
def readExponent : List Byte → Option Int
  | [] => some 0
  | c :: cs =>
    if c = 0x65 ∨ c = 0x45 then
      match cs with
      | [] => none
      | s :: ds =>
        if s = chMinus then (readWhole ds).map fun v => -(v : Int)
        else if s = chPlus then (readWhole ds).map fun v => (v : Int)
        else (readWhole (s :: ds)).map fun v => (v : Int)
    else none

/-- Digits after a point, where there is one: the value and the rest after `acc`, and how many they are. -/
def readFraction (acc : Nat) : List Byte → Nat × Nat × List Byte
  | [] => (acc, 0, [])
  | c :: cs => if c = chPoint then readDigits cs acc 0 else (acc, 0, c :: cs)

/-- How many significant digits the digits of a text are (log 23): from the first that is not 0 to the last one, but the
zeros at the end of a bare integer (no point, no exponent) only hold places. Of a zero, the 0 and the digits after the
point. -/
def significantDigits (bare : Bool) (sig frac : Nat) : Nat :=
  if sig = 0 then frac + 1
  else if bare then ndigits (stripZeros (ndigits sig) { sig := sig, ex := 0, neg := false }).sig
  else ndigits sig

/-- A decimal text of the usual form, without its sign. -/
def readUnsigned (neg : Bool) (cs : List Byte) : Option Reading :=
  let whole := readDigits cs 0 0
  let frac := readFraction whole.1 whole.2.2
  if whole.2.1 + frac.2.1 = 0 then none
  else (readExponent frac.2.2).map fun e => {
    value := { sig := frac.1, ex := e - (frac.2.1 : Int), neg := neg }
    digits := significantDigits whole.2.2.isEmpty frac.1 frac.2.1
    exponent := !frac.2.2.isEmpty }

/-- A decimal text of the usual form. -/
def readUsual : List Byte → Option Reading
  | [] => none
  | c :: cs => if c = chMinus then readUnsigned true cs else readUnsigned false (c :: cs)

/-- What an oracle text says (46_dispatcher.md R240; log 23). -/
def readText (bs : List Byte) : Option Reading :=
  match readUsual bs with
  | some r => some r
  | none => (Config.readText bs).map fun r => {
      value := { sig := r.1, ex := r.2.1, neg := r.2.2.1 }
      digits := ndigits r.1
      exponent := r.2.2.2 }

/-- The text is in representation f: "no-exponent decimal", "exponent-bearing decimal", or for General either of the two
(00_scope.md section 6; log 23). -/
def inRepresentation (f : DecFmt) (r : Reading) : Bool :=
  match f with
  | .fixed => !r.exponent
  | .scientific => r.exponent
  | .general => true

end Sys2Proof.Machine
end

