-- ==== Sys2Proof/Machine/RoundTrip.lean ====
section
/-! DEFINITION. When a decimal "parses back to the pattern x" and which decimal with the fewest digits does
(46_dispatcher.md R240): round to nearest, ties to even, into the layout (93_implementation_defined.md G11). Only the
VALUE of x counts: a decimal parses back to x when it rounds to val(L, x), also where x is a B80 pattern no parser
returns (unnormal, pseudo-denormal) or a zero of the other sign (DESIGN CHOICE, log 22). -/

namespace Sys2Proof.Machine

/-- The exponent of the last place of the smallest normal number, Eeff - bias - FW at E = 1: no value of the layout has
a finer one (42_float_layout.md R153). -/
def leastScale (l : Layout) : Int := 1 - ((layoutRow l).bias : Int) - ((layoutRow l).fracWidth : Int)

/-- How far the significand of x is shifted up in the value's one canonical form: until its top bit is bit P(L)-1 or the
exponent is the least one. Not at all but for the non-canonical patterns of B80 (42_float_layout.md R152, log 22). -/
def canonicalShift (l : Layout) (x : Quad) : Nat :=
  if significand l x = 0 then (scale l x - leastScale l).toNat
  else min ((layoutRow l).precision - 1 - Nat.log2 (significand l x)) (scale l x - leastScale l).toNat

/-- The significand of the canonical form of mag(L, x). -/
def canonicalSig (l : Layout) (x : Quad) : Nat := significand l x * 2 ^ canonicalShift l x

/-- The exponent of the canonical form of mag(L, x). -/
def canonicalExp (l : Layout) (x : Quad) : Int := scale l x - (canonicalShift l x : Int)

/-- The rounding interval of mag(L, x) from below, in quarters of the last place: half a place down, a quarter where
the next lower value is half a place away. -/
def roundingLow (l : Layout) (x : Quad) : Nat :=
  if canonicalSig l x = 2 ^ ((layoutRow l).precision - 1) ∧ leastScale l < canonicalExp l x then
    4 * canonicalSig l x - 1
  else 4 * canonicalSig l x - 2

/-- The rounding interval of mag(L, x) from above, in quarters of the last place. At the largest finite value this is
where rounding overflows. -/
def roundingHigh (l : Layout) (x : Quad) : Nat := 4 * canonicalSig l x + 2

/-- The two sides of a comparison of sig * 10^ex with b * 2^t, each times the same power of 2 and of 10. -/
def decimalSide (sig : Nat) (ex t : Int) : Nat := sig * 10 ^ ex.toNat * 2 ^ (-t).toNat
@[inherit_doc decimalSide] def binarySide (b : Nat) (ex t : Int) : Nat := b * 2 ^ t.toNat * 10 ^ (-ex).toNat

/-- The magnitude of a decomposition lies in the rounding interval of x, whose ends belong to it when the canonical
significand is even (ties to even). -/
def inRoundingInterval (l : Layout) (x : Quad) (sig : Nat) (ex : Int) : Bool :=
  let t := canonicalExp l x - 2
  if canonicalSig l x % 2 = 0 then
    binarySide (roundingLow l x) ex t ≤ decimalSide sig ex t && decimalSide sig ex t ≤ binarySide (roundingHigh l x) ex t
  else
    binarySide (roundingLow l x) ex t < decimalSide sig ex t && decimalSide sig ex t < binarySide (roundingHigh l x) ex t

/-- The decomposition parses back to x (46_dispatcher.md R240; log 22). -/
def readsBack (l : Layout) (x : Quad) (d : Decomp) : Bool :=
  (significand l x = 0 || d.neg = (extractFloat l x).sign) && inRoundingInterval l x d.sig d.ex

/-- How often 10^j goes into mag(L, x). -/
def multipleBelow (l : Layout) (x : Quad) (j : Int) : Nat :=
  significand l x * 2 ^ (scale l x).toNat * 10 ^ (-j).toNat / (2 ^ (-scale l x).toNat * 10 ^ j.toNat)

/-- A multiple of 10^j that parses back to x: the last one below the magnitude, else the next one. -/
def decimalAt (l : Layout) (x : Quad) (j : Int) : Option Decomp :=
  let c := multipleBelow l x j
  let neg := (extractFloat l x).sign
  if readsBack l x ⟨c, j, neg⟩ then some ⟨c, j, neg⟩
  else if readsBack l x ⟨c + 1, j, neg⟩ then some ⟨c + 1, j, neg⟩
  else none

/-- The first decimal found that parses back to x, in units of 10^j, then of 10^(j-1), and so on. -/
def searchDecimal (l : Layout) (x : Quad) : Nat → Int → Decomp
  | 0, j => ⟨multipleBelow l x j, j, (extractFloat l x).sign⟩
  | fuel + 1, j =>
    match decimalAt l x j with
    | some d => d
    | none => searchDecimal l x fuel (j - 1)

/-- A decimal with the fewest digits that parses back to x: the one in the largest units. The search starts at a power
of ten above the magnitude and ends where the magnitude itself is a decimal (log 20). -/
def shortestDecomp (l : Layout) (x : Quad) : Decomp :=
  if significand l x = 0 then ⟨0, 0, (extractFloat l x).sign⟩
  else searchDecimal l x (ndigits (magInt l x) + (-scale l x).toNat) (ndigits (magInt l x))

end Sys2Proof.Machine
end

