-- ==== Sys2Proof/Machine/OraclePort.lean ====
section
/-! DEFINITION. The oracle port (46_dispatcher.md R240 to R242). Each answer is the open parameter's own wherever that has
the properties R240 requires, and else one that has them; so every answer has them, and every answer the spec allows can
occur (log 6). -/

namespace Sys2Proof.Machine

/-! ### ORACLE_DECOMP -/

/-- The open parameter's decomposition: the sign of x, a positive significand, no trailing zero. -/
def rawDecomp (l : Layout) (x : Quad) : Decomp where
  sig := 10 * (Config.oracleDecomp l x).1 + ((Config.oracleDecomp l x).2.1.val + 1)
  ex := (Config.oracleDecomp l x).2.2
  neg := (extractFloat l x).sign

/-- The decimal parses back to x, and its digits, so many, are the fewest of any that does (46_dispatcher.md R240). -/
def shortestOk (l : Layout) (x : Quad) (d : Decomp) (digits : Nat) : Bool :=
  readsBack l x d && digits == ndigits (shortestDecomp l x).sig

/-- ORACLE_DECOMP(L, x) (46_dispatcher.md R240). Which of several shortest decompositions it is stays open, and so does
its value for a zero, for which it is never called. -/
def oracleDecomp (l : Layout) (x : Quad) : Decomp :=
  if significand l x = 0 then rawDecomp l x
  else if shortestOk l x (rawDecomp l x) (ndigits (rawDecomp l x).sig) then rawDecomp l x
  else shortestDecomp l x

/-! ### The oracle's texts -/

/-- A non-empty text of ASCII characters (46_dispatcher.md R240), its first byte and the others. -/
def asciiBytes (t : BitVec 7 × List (BitVec 7)) : Byte × List Byte := (t.1.setWidth 8, t.2.map fun c => c.setWidth 8)

/-- A text, not empty, from its first byte and the others. -/
def nonemptyText (t : Byte × List Byte) : Text := [.bytes (t.1 :: t.2)]

/-- The text is in representation f and denotes a decimal that parses back to x, and none with fewer significant digits
than the text has does (46_dispatcher.md R240). -/
def shortestTextOk (l : Layout) (x : Quad) (f : DecFmt) (bs : List Byte) : Bool :=
  match readText bs with
  | some r => inRepresentation f r && shortestOk l x r.value r.digits
  | none => false

/-- The text is a decimal in representation f (46_dispatcher.md R240). -/
def precTextOk (f : DecFmt) (bs : List Byte) : Bool :=
  match readText bs with
  | some r => inRepresentation f r
  | none => false

/-- A decimal in scientific form: its digits, 'e' and the exponent. -/
def scientificText (d : Decomp) : Text :=
  signText d.neg ++ [.bytes (dec d.sig), .bytes [0x65, if 0 ≤ d.ex then chPlus else chMinus], .bytes (dec d.ex.natAbs)]

/-- A shortest text of x in representation f, the answer where the open parameter's text is no answer. -/
def plainShortest (l : Layout) (x : Quad) (f : DecFmt) : List Byte :=
  textBytes (if f = .scientific then scientificText (shortestDecomp l x) else decompText (shortestDecomp l x))

/-- The open parameter's text where it has the required properties, else a shortest text of x in representation f. -/
def oracleText (l : Layout) (x : Quad) (f : DecFmt) (ok : List Byte → Bool) (raw : Byte × List Byte) : Text :=
  nonemptyText (
    if ok (raw.1 :: raw.2) then raw else ((plainShortest l x f).headD chZero, (plainShortest l x f).tail))

/-- ORACLE_SHORTEST(L, x, f) (46_dispatcher.md R240). Which shortest text it is stays open. -/
def oracleShortest (l : Layout) (x : Quad) (f : DecFmt) : Text :=
  oracleText l x f (shortestTextOk l x f) (asciiBytes (Config.oracleShortest l x f))

/-- ORACLE_PREC(L, x, f, q) (46_dispatcher.md R240): a rendering in representation f. Which decimal it denotes at
precision q, its rounding and ties included, stays open (93_implementation_defined.md U13). -/
def oraclePrec (l : Layout) (x : Quad) (f : DecFmt) (q : Nat) : Text :=
  oracleText l x f (precTextOk f) (asciiBytes (Config.oraclePrec l x f q))

end Sys2Proof.Machine
end

