-- ==== Sys2Proof/Machine/FloatDispatcher.lean ====
section
/-! DEFINITION. The Float Dispatcher (46_dispatcher.md) and FMT_FLOAT. -/

namespace Sys2Proof.Machine

/-- x is Normal or Subnormal, the classes the windows are about (46_dispatcher.md R243, R244). -/
def nonzeroFinite (c : FloatClass) : Bool := c = .normal || c = .subnormal

/-- InFixedWindow(L, x): 1 ≤ mag < MAX_FRAC(L) (46_dispatcher.md R243). -/
def inFixedWindow (w : WindowConfig) (l : Layout) (x : Quad) : Bool :=
  nonzeroFinite (classifyFloat l x) && magAtLeast l x 1 && !magAtLeast l x (windowOf w l).maxFrac

/-- InIntWindow(L, x): MAX_FRAC(L) ≤ mag < MAX_INT(L) (46_dispatcher.md R244). -/
def inIntWindow (w : WindowConfig) (l : Layout) (x : Quad) : Bool :=
  nonzeroFinite (classifyFloat l x) && magAtLeast l x (windowOf w l).maxFrac
    && !magAtLeast l x (windowOf w l).maxInt

/-- PlainInt(L, x) (46_dispatcher.md R247). -/
def plainIntText (l : Layout) (x : Quad) : Text :=
  signText (extractFloat l x).sign ++ [.bytes (dec (magInt l x))]

/-- The text of a decimal format without a precision, FMT ∈ {Fixed, General}: rows 5 to 7 of 46_dispatcher.md R248. -/
def windowText (w : WindowConfig) (l : Layout) (x : Quad) (f : DecFmt) : Text :=
  if inFixedWindow w l x then fixedText (oracleDecomp l x) false 0 (f = .general)
  else if inIntWindow w l x then plainIntText l x
  else oracleShortest l x f

/-- The text of a decimal format with a precision: row 8 of 46_dispatcher.md R248, with the switch of General to Fixed
of R249. -/
def precisionText (w : WindowConfig) (l : Layout) (x : Quad) (f : DecFmt) (p : Word) : Text :=
  let switched : Bool := f = .general && inFixedWindow w l x
  oraclePrec l x (if switched then .fixed else f) (Config.adjPrec p (!magAtLeast l x 1) switched)

/-- The text of a decimal format: rows 4 to 8 of 46_dispatcher.md R248. -/
def decimalText (w : WindowConfig) (l : Layout) (x : Quad) (f : DecFmt) (pv : Bool) (p : Word) : Text :=
  if pv then precisionText w l x f p
  else if f = .scientific then oracleShortest l x .scientific
  else windowText w l x f

/-- The text of the Hex format for a finite operand: rows 2 and 3 of 46_dispatcher.md R248. -/
def hexFormatText (l : Layout) (x : Quad) (pv : Bool) (p : Word) : Text :=
  if classifyFloat l x = .zero then hexZeroText (extractFloat l x).sign else hexText l x pv p.toNat

/-- The text of FMT_FLOAT: the routing of 46_dispatcher.md R248. -/
def floatText (w : WindowConfig) (l : Layout) (x : Quad) (f : Fmt) (pv : Bool) (p : Word) : Text :=
  if nonFinite (classifyFloat l x) then nfText (classifyFloat l x) (extractFloat l x).sign
  else
    match f with
    | .hex => hexFormatText l x pv p
    | .fixed => decimalText w l x .fixed pv p
    | .scientific => decimalText w l x .scientific pv p
    | .general => decimalText w l x .general pv p

/-- FMT_FLOAT (46_dispatcher.md R250). -/
def execFmtFloat {aw : Nat} (l : Layout) (f : Fmt) (pv : Bool) (s : State aw) : Host.Outcome (State aw) Fault Refusal :=
  s.onSpan (s.writeSpan (floatText s.windows l (s.floatOperand l) f pv (s.precOperand pv)))

end Sys2Proof.Machine
end

