-- ==== Sys2Proof/Machine/IntegerDecoder.lean ====
section
/-! DEFINITION. The Integer Decoder (41_integer_decoder.md) and PARSE_INT. -/

namespace Sys2Proof.Machine

/-- lim, the largest magnitude of the target type with the sign read (41_integer_decoder.md R123). -/
def parseLimit (width : Nat) (sgn neg : Bool) : Nat :=
  if sgn then (if neg then 2 ^ (width - 1) else 2 ^ (width - 1) - 1) else 2 ^ width - 1

/-- The decoder's working state in the digit loop (41_integer_decoder.md R124, R125; 10_state.md R38). -/
structure Scan where
  /-- The address of the next byte. -/
  pos : Nat
  /-- The accumulator. -/
  acc : Nat
  /-- The overflow mark. -/
  ovf : Bool
deriving DecidableEq, Repr

/-- One digit consumed (41_integer_decoder.md R125): the test before the multiplication, against thr = lim div b and
mld = lim mod b. -/
def consumeDigit (lim b d : Nat) (w : Scan) : Scan :=
  if w.ovf then { w with pos := w.pos + 1 }
  else if lim / b < w.acc ∨ (w.acc = lim / b ∧ lim % b < d) then { w with pos := w.pos + 1, ovf := true }
  else { w with pos := w.pos + 1, acc := w.acc * b + d }

/-- The digit loop over at most `n` bytes: it stops at the first byte that is no digit in base b, without consuming
it (41_integer_decoder.md R124). -/
def scanDigits (m : Memory) (lim b : Nat) : Nat → Scan → Scan
  | 0, w => w
  | n + 1, w =>
    if digitValue (m.read w.pos) < b then scanDigits m lim b n (consumeDigit lim b (digitValue (m.read w.pos)) w)
    else w

/-- A byte that is consumed as a sign of a signed type (41_integer_decoder.md R122). -/
def isSign (c : Byte) : Bool := c = chMinus || c = chPlus

/-- INVALID_ARGUMENT: CURSOR is FIRST, RESULT keeps its value (41_integer_decoder.md R121, R122, R126, R131). -/
def State.parseInvalid {aw : Nat} (s : State aw) : State aw := { s with cursor := s.first }.endWith .invalidArgument

/-- RESULT of a parsed value (41_integer_decoder.md R128, R131): the Wt-bit two's-complement pattern of v, sign- or
zero-extended. -/
def parseResult (width : Nat) (sgn neg : Bool) (acc : Nat) : Quad :=
  let v : Int := if neg then -(acc : Int) else (acc : Int)
  if sgn then (BitVec.ofInt width v).signExtend 128 else (BitVec.ofInt width v).setWidth 128

/-- How a parse ends, from the digit loop's start address and its last working state (41_integer_decoder.md R126 to
R128). -/
def State.parseEnd {aw : Nat} (s : State aw) (width : Nat) (sgn neg : Bool) (start : Nat) (w : Scan) : State aw :=
  if w.pos = start then s.parseInvalid
  else if w.ovf then { s with cursor := BitVec.ofNat aw w.pos }.endWith .outOfRange
  else
    { s with cursor := BitVec.ofNat aw w.pos, result := parseResult width sgn neg w.acc }.endWith .ok

/-- The byte at FIRST is consumed as a sign (41_integer_decoder.md R122). -/
def State.takesSign {aw : Nat} (s : State aw) (sgn : Bool) : Bool := sgn && isSign (s.mem.read s.first.toNat)

/-- The sign is negative (41_integer_decoder.md R122). -/
def State.takesMinus {aw : Nat} (s : State aw) (sgn : Bool) : Bool := sgn && s.mem.read s.first.toNat = chMinus

/-- The address of the first byte after the sign (41_integer_decoder.md R124). -/
def State.digitsStart {aw : Nat} (s : State aw) (sgn : Bool) : Nat :=
  if s.takesSign sgn then s.first.toNat + 1 else s.first.toNat

/-- The digit loop of a parse, from the first byte after the sign to LAST at most (41_integer_decoder.md R124). -/
def State.scanSpan {aw : Nat} (s : State aw) (width : Nat) (sgn : Bool) (b : Nat) : Scan :=
  scanDigits s.mem (parseLimit width sgn (s.takesMinus sgn)) b (s.last.toNat - s.digitsStart sgn)
    { pos := s.digitsStart sgn, acc := 0, ovf := false }

/-- The body of PARSE_INT on a valid span (41_integer_decoder.md R130). -/
def State.parseSpan {aw : Nat} (s : State aw) (width : Nat) (sgn : Bool) (b : Nat) : State aw :=
  if s.first = s.last then s.parseInvalid
  else if s.digitsStart sgn = s.last.toNat then s.parseInvalid
  else s.parseEnd width sgn (s.takesMinus sgn) (s.digitsStart sgn) (s.scanSpan width sgn b)

/-- PARSE_INT (41_integer_decoder.md R130), with the checks of WID, BASE and the span in the order of
30_encoding.md R94. -/
def execParseInt {aw : Nat} (wid : BitVec 3) (sgn : Bool) (base : BitVec 6) (s : State aw) :
    Host.Outcome (State aw) Fault Refusal :=
  match widthOf wid with
  | none => .next (s.raiseFault .badField)
  | some width =>
    match baseOf base with
    | none => .next (s.raiseFault .badBase)
    | some b => s.onSpan (s.parseSpan width sgn b)

end Sys2Proof.Machine
end

