-- ==== Sys2Proof/Machine/Dispatch.lean ====
section
/-! DEFINITION. What each command does, one arm per constructor (30_encoding.md R82). -/

namespace Sys2Proof.Machine

-- The decode faults and the FAULTED latch are dealt with before exec, in Machine/Issue.lean (30_encoding.md R94).
def exec (i : Instr) (s : State) : Host.Outcome State Fault Refusal :=
  match i with
  | .fmtFloat layout fmt pv => Sys2Proof.Machine.execFmtFloat layout fmt pv s
  | .parseInt wid sgn base => Sys2Proof.Machine.execParseInt wid sgn base s
  | .classifyFloat layout => Sys2Proof.Machine.execClassifyFloat layout s
  | .classifyDigit => Sys2Proof.Machine.execClassifyDigit s
  | .writeFixed neg gen pv => Sys2Proof.Machine.execWriteFixed neg gen pv s

end Sys2Proof.Machine
end

