-- ==== Sys2Proof/WellFormed.lean ====
section
/-! DEFINITION. Which commands have legal field values (30_encoding.md R88 to R91). An ill-formed command is
still an encoding of its row: it raises BAD_FIELD or BAD_BASE when issued (R93). -/

namespace Sys2Proof

/-- WID names a width: 0 to 4 (30_encoding.md R90). -/
def widLegal (wid : BitVec 3) : Bool := wid.toNat ≤ 4

/-- BASE names a base: 2 to 36 (30_encoding.md R91). -/
def baseLegal (base : BitVec 6) : Bool := 2 ≤ base.toNat && base.toNat ≤ 36

/-- Every field of the command holds a legal value (30_encoding.md R88 to R91). -/
def Instr.wellFormed : Instr → Bool
  | .fmtFloat _ _ _ => true
  | .parseInt wid _ base => widLegal wid && baseLegal base
  | .classifyFloat _ => true
  | .classifyDigit => true
  | .writeFixed _ _ _ => true

end Sys2Proof
end

