-- ==== Sys2Proof/Decode.lean ====
section
/-! DEFINITION. Decoding a command word (30_encoding.md R82 to R94) and encoding a command.

A command word reaches the CXU through the CMD register, never through memory (20_memory.md R75), so it is a
32-bit value with no byte order. -/

namespace Sys2Proof

/-- Why a word is no command: the first two checks of 30_encoding.md R94. -/
inductive Reject where
  /-- OP is 0x0 or 0x6 to 0xF. -/
  | badOpcode
  /-- A reserved bit of a defined command is 1. -/
  | badField
deriving DecidableEq, Repr

/-- The OP field, CMD[3:0] (30_encoding.md R81). -/
def opField (w : Word) : BitVec 4 := w.extractLsb' 0 4

/-- LAYOUT from its field (30_encoding.md R88). -/
def layoutOfField (f : BitVec 2) : Layout :=
  if f = 0 then .b32 else if f = 1 then .b64 else if f = 2 then .b80 else .b128

/-- The field of a LAYOUT (30_encoding.md R88). -/
def layoutField : Layout → BitVec 2
  | .b32 => 0
  | .b64 => 1
  | .b80 => 2
  | .b128 => 3

/-- FMT from its field (30_encoding.md R89). -/
def fmtOfField (f : BitVec 2) : Fmt :=
  if f = 0 then .fixed else if f = 1 then .scientific else if f = 2 then .general else .hex

/-- The field of a FMT (30_encoding.md R89). -/
def fmtField : Fmt → BitVec 2
  | .fixed => 0
  | .scientific => 1
  | .general => 2
  | .hex => 3

/-- RESMASK(op) of 30_encoding.md R94: the reserved bits of a defined command, which must be 0; none for an
OP that is no command. -/
def reservedMask (op : BitVec 4) : Option Word :=
  if op = 1 then some 0xFFFFFE00
  else if op = 2 then some 0xFFFFC000
  else if op = 3 then some 0xFFFFFFC0
  else if op = 4 then some 0xFFFFFFF0
  else if op = 5 then some 0xFFFFF8F0
  else none

/-- The command a word with legal reserved bits stands for, by its OP (30_encoding.md R83 to R87). -/
def fieldsOf (w : Word) : Instr :=
  if opField w = 1 then
    .fmtFloat (layoutOfField (w.extractLsb' 4 2)) (fmtOfField (w.extractLsb' 6 2)) (w.getLsbD 8)
  else if opField w = 2 then
    .parseInt (w.extractLsb' 4 3) (w.getLsbD 7) (w.extractLsb' 8 6)
  else if opField w = 3 then
    .classifyFloat (layoutOfField (w.extractLsb' 4 2))
  else if opField w = 4 then
    .classifyDigit
  else
    .writeFixed (w.getLsbD 10) (w.getLsbD 9) (w.getLsbD 8)

/-- Decoding: the checks of 30_encoding.md R94 that read only OP and the reserved bits, in its order. The
checks of WID and BASE belong to PARSE_INT and are made by its meaning (log 12). -/
def decode (w : Word) : Except Reject Instr :=
  match reservedMask (opField w) with
  | none => .error .badOpcode
  | some mask => if w &&& mask = 0 then .ok (fieldsOf w) else .error .badField

/-- The word of a command (30_encoding.md R83 to R87), most significant field first. -/
def encode : Instr → Word
  | .fmtFloat l f pv =>
    (0 : BitVec 23) ++ BitVec.ofBool pv ++ fmtField f ++ layoutField l ++ (0x1 : BitVec 4)
  | .parseInt wid sgn base =>
    (0 : BitVec 18) ++ base ++ BitVec.ofBool sgn ++ wid ++ (0x2 : BitVec 4)
  | .classifyFloat l => (0 : BitVec 26) ++ layoutField l ++ (0x3 : BitVec 4)
  | .classifyDigit => (0 : BitVec 28) ++ (0x4 : BitVec 4)
  | .writeFixed neg gen pv =>
    (0 : BitVec 21) ++ BitVec.ofBool neg ++ BitVec.ofBool gen ++ BitVec.ofBool pv ++ (0 : BitVec 4)
      ++ (0x5 : BitVec 4)

/-- What the decoder reads from the opcode table's numbering: bit 0 is the least significant bit of the word,
`nbits` bits are given and every bit above them is 0 (log 13). -/
def decodeTableWord (nbits w : Nat) : Option Instr :=
  match decode (BitVec.ofNat 32 (w % 2 ^ nbits)) with
  | .ok i => some i
  | .error _ => none

end Sys2Proof
end

