-- ==== Sys2Proof/Machine/Commands.lean ====
section
/-! DEFINITION. The commands of an instance with any address width (00_scope.md R8). `exec` of Machine/Dispatch.lean is
the same table at this hardware's AW = 64, in the host's form; Laws/Ops.lean proves the two equal there. -/

namespace Sys2Proof.Machine

/-- What each command does (30_encoding.md R82). -/
def execAt {aw : Nat} (i : Instr) (s : State aw) : Host.Outcome (State aw) Fault Refusal :=
  match i with
  | .fmtFloat layout fmt pv => execFmtFloat layout fmt pv s
  | .parseInt wid sgn base => execParseInt wid sgn base s
  | .classifyFloat layout => execClassifyFloat layout s
  | .classifyDigit => execClassifyDigit s
  | .writeFixed neg gen pv => execWriteFixed neg gen pv s

end Sys2Proof.Machine
end

