-- ==== Sys2Proof/Machine/Issue.lean ====
section
/-! DEFINITION. Issuing a command (30_encoding.md R80, R94) and the host's and platform's actions (10_state.md R22,
R33; 30_encoding.md R98; 70_reset_and_hazards.md R300), in an instance of any address width (00_scope.md R8). -/

namespace Sys2Proof.Machine

/-- The cause a rejected word raises (30_encoding.md R94). -/
def rejectCause : Reject → Cause
  | .badOpcode => .badOpcode
  | .badField => .badField

/-- A host write of CMD: CMD holds the word (10_state.md R23); in the fault state nothing else happens
(60_exceptions.md R274); else the word is decoded and executed (30_encoding.md R94). -/
def State.issue {aw : Nat} (s : State aw) (w : Word) : Host.Outcome (State aw) Fault Refusal :=
  if s.faulted then .next { s with cmd := w }
  else
    match decode w with
    | .ok i => execAt i { s with cmd := w }
    | .error e => .next (State.raiseFault { s with cmd := w } (rejectCause e))

/-- A host write of an interface register (10_state.md R22): the low bits of the value as wide as the register
(log 10); a write of a read-only register is ignored. -/
def State.hostWrite {aw : Nat} (s : State aw) (r : Reg) (v : Quad) : Host.Outcome (State aw) Fault Refusal :=
  match r with
  | .cmd => s.issue (v.setWidth 32)
  | .first => .next { s with first := v.setWidth aw }
  | .last => .next { s with last := v.setWidth aw }
  | .a => .next { s with a := v }
  | .exp => .next { s with exp := v.setWidth 32 }
  | .prec => .next { s with prec := v.setWidth 32 }
  | .status => .next s
  | .cause => .next s
  | .cursor => .next s
  | .result => .next s
  | .result2 => .next s

/-- What a host read of an interface register returns, zero-extended to 128 bits (10_state.md R22, R23; log 4). In the
fault state STATUS reads FAULT (R37). A read changes nothing. -/
def State.hostRead {aw : Nat} (s : State aw) (r : Reg) : Quad :=
  match r with
  | .cmd => s.cmd.setWidth 128
  | .first => s.first.setWidth 128
  | .last => s.last.setWidth 128
  | .a => s.a
  | .exp => s.exp.setWidth 128
  | .prec => s.prec.setWidth 128
  | .status => (if s.faulted then statusCode .fault else s.status).setWidth 128
  | .cause => s.cause.setWidth 128
  | .cursor => s.cursor.setWidth 128
  | .result => s.result
  | .result2 => s.result2

/-- The host stores bytes at increasing addresses (30_encoding.md R98). An address past 2^AW - 1 does not exist
(20_memory.md R60; log 9); memory with side effects has no meaning (R68; log 19). -/
def State.hostStore {aw : Nat} (s : State aw) (addr : Addr aw) (text : List Byte) :
    Host.Outcome (State aw) Fault Refusal :=
  if memorySize aw < addr.toNat + text.length then .fault (.noSuchAddress (memorySize aw))
  else if s.regions.any fun r => r.kind = .sideEffects && regionMeets r addr.toNat (addr.toNat + text.length) then
    .refused .storeSideEffects
  else .next { s with mem := s.mem.writeBytes addr.toNat text }

/-- What one action of the host or the platform does. -/
def State.act {aw : Nat} (s : State aw) (action : HostAction aw) : Host.Outcome (State aw) Fault Refusal :=
  match action with
  | .set r v => s.hostWrite r v
  | .mem addr text => s.hostStore addr text
  | .reset => .next s.platformReset
  | .regions rs => .next { s with regions := rs }

/-- The next action is taken and performed; with no action to come the CXU is idle and holds all its state
(60_exceptions.md R284; log 1). -/
def State.advance {aw : Nat} (s : State aw) : Host.Outcome (State aw) Fault Refusal :=
  match s.pending with
  | [] => .next s
  | action :: rest => State.act { s with pending := rest } action

end Sys2Proof.Machine
end

