-- ==== Sys2Proof/Machine/Step.lean ====
section
/-! DEFINITION. One step of the machine: the next action of the host or the platform, a command being a write of CMD
(10_state.md R20, R23; 30_encoding.md R80). -/

namespace Sys2Proof.Machine

/-- One step (10_state.md R20: each command is one atomic transition). -/
def step (s : State) : Host.Outcome State Fault Refusal := s.advance

/-- The state whose next action is the host's write to CMD of the word whose bits are `w` (`nbits` of them; the bits
above are 0): the very next step issues that word (log 1). -/
def State.withFetchWord (s : State) (nbits w : Nat) : State :=
  { s with pending := .set .cmd (BitVec.ofNat 128 (w % 2 ^ nbits % 2 ^ 32)) :: s.pending }

end Sys2Proof.Machine
end

