-- ==== Sys2Proof/Safety.lean ====
section
/-! DEFINITION. The terms the statements use: the invariant of the machine, what a span write leaves, and the numbers
that bit patterns and texts denote, written from the spec apart from the functions the machine computes with. -/

namespace Sys2Proof.Machine

/-! ### The invariant -/

/-- The fault state is consistent: while FAULTED, STATUS is FAULT and CAUSE is one of the four causes; else CAUSE is
NONE and STATUS is one of the codes 0x0 to 0x4 (10_state.md R27, R28, R37; 60_exceptions.md R270, R273). -/
def State.faultStateOk {aw : Nat} (s : State aw) : Prop :=
  if s.faulted then s.status = 0xF ∧ 1 ≤ s.cause.toNat ∧ s.cause.toNat ≤ 4
  else s.cause = 0 ∧ s.status.toNat ≤ 4

/-- The invariant: memory in its canonical form, WINDOW_CONFIG within its constraint (10_state.md R36), and the fault
state consistent. -/
def State.Inv {aw : Nat} (s : State aw) : Prop :=
  s.mem.wf aw = true ∧ windowsLegal s.windows = true ∧ s.faultStateOk

/-! ### Spans -/

/-- The span is a place for a command: valid (20_memory.md R60) and in ordinary memory no other agent accesses
(R68, R72). -/
def State.spanReady {aw : Nat} (s : State aw) : Prop := s.first.toNat ≤ s.last.toNat ∧ s.spanHazard = none

/-- An address of [lo, hi) lies in a range with side effects (20_memory.md R68; log 8). -/
def State.meetsSideEffects {aw : Nat} (s : State aw) (lo hi : Nat) : Prop :=
  ∃ r ∈ s.regions, r.kind = .sideEffects ∧ ∃ a, r.base ≤ a ∧ a < r.base + r.size ∧ lo ≤ a ∧ a < hi

/-- Everything a command never writes is the same: CMD, the operand registers, WINDOW_CONFIG, and what is not the
CXU's (10_state.md R22, R33, R36). -/
def State.sameInputs {aw : Nat} (s t : State aw) : Prop :=
  t.cmd = s.cmd ∧ t.first = s.first ∧ t.last = s.last ∧ t.a = s.a ∧ t.exp = s.exp ∧ t.prec = s.prec ∧
  t.windows = s.windows ∧ t.regions = s.regions ∧ t.pending = s.pending

/-- Every address of memory reads the same. -/
def State.sameMemory {aw : Nat} (s t : State aw) : Prop := ∀ a, t.mem.read a = s.mem.read a

/-- `t` is `s` after `WriteSpan(FIRST, LAST, T)` with the bytes of T (20_memory.md R63, R64): the whole text from FIRST
on and OK, or nothing and VALUE_TOO_LARGE; every address outside the text reads as before, and no other register
changes. -/
def State.wroteSpan {aw : Nat} (s t : State aw) (bs : List Byte) : Prop :=
  s.sameInputs t ∧ t.faulted = s.faulted ∧ t.cause = s.cause ∧ t.result = s.result ∧ t.result2 = s.result2 ∧
  if bs.length ≤ s.last.toNat - s.first.toNat then
    t.status = 0x1 ∧ t.cursor.toNat = s.first.toNat + bs.length ∧
    t.mem.readBytes s.first.toNat bs.length = bs ∧
    ∀ a, a < s.first.toNat ∨ s.first.toNat + bs.length ≤ a → t.mem.read a = s.mem.read a
  else t.status = 0x2 ∧ t.cursor = s.last ∧ s.sameMemory t

/-- The commands that use the span (20_memory.md R60). -/
def usesSpan : Instr → Bool
  | .fmtFloat _ _ _ => true
  | .parseInt _ _ _ => true
  | .classifyFloat _ => false
  | .classifyDigit => false
  | .writeFixed _ _ _ => true

/-! ### Numbers that texts denote -/

/-- The value of a numeral in base b, most significant digit first (41_integer_decoder.md R125, R134). -/
def numeralValue (b : Nat) (ds : List Byte) : Nat := ds.foldl (fun acc c => acc * b + digitValue c) 0

/-- One character of a number with a point: the digits so far as an integer, how many of them are fractional, and
whether the point has been seen. -/
def pointStep (b : Nat) (r : Nat × Nat × Bool) (c : Byte) : Nat × Nat × Bool :=
  if c = 0x2E then (r.1, r.2.1, true)
  else (r.1 * b + digitValue c, if r.2.2 then r.2.1 + 1 else r.2.1, r.2.2)

/-- The rational an unsigned number with a point denotes in base b. -/
def pointValue (b : Nat) (cs : List Byte) : ℚ :=
  ((cs.foldl (pointStep b) (0, 0, false)).1 : ℚ) / (b : ℚ) ^ (cs.foldl (pointStep b) (0, 0, false)).2.1

/-- The rational a text denotes: a leading "-" negates the rest. -/
def signedValue (f : List Byte → ℚ) : List Byte → ℚ
  | [] => f []
  | c :: cs => if c = 0x2D then -f cs else f (c :: cs)

/-- The rational a decimal text denotes: optional "-", digits, at most one point (45_fixed_writer.md R215, R217). -/
def decimalValue (bs : List Byte) : ℚ := signedValue (pointValue 10) bs

/-- The exponent after 'p': an explicit sign and decimal digits (44_hex_writer.md R181). -/
def hexExponentValue : List Byte → Int
  | [] => 0
  | c :: cs => if c = 0x2D then -(numeralValue 10 cs : Int) else (numeralValue 10 cs : Int)

/-- The rational a hex text without its sign denotes: the number before 'p' times two to the exponent after it
(44_hex_writer.md R181, R191). -/
def hexMagnitude (cs : List Byte) : ℚ :=
  pointValue 16 (cs.takeWhile fun c => c != 0x70)
    * (2 : ℚ) ^ hexExponentValue ((cs.dropWhile fun c => c != 0x70).drop 1)

/-- The rational a hex text denotes (44_hex_writer.md R181, R191). -/
def hexValue (bs : List Byte) : ℚ := signedValue hexMagnitude bs

/-! ### Numbers that bit patterns and decompositions denote -/

/-- mag(L, x) (42_float_layout.md R153). -/
def floatMag (l : Layout) (x : Quad) : ℚ := (significand l x : ℚ) * (2 : ℚ) ^ scale l x

/-- val(L, x) (42_float_layout.md R153). -/
def floatVal (l : Layout) (x : Quad) : ℚ :=
  if (extractFloat l x).sign then -floatMag l x else floatMag l x

/-- The rational a decomposition denotes (45_fixed_writer.md R210). -/
def decompValue (d : Decomp) : ℚ :=
  if d.neg then -((d.sig : ℚ) * (10 : ℚ) ^ d.ex) else (d.sig : ℚ) * (10 : ℚ) ^ d.ex

/-! ### The oracle's contract -/

/-- The rational `q` parses back to the pattern `x`: no finite value of the layout is nearer to `q` than that of `x`, the
significand of `x` is even where another is as near, and `q` does not overflow the layout (46_dispatcher.md R240;
93_implementation_defined.md G11). DESIGN CHOICE (log 22): `x` counts as the result when its VALUE is. So a B80 pattern
that no decimal parser returns (unnormal, pseudo-denormal) is parsed back to by what rounds to its value, evenness being
that of the value's canonical form, and either zero by what rounds to zero. -/
def parsesBack (l : Layout) (q : ℚ) (x : Quad) : Prop :=
  nonFinite (classifyFloat l x) = false ∧
  (∀ y, nonFinite (classifyFloat l y) = false → |q - floatVal l x| ≤ |q - floatVal l y|) ∧
  (∀ y, nonFinite (classifyFloat l y) = false → floatVal l y ≠ floatVal l x →
    |q - floatVal l y| = |q - floatVal l x| → canonicalSig l x % 2 = 0) ∧
  |q| < (2 - (2 : ℚ) ^ (-((layoutRow l).precision : Int)))
      * (2 : ℚ) ^ (((layoutRow l).emax : Int) - 1 - ((layoutRow l).bias : Int))

/-- What 46_dispatcher.md R240 requires of ORACLE_DECOMP on a value of the fixed window: the sign of x, a positive
significand without trailing zero, and the decomposition parses back to x (log 22) and none with fewer digits does. -/
def decompContract (l : Layout) (x : Quad) (d : Decomp) : Prop :=
  d.neg = (extractFloat l x).sign ∧ 0 < d.sig ∧ d.sig % 10 ≠ 0 ∧ parsesBack l (decompValue d) x ∧
  ∀ d' : Decomp, ndigits d'.sig < ndigits d.sig → ¬ parsesBack l (decompValue d') x

/-- The text is a decimal in representation f (46_dispatcher.md R240; log 23): without an exponent under Fixed, with one
under Scientific (00_scope.md section 6). -/
def textInRepresentation (f : DecFmt) (bs : List Byte) : Prop :=
  ∃ r : Reading, readText bs = some r ∧ (f = .fixed → r.exponent = false) ∧ (f = .scientific → r.exponent = true)

/-- What 46_dispatcher.md R240 requires of ORACLE_SHORTEST: the text is in representation f and denotes a decimal (log
23) that parses back to x (log 22), and no decimal with fewer significant digits than the text has does. -/
def textContract (l : Layout) (x : Quad) (f : DecFmt) (bs : List Byte) : Prop :=
  textInRepresentation f bs ∧
  ∃ r : Reading, readText bs = some r ∧ parsesBack l (decompValue r.value) x ∧
    ∀ d' : Decomp, ndigits d'.sig < r.digits → ¬ parsesBack l (decompValue d') x

end Sys2Proof.Machine
end

