-- ==== Sys2Proof/Certificates/Slice0/Obligations.lean ====
section
/-! DEFINITION. The statements for the provers. Each docstring names the rule of spec/ it formalises, or says that the
statement is derived and from what. -/

open Sys2Proof Sys2Proof.Machine

/-! ### Encoding and issue -/

/-- Derived from the formats of 30_encoding.md R83 to R87: decoding the word of any command gives the command back,
with every operand at every value its field admits. -/
def Obligations.DecodeOfEncode : Prop := ∀ i : Instr, decode (encode i) = .ok i

/-- Derived from 30_encoding.md R83 to R87, R93 and R95: a word the decoder accepts is the word of the command it
gives, so each command has exactly one word and no bit is dropped. -/
def Obligations.EncodeOfDecode : Prop := ∀ (w : Word) (i : Instr), decode w = .ok i → encode i = w

/-- Derived from the examples of 30_encoding.md R96: the words the spec writes out decode to their commands. -/
def Obligations.SpecWordsDecode : Prop :=
  decode 0x000000D1 = .ok (.fmtFloat .b64 .hex false) ∧
  decode 0x00000111 = .ok (.fmtFloat .b64 .fixed true) ∧
  decode 0x00000A82 = .ok (.parseInt 0 true 10) ∧
  decode 0x00000A02 = .ok (.parseInt 0 false 10) ∧
  decode 0x000010A2 = .ok (.parseInt 2 true 16) ∧
  decode 0x00000003 = .ok (.classifyFloat .b32) ∧
  decode 0x00000004 = .ok .classifyDigit ∧
  decode 0x00000105 = .ok (.writeFixed false false true) ∧
  decode 0x00000705 = .ok (.writeFixed true true true)

/-- 30_encoding.md R94: the checks of a written command word, in their order, with the fields and the reserved bits
read off the word as a number; a word that passes them all runs as the one well-formed command it encodes. -/
def Obligations.IssueChecksInOrder : Prop :=
  ∀ (s : State) (w : Word),
    if s.faulted = true then s.issue w = .next { s with cmd := w }
    else if w.toNat % 16 = 0 ∨ 6 ≤ w.toNat % 16 then
      s.issue w = .next { s with cmd := w, faulted := true, status := 0xF, cause := 1 }
    else if (w.toNat % 16 = 1 ∧ w.toNat / 2 ^ 9 ≠ 0) ∨ (w.toNat % 16 = 2 ∧ w.toNat / 2 ^ 14 ≠ 0) ∨
        (w.toNat % 16 = 3 ∧ w.toNat / 2 ^ 6 ≠ 0) ∨ (w.toNat % 16 = 4 ∧ w.toNat / 2 ^ 4 ≠ 0) ∨
        (w.toNat % 16 = 5 ∧ (w.toNat / 2 ^ 11 ≠ 0 ∨ w.toNat / 2 ^ 4 % 2 ^ 4 ≠ 0)) then
      s.issue w = .next { s with cmd := w, faulted := true, status := 0xF, cause := 2 }
    else if w.toNat % 16 = 2 ∧ 4 < w.toNat / 2 ^ 4 % 2 ^ 3 then
      s.issue w = .next { s with cmd := w, faulted := true, status := 0xF, cause := 2 }
    else if w.toNat % 16 = 2 ∧ ¬ (2 ≤ w.toNat / 2 ^ 8 % 2 ^ 6 ∧ w.toNat / 2 ^ 8 % 2 ^ 6 ≤ 36) then
      s.issue w = .next { s with cmd := w, faulted := true, status := 0xF, cause := 4 }
    else if (w.toNat % 16 = 1 ∨ w.toNat % 16 = 2 ∨ w.toNat % 16 = 5) ∧ s.last.toNat < s.first.toNat then
      s.issue w = .next { s with cmd := w, faulted := true, status := 0xF, cause := 3 }
    else ∃ i, encode i = w ∧ i.wellFormed = true ∧ s.issue w = exec i { s with cmd := w }

/-- Derived from 10_state.md R20, R23 and 30_encoding.md R80: when the host's next action writes CMD with a word that
decodes to `i` and the CXU is not in the fault state, the step is `exec i` on the state whose CMD holds the word and
whose action is taken off the list (the list of actions is the model's, log 1). -/
def Obligations.StepRunsDecodedCommand : Prop :=
  ∀ (s : State) (v : Quad) (rest : List HostAction) (i : Instr),
    s.faulted = false → s.pending = .set .cmd v :: rest → decode (v.setWidth 32) = .ok i →
    step s = exec i { s with pending := rest, cmd := v.setWidth 32 }

/-- The model's choice (log 1), derived from 30_encoding.md R80: `withFetchWord` makes the very next step issue the
word, with nothing else changed. -/
def Obligations.WithFetchWordIssuesTheWord : Prop :=
  ∀ (s : State) (w : Nat), w < 2 ^ 32 → step (s.withFetchWord 32 w) = s.issue (BitVec.ofNat 32 w)

/-! ### The fault state, reset and the host's other actions -/

/-- 60_exceptions.md R274: a command issued in the fault state is ignored; CMD stores the word and nothing else
changes, STATUS reads FAULT and CAUSE keeps its value. -/
def Obligations.FaultedCommandIsIgnored : Prop :=
  ∀ (s : State) (v : Quad) (rest : List HostAction),
    s.faulted = true → s.pending = .set .cmd v :: rest →
    ∃ t, step s = .next t ∧ t = { s with pending := rest, cmd := v.setWidth 32 } ∧
      t.hostRead .status = 0xF ∧ t.cause = s.cause

/-- 60_exceptions.md R276: no action but reset leaves the fault state; reset sets STATUS and CAUSE to NONE, and
anything else keeps FAULTED, STATUS and CAUSE. -/
def Obligations.OnlyResetLeavesFaultState : Prop :=
  ∀ s t : State, s.faulted = true → step s = .next t →
    (∃ rest, s.pending = .reset :: rest ∧ t.faulted = false ∧ t.status = 0 ∧ t.cause = 0) ∨
    ((∀ rest, s.pending ≠ .reset :: rest) ∧ t.faulted = true ∧ t.status = s.status ∧ t.cause = s.cause)

/-- 60_exceptions.md R273: fault entry is precise. When issuing a word outside the fault state enters it, the state is
the one before with CMD holding the word (10_state.md R23), FAULTED set, STATUS = FAULT and one of the four causes in
CAUSE, and nothing else changed. -/
def Obligations.FaultEntryIsPrecise : Prop :=
  ∀ (s t : State) (w : Word), s.faulted = false → s.issue w = .next t → t.faulted = true →
    ∃ c ∈ ([1, 2, 3, 4] : List (BitVec 4)), t = { s with cmd := w, faulted := true, status := 0xF, cause := c }

/-- 60_exceptions.md R271: VALUE_TOO_LARGE, INVALID_ARGUMENT and OUT_OF_RANGE set STATUS, do not set FAULTED, and leave
the CXU ready: the next command word that decodes is executed. -/
def Obligations.StatusesAreNotFaults : Prop :=
  ∀ (i : Instr) (s t : State), s.faulted = false → exec i s = .next t →
    t.status = 0x2 ∨ t.status = 0x3 ∨ t.status = 0x4 →
    t.faulted = false ∧ t.cause = s.cause ∧
    ∀ (w : Word) (j : Instr), decode w = .ok j → t.issue w = exec j { t with cmd := w }

/-- Derived from 10_state.md R22: a host write of a read-only register changes nothing. -/
def Obligations.ReadOnlyWritesAreIgnored : Prop :=
  ∀ (s : State) (r : Reg) (v : Quad) (rest : List HostAction),
    r ∈ [Reg.status, .cause, .cursor, .result, .result2] → s.pending = .set r v :: rest →
    step s = .next { s with pending := rest }

/-- Derived from 10_state.md R22 and R33: a host write of an operand register makes that register read the low bits of
the value (as many as the register has, log 10); every other register reads as before, and memory and the fault latch
are unchanged. -/
def Obligations.OperandWritesAreReadBack : Prop :=
  ∀ (s : State) (r : Reg) (width : Nat) (v : Quad) (rest : List HostAction),
    (r, width) ∈ [(Reg.first, 64), (.last, 64), (.a, 128), (.exp, 32), (.prec, 32)] →
    s.pending = .set r v :: rest →
    ∃ t, step s = .next t ∧ t.pending = rest ∧ (t.hostRead r).toNat = v.toNat % 2 ^ width ∧
      (∀ q, q ≠ r → t.hostRead q = s.hostRead q) ∧ t.mem = s.mem ∧ t.faulted = s.faulted

/-- Derived from 30_encoding.md R98, 20_memory.md R60, R65 and R68: a host store inside the address space puts its
bytes at increasing addresses and changes nothing else. The two stops are the model's choice: a store that runs past
the last address (log 9), and one with an address in a range with side effects (log 19). -/
def Obligations.HostStoreWritesItsBytes : Prop :=
  ∀ (s : State) (addr : Addr) (text : List Byte) (rest : List HostAction), s.pending = .mem addr text :: rest →
    (2 ^ 64 < addr.toNat + text.length → step s = .fault (.noSuchAddress (2 ^ 64))) ∧
    (addr.toNat + text.length ≤ 2 ^ 64 → s.meetsSideEffects addr.toNat (addr.toNat + text.length) →
      step s = .refused .storeSideEffects) ∧
    (addr.toNat + text.length ≤ 2 ^ 64 → ¬ s.meetsSideEffects addr.toNat (addr.toNat + text.length) →
      ∃ t, step s = .next t ∧ t = { s with pending := rest, mem := t.mem } ∧
        t.mem.readBytes addr.toNat text.length = text ∧
        ∀ a, a < addr.toNat ∨ addr.toNat + text.length ≤ a → t.mem.read a = s.mem.read a)

/-- Derived from 10_state.md R40 and 70_reset_and_hazards.md R300, R301, R303: a reset gives CMD, STATUS, CAUSE and
FAULTED their stated values and changes neither memory nor WINDOW_CONFIG; it issues no command. That the rest of the
list of actions is still to come is the model's choice (log 17). -/
def Obligations.ResetKeepsMemoryAndWindows : Prop :=
  ∀ (s : State) (rest : List HostAction), s.pending = .reset :: rest →
    ∃ t, step s = .next t ∧ t.cmd = 0 ∧ t.status = 0 ∧ t.cause = 0 ∧ t.faulted = false ∧
      t.mem = s.mem ∧ t.windows = s.windows ∧ t.pending = rest

/-- Derived from 10_state.md R36 and R40: the values the spec states for reset, WINDOW_CONFIG at the defaults of this
hardware. -/
def Obligations.ResetStateHoldsSpecValues : Prop :=
  State.reset.cmd = 0 ∧ State.reset.status = 0 ∧ State.reset.cause = 0 ∧ State.reset.faulted = false ∧
  State.reset.windows.b32 = ⟨10 ^ 7, 2 ^ 32⟩ ∧ State.reset.windows.b64 = ⟨10 ^ 16, 2 ^ 64⟩ ∧
  State.reset.windows.b80 = ⟨10 ^ 19, 2 ^ 64⟩ ∧ State.reset.windows.b128 = ⟨10 ^ 34, 2 ^ 128⟩

/-! ### Invariants and frames -/

/-- Derived from 10_state.md R27, R28, R36, R37, R40: the invariant holds at reset. -/
def Obligations.ResetMeetsInvariant : Prop := State.reset.Inv

/-- Derived from 10_state.md R27, R28, R36, R37 and 60_exceptions.md R270, R273: every step keeps the invariant: memory
in canonical form, WINDOW_CONFIG within its constraint, FAULTED, STATUS and CAUSE consistent and no reserved code of
STATUS or CAUSE ever produced. -/
def Obligations.StepKeepsInvariant : Prop := ∀ s t : State, s.Inv → step s = .next t → t.Inv

/-- Derived from 10_state.md R36 and 70_reset_and_hazards.md R303: no command, no host write and no reset changes
WINDOW_CONFIG. -/
def Obligations.WindowConfigNeverChanges : Prop := ∀ s t : State, step s = .next t → t.windows = s.windows

/-- Derived from 10_state.md R22, R33 and R36 and 70_reset_and_hazards.md R303: no command writes CMD, an operand
register or WINDOW_CONFIG; nor the model's own fields, the declared ranges (log 8) and the actions to come (log 1). -/
def Obligations.CommandsKeepTheirInputs : Prop :=
  ∀ (i : Instr) (s t : State), exec i s = .next t → s.sameInputs t

/-- Derived from 10_state.md R41 (an inference of the spec): which state each command writes; a command that faults
writes FAULTED, STATUS and CAUSE and nothing else. -/
def Obligations.WritesPerCommand : Prop :=
  ∀ (i : Instr) (s t : State), s.faulted = false → exec i s = .next t →
    if t.faulted = true then t = { s with faulted := true, status := 0xF, cause := t.cause }
    else t.cause = s.cause ∧ s.sameInputs t ∧
      match i with
      | .fmtFloat _ _ _ | .writeFixed _ _ _ =>
        t.result = s.result ∧ t.result2 = s.result2 ∧
        ((t.status = 0x1 ∧
            ∀ a, a < s.first.toNat ∨ t.cursor.toNat ≤ a → t.mem.read a = s.mem.read a) ∨
          (t.status = 0x2 ∧ s.sameMemory t))
      | .parseInt _ _ _ =>
        t.result2 = s.result2 ∧ t.mem = s.mem ∧
        (t.status = 0x1 ∨ ((t.status = 0x3 ∨ t.status = 0x4) ∧ t.result = s.result))
      | .classifyFloat _ => t.status = 0x1 ∧ t.cursor = s.cursor ∧ t.mem = s.mem
      | .classifyDigit => t.status = 0x1 ∧ t.cursor = s.cursor ∧ t.result2 = s.result2 ∧ t.mem = s.mem

/-- 10_state.md R29: the commands that use the span write CURSOR on every outcome but a fault (the result does not
depend on the CURSOR before), inside [FIRST, LAST]; the classify commands never write it. -/
def Obligations.CursorStaysInSpan : Prop :=
  ∀ (i : Instr) (s t : State), s.faulted = false → exec i s = .next t → t.faulted = false →
    if usesSpan i = true then
      s.first.toNat ≤ t.cursor.toNat ∧ t.cursor.toNat ≤ s.last.toNat ∧
      ∀ c : Addr, exec i { s with cursor := c } = .next t
    else t.cursor = s.cursor

/-- 30_encoding.md R92: a register a command does not list is not read by it, nor a bit of A above the operand's width
(10_state.md R25). Whatever the eleven registers hold that the command does not list, it writes the same registers with
the same values and the same memory, and leaves the others as they are. -/
def Obligations.CommandsReadOnlyTheirOperands : Prop :=
  ∀ (i : Instr) (s s' t : State),
    s'.mem = s.mem → s'.windows = s.windows → s'.regions = s.regions →
    (usesSpan i = true → s'.first = s.first ∧ s'.last = s.last) →
    (match i with
      | .fmtFloat lay _ pv =>
        s'.a.toNat % 2 ^ (layoutRow lay).width = s.a.toNat % 2 ^ (layoutRow lay).width ∧
          (pv = true → s'.prec = s.prec)
      | .parseInt _ _ _ => True
      | .classifyFloat lay => s'.a.toNat % 2 ^ (layoutRow lay).width = s.a.toNat % 2 ^ (layoutRow lay).width
      | .classifyDigit => s'.a.toNat % 2 ^ 8 = s.a.toNat % 2 ^ 8
      | .writeFixed _ _ pv => s'.a = s.a ∧ s'.exp = s.exp ∧ (pv = true → s'.prec = s.prec)) →
    exec i s = .next t →
    exec i s' = .next { s' with
      status := t.status
      mem := t.mem
      faulted := if t.status = 0xF then true else s'.faulted
      cause := if t.status = 0xF then t.cause else s'.cause
      cursor := if usesSpan i = true ∧ t.status ≠ 0xF then t.cursor else s'.cursor
      result := match i with
        | .parseInt _ _ _ => if t.status = 0x1 then t.result else s'.result
        | .classifyFloat _ => t.result
        | .classifyDigit => t.result
        | .fmtFloat _ _ _ => s'.result
        | .writeFixed _ _ _ => s'.result
      result2 := match i with
        | .classifyFloat _ => t.result2
        | .parseInt _ _ _ => s'.result2
        | .classifyDigit => s'.result2
        | .fmtFloat _ _ _ => s'.result2
        | .writeFixed _ _ _ => s'.result2 }

/-! ### Spans -/

/-- 20_memory.md R61: a well-formed command that uses the span takes BAD_SPAN when it is inverted, and reads and writes
no memory. -/
def Obligations.InvertedSpanTakesBadSpan : Prop :=
  ∀ (i : Instr) (s : State), usesSpan i = true → i.wellFormed = true → s.last.toNat < s.first.toNat →
    exec i s = .next { s with faulted := true, status := 0xF, cause := 3 }

/-- Derived from 20_memory.md R77 (an inference of the spec): a span of size 0 is valid; a writer ends in
VALUE_TOO_LARGE with CURSOR = LAST = FIRST, since every text has a byte, and PARSE_INT in INVALID_ARGUMENT. -/
def Obligations.EmptySpanHoldsNoText : Prop :=
  ∀ (i : Instr) (s : State), usesSpan i = true → i.wellFormed = true → s.first = s.last →
    exec i s = .next { s with cursor := s.first, status := match i with | .parseInt _ _ _ => 0x3 | _ => 0x2 }

/-- Derived from 20_memory.md R68 and R72: a well-formed command on a span with an address in a region with side
effects is refused by the model, and one with an address in a contended region too (the regions are the model's, log
8). Where regions of both kinds are met the refusal names side effects, and only there (log 18). -/
def Obligations.SpansOverRegionsAreRefused : Prop :=
  ∀ (i : Instr) (s : State) (r : Region) (a : Nat), usesSpan i = true → i.wellFormed = true →
    r ∈ s.regions → s.first.toNat ≤ a → a < s.last.toNat → r.base ≤ a → a < r.base + r.size →
    match r.kind with
    | .sideEffects => exec i s = .refused .spanSideEffects
    | .contended =>
      (s.meetsSideEffects s.first.toNat s.last.toNat → exec i s = .refused .spanSideEffects) ∧
      (¬ s.meetsSideEffects s.first.toNat s.last.toNat → exec i s = .refused .spanContended)

/-! ### CLASSIFY_DIGIT and CLASSIFY_FLOAT -/

/-- Derived from 40_digit_classifier.md R110 and R112: CLASSIFY_DIGIT always completes with the digit value of A[7:0],
read off as a number. -/
def Obligations.ClassifyDigitResult : Prop :=
  ∀ s : State, exec .classifyDigit s = .next { s with
    status := 0x1
    result := BitVec.ofNat 128 (
      if 0x30 ≤ s.a.toNat % 2 ^ 8 ∧ s.a.toNat % 2 ^ 8 ≤ 0x39 then s.a.toNat % 2 ^ 8 - 0x30
      else if 0x41 ≤ s.a.toNat % 2 ^ 8 ∧ s.a.toNat % 2 ^ 8 ≤ 0x5A then s.a.toNat % 2 ^ 8 - 0x41 + 10
      else if 0x61 ≤ s.a.toNat % 2 ^ 8 ∧ s.a.toNat % 2 ^ 8 ≤ 0x7A then s.a.toNat % 2 ^ 8 - 0x61 + 10
      else 0xFF) }

/-- Derived from 40_digit_classifier.md R114 (an inference of the spec): every letter has one value in both cases, and
the two cases spell one numeral. -/
def Obligations.LettersAreCaseInsensitive : Prop :=
  (∀ c : Byte, 0x41 ≤ c.toNat → c.toNat ≤ 0x5A → digitTable c = digitTable (c + 0x20)) ∧
  numeralValue 16 [0x46, 0x46] = numeralValue 16 [0x66, 0x66] ∧
  numeralValue 16 [0x66, 0x46] = numeralValue 16 [0x66, 0x66]

/-- Derived from 42_float_layout.md R150 to R152, R157 and R158: CLASSIFY_FLOAT always completes with the fields and
the class of A, read off as numbers with the columns of the layout table. -/
def Obligations.ClassifyFloatResult : Prop :=
  ∀ (l : Layout) (s : State) (e f sg j c : Nat),
    e = s.a.toNat / 2 ^ (layoutRow l).expLo % 2 ^ (layoutRow l).expWidth →
    f = s.a.toNat % 2 ^ (layoutRow l).fracWidth →
    sg = s.a.toNat / 2 ^ (layoutRow l).signBit % 2 →
    j = (if l = .b80 then s.a.toNat / 2 ^ 63 % 2 else if e = 0 then 0 else 1) →
    c = (if e = 0 then (if j = 0 ∧ f = 0 then 0 else 2)
      else if e = (layoutRow l).emax then
        (if f = 0 then 3 else if s.a.toNat / 2 ^ (layoutRow l).quietBit % 2 = 1 then 4 else 5)
      else 1) →
    exec (.classifyFloat l) s = .next { s with
      status := 0x1
      result := BitVec.ofNat 128 (c + 8 * sg + 16 * e + 2 ^ 19 * j)
      result2 := BitVec.ofNat 128 f }

/-! ### PARSE_INT -/

/-- Derived from 30_encoding.md R90, R91, R94: PARSE_INT takes BAD_FIELD for WID 5 to 7 and, with a legal WID, BAD_BASE
for a BASE outside 2 to 36, whatever the span. -/
def Obligations.ParseIntFieldFaults : Prop :=
  ∀ (wid : BitVec 3) (sgn : Bool) (base : BitVec 6) (s : State),
    (4 < wid.toNat →
      exec (.parseInt wid sgn base) s = .next { s with faulted := true, status := 0xF, cause := 2 }) ∧
    (wid.toNat ≤ 4 → base.toNat < 2 ∨ 36 < base.toNat →
      exec (.parseInt wid sgn base) s = .next { s with faulted := true, status := 0xF, cause := 4 })

/-- Derived from 41_integer_decoder.md R122 to R128 and R131: on a span that holds an optional sign (of a signed type),
at least one digit in the base, and then LAST or a byte that is no digit, PARSE_INT completes: with OK and the value
when it is within the target type, with OUT_OF_RANGE and RESULT unchanged when not, CURSOR just past the last digit
either way. The value is the numeral's, as a number. -/
def Obligations.ParseIntDecodesNumeral : Prop :=
  ∀ (wid : BitVec 3) (sgn : Bool) (base : BitVec 6) (s : State) (sign ds tail : List Byte) (width v lim : Nat),
    wid.toNat ≤ 4 → 2 ≤ base.toNat → base.toNat ≤ 36 → s.spanReady →
    s.spanBytes = sign ++ ds ++ tail →
    sign = [] ∨ (sgn = true ∧ (sign = [0x2D] ∨ sign = [0x2B])) →
    ds ≠ [] → (∀ c ∈ ds, digitValue c < base.toNat) → (∀ c ∈ tail.head?, base.toNat ≤ digitValue c) →
    width = 8 * 2 ^ wid.toNat → v = numeralValue base.toNat ds →
    lim = (if sgn = false then 2 ^ width - 1
      else if sign = [0x2D] then 2 ^ (width - 1) else 2 ^ (width - 1) - 1) →
    exec (.parseInt wid sgn base) s = .next (
      if v ≤ lim then { s with
        status := 0x1
        cursor := BitVec.ofNat 64 (s.first.toNat + sign.length + ds.length)
        result := BitVec.ofInt 128 (if sign = [0x2D] then -(v : Int) else (v : Int)) }
      else { s with
        status := 0x4
        cursor := BitVec.ofNat 64 (s.first.toNat + sign.length + ds.length) })

/-- 41_integer_decoder.md R126 (with the empty span of R121 and the bare sign of R122): where no digit follows the
sign, PARSE_INT completes with INVALID_ARGUMENT, CURSOR = FIRST and RESULT unchanged. -/
def Obligations.ParseIntWithoutDigits : Prop :=
  ∀ (wid : BitVec 3) (sgn : Bool) (base : BitVec 6) (s : State) (sign tail : List Byte),
    wid.toNat ≤ 4 → 2 ≤ base.toNat → base.toNat ≤ 36 → s.spanReady →
    s.spanBytes = sign ++ tail →
    sign = [] ∨ (sgn = true ∧ (sign = [0x2D] ∨ sign = [0x2B])) →
    (∀ c ∈ tail.head?, base.toNat ≤ digitValue c ∧ (sgn = true → sign = [] → c ≠ 0x2D ∧ c ≠ 0x2B)) →
    exec (.parseInt wid sgn base) s = .next { s with status := 0x3, cursor := s.first }

/-- Derived from 41_integer_decoder.md R134 (an inference of the spec): for every target type, base and value of its
range, PARSE_INT on the value's numeral (no leading zeros, letters of either case) gives OK, the value and CURSOR =
LAST. -/
def Obligations.ParseIntRoundTrip : Prop :=
  ∀ (wid : BitVec 3) (sgn : Bool) (base : BitVec 6) (s : State) (v : Int) (ds : List Byte) (width : Nat),
    wid.toNat ≤ 4 → 2 ≤ base.toNat → base.toNat ≤ 36 → s.spanReady →
    width = 8 * 2 ^ wid.toNat →
    (if sgn = true then -(2 : Int) ^ (width - 1) ≤ v ∧ v < (2 : Int) ^ (width - 1)
      else 0 ≤ v ∧ v < (2 : Int) ^ width) →
    ds.map digitValue = (if v = 0 then [0] else (Nat.digits base.toNat v.natAbs).reverse) →
    s.spanBytes = (if v < 0 then [0x2D] else []) ++ ds →
    exec (.parseInt wid sgn base) s = .next { s with
      status := 0x1
      cursor := s.last
      result := BitVec.ofInt 128 v }

/-- Derived from 41_integer_decoder.md R125: the accumulator never exceeds lim, so overflow is detected before it could
happen. -/
def Obligations.AccumulatorStaysWithinLimit : Prop :=
  ∀ (m : Memory) (lim b n : Nat) (w : Scan), w.acc ≤ lim → (scanDigits m lim b n w).acc ≤ lim

/-- Derived from 20_memory.md R62, 40_digit_classifier.md R114 and 41_integer_decoder.md R135: PARSE_INT's outcome
depends only on the bytes of the span, and on these only through their digit values and whether they are a sign. -/
def Obligations.ParseIntReadsOnlySpanDigits : Prop :=
  ∀ (wid : BitVec 3) (sgn : Bool) (base : BitVec 6) (s t : State) (m : Memory),
    (∀ a, s.first.toNat ≤ a → a < s.last.toNat →
      digitValue (m.read a) = digitValue (s.mem.read a) ∧
      (m.read a = 0x2D ↔ s.mem.read a = 0x2D) ∧ (m.read a = 0x2B ↔ s.mem.read a = 0x2B)) →
    exec (.parseInt wid sgn base) s = .next t →
    exec (.parseInt wid sgn base) { s with mem := m } = .next { t with mem := m }

/-! ### WRITE_FIXED and the fixed writer -/

/-- Derived from 45_fixed_writer.md R225 and 20_memory.md R63: on a span that is a place for it, WRITE_FIXED completes
with the writer's text of (uint(A), sint(EXP), NEG), precision uint(PREC) when PV = 1, written whole or not at all. -/
def Obligations.WriteFixedWritesItsText : Prop :=
  ∀ (neg gen pv : Bool) (s : State), s.spanReady →
    ∃ t, exec (.writeFixed neg gen pv) s = .next t ∧
      s.wroteSpan t (textBytes (fixedText { sig := s.a.toNat, ex := s.exp.toInt, neg := neg } pv
        (if pv = true then s.prec.toNat else 0) gen))

/-- Derived from 45_fixed_writer.md R223 (an inference of the spec): the text denotes the decomposition exactly when
there is no precision or fewer than P + 2 digits, and else the significand rounded half-up to P + 1 significant digits,
the sign applied afterwards. -/
def Obligations.FixedTextDenotesItsValue : Prop :=
  ∀ (d : Decomp) (pv : Bool) (p k : Nat) (gen : Bool), k = ndigits d.sig - (p + 1) →
    decimalValue (textBytes (fixedText d pv p gen)) =
      (if d.neg = true then -1 else 1) *
      (if pv = true ∧ p + 2 ≤ ndigits d.sig then
        (((2 * d.sig + 10 ^ k) / (2 * 10 ^ k) : Nat) : ℚ) * (10 : ℚ) ^ (d.ex + (k : Int))
      else (d.sig : ℚ) * (10 : ℚ) ^ d.ex)

/-- Derived from 45_fixed_writer.md R218 (an inference of the spec) and R219: WRITE_FIXED on a span that is a place for
it fails with VALUE_TOO_LARGE exactly when FixedLen of the adjusted decomposition is larger than the span, and then
writes no byte. -/
def Obligations.FixedLengthDecidesTheOutcome : Prop :=
  ∀ (neg gen pv : Bool) (s : State) (d : Decomp) (n body : Int), s.spanReady →
    d = adjustDecomp pv (if pv = true then s.prec.toNat else 0) gen
      { sig := s.a.toNat, ex := s.exp.toInt, neg := neg } →
    n = (ndigits d.sig : Int) →
    body = (if d.sig = 0 then 1 else if 0 ≤ d.ex then n + d.ex
      else if 0 < n + d.ex then n + 1 else 2 + (-d.ex - n) + n) →
    ∃ t, exec (.writeFixed neg gen pv) s = .next t ∧
      if (if d.neg = true then 1 else 0) + body > (s.last.toNat : Int) - (s.first.toNat : Int) then
        t.status = 0x2 ∧ t.cursor = s.last ∧ s.sameMemory t
      else t.status = 0x1 ∧
        (t.cursor.toNat : Int) = (s.first.toNat : Int) + ((if d.neg = true then 1 else 0) + body)

/-- 45_fixed_writer.md R217: the text is an optional "-", decimal digits and at most one ".". -/
def Obligations.FixedTextIsPlainDecimal : Prop :=
  ∀ (d : Decomp) (pv : Bool) (p : Nat) (gen : Bool),
    ∃ sign body, textBytes (fixedText d pv p gen) = sign ++ body ∧ (sign = [] ∨ sign = [0x2D]) ∧
      (∀ c ∈ body, (0x30 ≤ c.toNat ∧ c.toNat ≤ 0x39) ∨ c = 0x2E) ∧ body.count 0x2E ≤ 1

/-- 45_fixed_writer.md R214: with a precision, the general-mode strip takes the trailing zeros off the rounded
significand and keeps its value and sign; without one there is no strip, whatever GEN is. -/
def Obligations.GeneralStripKeepsTheValue : Prop :=
  ∀ (d : Decomp) (p : Nat),
    decompValue (adjustDecomp true p true d) = decompValue (adjustDecomp true p false d) ∧
    (adjustDecomp true p true d).neg = d.neg ∧
    ((adjustDecomp true p true d).sig = 0 ∨ (adjustDecomp true p true d).sig % 10 ≠ 0) ∧
    ∀ gen, adjustDecomp false p gen d = d

/-- Derived from 00_scope.md section 5 (dec and ndigits): dec(n) is the decimal digits of n, most significant first,
without leading zeros, and "0" for 0. -/
def Obligations.DecWritesDecimalDigits : Prop :=
  ∀ n : Nat, dec n = (if n = 0 then [0x30]
    else (Nat.digits 10 n).reverse.map fun d => BitVec.ofNat 8 (0x30 + d)) ∧ ndigits n = (dec n).length

/-! ### FMT_FLOAT -/

/-- Derived from 46_dispatcher.md R242, R250 and 20_memory.md R63: on a span that is a place for it, FMT_FLOAT
completes with the text of its route, written whole or not at all. -/
def Obligations.FmtFloatWritesItsText : Prop :=
  ∀ (l : Layout) (f : Fmt) (pv : Bool) (s : State), s.spanReady →
    ∃ t, exec (.fmtFloat l f pv) s = .next t ∧
      s.wroteSpan t (textBytes (floatText s.windows l (BitVec.ofNat 128 (s.a.toNat % 2 ^ (layoutRow l).width)) f pv
        (if pv = true then s.prec else 0)))

/-- 46_dispatcher.md R248: the eight routes, each with the condition under which it is the first that applies; the
plain integer of row 6 under a WINDOW_CONFIG that meets the constraint of 10_state.md R36. -/
def Obligations.FloatTextRoutes : Prop :=
  ∀ (w : WindowConfig) (l : Layout) (x : Quad) (f : Fmt) (df : DecFmt) (pv : Bool) (p : Word) (c : FloatClass)
    (sg : Bool), c = classifyFloat l x → sg = (extractFloat l x).sign →
    ((c = .infinite ∨ c = .quietNaN ∨ c = .signalingNaN) → textBytes (floatText w l x f pv p) = nfToken c sg) ∧
    (c = .zero → textBytes (floatText w l x .hex pv p) =
      (if sg = true then [0x2D] else []) ++ [0x30, 0x70, 0x2B, 0x30]) ∧
    (c = .normal ∨ c = .subnormal → floatText w l x .hex pv p = hexText l x pv p.toNat) ∧
    (nonFinite c = false → floatText w l x .scientific false p = oracleShortest l x .scientific) ∧
    (nonFinite c = false → (f, df) = (.fixed, .fixed) ∨ (f, df) = (.general, .general) →
      (inFixedWindow w l x = true →
        floatText w l x f false p = fixedText (oracleDecomp l x) false 0 (df = .general)) ∧
      (windowLegal w l = true → inFixedWindow w l x = false → inIntWindow w l x = true →
        textBytes (floatText w l x f false p) = (if sg = true then [0x2D] else []) ++ dec (magInt l x)) ∧
      (inFixedWindow w l x = false → inIntWindow w l x = false →
        floatText w l x f false p = oracleShortest l x df)) ∧
    (nonFinite c = false →
      (f, df) = (.fixed, .fixed) ∨ (f, df) = (.scientific, .scientific) ∨ (f, df) = (.general, .general) →
      (df = .general ∧ inFixedWindow w l x = true →
        floatText w l x f true p = oraclePrec l x .fixed (Config.adjPrec p (!magAtLeast l x 1) true)) ∧
      (¬ (df = .general ∧ inFixedWindow w l x = true) →
        floatText w l x f true p = oraclePrec l x df (Config.adjPrec p (!magAtLeast l x 1) false)))

/-- 46_dispatcher.md R243 and R244: the window tests are the comparisons of exact rationals. -/
def Obligations.WindowTestsAreExact : Prop :=
  ∀ (w : WindowConfig) (l : Layout) (x : Quad),
    (inFixedWindow w l x = true ↔ (classifyFloat l x = .normal ∨ classifyFloat l x = .subnormal) ∧
      1 ≤ floatMag l x ∧ floatMag l x < ((windowOf w l).maxFrac : ℚ)) ∧
    (inIntWindow w l x = true ↔ (classifyFloat l x = .normal ∨ classifyFloat l x = .subnormal) ∧
      ((windowOf w l).maxFrac : ℚ) ≤ floatMag l x ∧ floatMag l x < ((windowOf w l).maxInt : ℚ))

/-- Derived from 46_dispatcher.md R246 (an inference of the spec): under the constraint of 10_state.md R36 a value in
the integer window is an integer below MAX_INT(L), so its decimal digits, at most ndigits(MAX_INT(L) - 1) of them (10,
20, 20 and 39 with the defaults), denote it exactly. -/
def Obligations.IntegerWindowIsIntegral : Prop :=
  (∀ (w : WindowConfig) (l : Layout) (x : Quad), windowLegal w l = true → inIntWindow w l x = true →
    (magInt l x : ℚ) = floatMag l x ∧ magInt l x < (windowOf w l).maxInt ∧
    ndigits (magInt l x) ≤ ndigits ((windowOf w l).maxInt - 1) ∧
    decimalValue (textBytes (plainIntText l x)) = floatVal l x) ∧
  ndigits (defaultWindows.b32.maxInt - 1) = 10 ∧ ndigits (defaultWindows.b64.maxInt - 1) = 20 ∧
  ndigits (defaultWindows.b80.maxInt - 1) = 20 ∧ ndigits (defaultWindows.b128.maxInt - 1) = 39

/-- Derived from 46_dispatcher.md R248 rows 5 and 6 and 45_fixed_writer.md R214: without a precision, General and Fixed
coincide in both windows. -/
def Obligations.GeneralIsFixedInWindows : Prop :=
  ∀ (l : Layout) (s : State),
    inFixedWindow s.windows l (s.floatOperand l) = true ∨ inIntWindow s.windows l (s.floatOperand l) = true →
    exec (.fmtFloat l .general false) s = exec (.fmtFloat l .fixed false) s

/-- Derived from 46_dispatcher.md R253 (an inference of the spec): FMT_FLOAT's result depends only on the command, A,
PREC when PV = 1, FIRST, LAST and WINDOW_CONFIG: two states that agree on these give the same STATUS, CURSOR and text,
whatever else they hold. -/
def Obligations.FmtFloatDependsOnlyOnOperands : Prop :=
  ∀ (l : Layout) (f : Fmt) (pv : Bool) (s s' : State), s.spanReady → s'.spanReady →
    s'.a = s.a → (pv = true → s'.prec = s.prec) → s'.first = s.first → s'.last = s.last → s'.windows = s.windows →
    ∃ t t', exec (.fmtFloat l f pv) s = .next t ∧ exec (.fmtFloat l f pv) s' = .next t' ∧
      t'.status = t.status ∧ t'.cursor = t.cursor ∧
      (t.status = 0x1 → t'.mem.readBytes s.first.toNat (t.cursor.toNat - s.first.toNat) =
        t.mem.readBytes s.first.toNat (t.cursor.toNat - s.first.toNat))

/-- Derived from 46_dispatcher.md R252: under Hex a zero of either sign, in every layout, with or without a precision,
is the literal "0p+0" or "-0p+0". A is read off as a number: all bits of the operand below the sign are 0. -/
def Obligations.HexZeroLiteral : Prop :=
  ∀ (l : Layout) (pv : Bool) (s : State), s.spanReady → s.a.toNat % 2 ^ ((layoutRow l).width - 1) = 0 →
    ∃ t, exec (.fmtFloat l .hex pv) s = .next t ∧
      s.wroteSpan t ((if s.a.toNat / 2 ^ ((layoutRow l).width - 1) % 2 = 1 then [0x2D] else [])
        ++ [0x30, 0x70, 0x2B, 0x30])

/-- Derived from 43_nonfinite_writer.md R171 to R173 and 46_dispatcher.md R251: a non-finite operand is written as its
one token in every format, with or without a precision. A is read off as a number. -/
def Obligations.NonFiniteTokens : Prop :=
  ∀ (l : Layout) (f : Fmt) (pv : Bool) (s : State) (sg : Bool) (frac : Nat), s.spanReady →
    s.a.toNat / 2 ^ (layoutRow l).expLo % 2 ^ (layoutRow l).expWidth = (layoutRow l).emax →
    (sg = true ↔ s.a.toNat / 2 ^ ((layoutRow l).width - 1) % 2 = 1) →
    frac = s.a.toNat % 2 ^ (layoutRow l).fracWidth →
    ∃ t, exec (.fmtFloat l f pv) s = .next t ∧ s.wroteSpan t (
      if frac = 0 then (if sg = true then [0x2D, 0x69, 0x6E, 0x66] else [0x69, 0x6E, 0x66])
      else if frac / 2 ^ ((layoutRow l).fracWidth - 1) = 1 then
        (if sg = true then [0x2D, 0x6E, 0x61, 0x6E, 0x28, 0x69, 0x6E, 0x64, 0x29] else [0x6E, 0x61, 0x6E])
      else (if sg = true then [0x2D, 0x6E, 0x61, 0x6E, 0x28, 0x73, 0x6E, 0x61, 0x6E, 0x29]
        else [0x6E, 0x61, 0x6E, 0x28, 0x73, 0x6E, 0x61, 0x6E, 0x29]))

/-! ### The hex writer -/

/-- Derived from 44_hex_writer.md R191 (an inference of the spec): without a precision, or with P ≥ N, the text denotes
val(L, x) exactly; with P < N it denotes the value rounded to P fractional hex digits, ties to even. -/
def Obligations.HexTextDenotesItsValue : Prop :=
  ∀ (l : Layout) (x : Quad) (pv : Bool) (p : Nat) (unit : ℚ),
    unit = (2 : ℚ) ^ unbiased l x / (16 : ℚ) ^ p →
    (pv = false ∨ (layoutRow l).nhex ≤ p → hexValue (textBytes (hexText l x pv p)) = floatVal l x) ∧
    (pv = true → p < (layoutRow l).nhex →
      ∃ k : Nat, hexValue (textBytes (hexText l x pv p)) =
          (if (extractFloat l x).sign = true then -1 else 1) * ((k : ℚ) * unit) ∧
        |(k : ℚ) * unit - floatMag l x| ≤ unit / 2 ∧
        (|(k : ℚ) * unit - floatMag l x| = unit / 2 → k % 2 = 0))

/-- Derived from 44_hex_writer.md R186 (an inference of the spec): the leading digit is the integer bit, or one more
with a fraction of zeros when rounding carries, so always 0, 1 or 2, and the exponent written is that of R184 in every
case. -/
def Obligations.HexCarryGoesToTheLeadingDigit : Prop :=
  ∀ (l : Layout) (x : Quad) (pv : Bool) (p : Nat) (h : HexParts), h = hexParts l x pv p →
    h.lead ≤ 2 ∧
    (h.lead = (extractFloat l x).intBit.toNat ∨
      (h.lead = (extractFloat l x).intBit.toNat + 1 ∧ h.frac = 0 ∧ pv = true ∧ p < (layoutRow l).nhex)) ∧
    ∃ front, textBytes (hexText l x pv p) = front ++ textBytes (hexExponentText
      (((max (extractFloat l x).exponent 1 : Nat) : Int) - ((layoutRow l).bias : Int)))

/-- Derived from 44_hex_writer.md R187 and R188: without a precision the native digits are kept but for their trailing
zeros; with P ≥ N they are all kept and P - N zeros follow; with any precision there are exactly P digits. -/
def Obligations.HexDigitsAreStrippedOrPadded : Prop :=
  ∀ (l : Layout) (x : Quad) (p : Nat) (h g : HexParts),
    h = hexParts l x false p → g = hexParts l x true p →
    (h.zeros = 0 ∧ h.count ≤ (layoutRow l).nhex ∧
      h.frac * 16 ^ ((layoutRow l).nhex - h.count) = hexFraction l x ∧ (h.count = 0 ∨ h.frac % 16 ≠ 0)) ∧
    g.count + g.zeros = p ∧
    ((layoutRow l).nhex ≤ p →
      g.count = (layoutRow l).nhex ∧ g.frac = hexFraction l x ∧ g.lead = (extractFloat l x).intBit.toNat)

/-- 44_hex_writer.md R189: FMT_FLOAT under Hex of a Normal or Subnormal operand succeeds exactly when the length,
counted with the digits after rounding and strip, fits the span, and else writes no byte. -/
def Obligations.HexLengthDecidesTheOutcome : Prop :=
  ∀ (l : Layout) (pv : Bool) (s : State) (x : Quad) (nf len : Nat), s.spanReady →
    x = s.floatOperand l → classifyFloat l x = .normal ∨ classifyFloat l x = .subnormal →
    nf = (hexParts l x pv s.prec.toNat).count + (hexParts l x pv s.prec.toNat).zeros →
    len = (extractFloat l x).sign.toNat + 1 + (if 0 < nf then 1 + nf else 0) + 1 + 1
      + ndigits (unbiased l x).natAbs →
    ∃ t, exec (.fmtFloat l .hex pv) s = .next t ∧
      if len ≤ s.last.toNat - s.first.toNat then
        t.status = 0x1 ∧ t.cursor.toNat = s.first.toNat + len
      else t.status = 0x2 ∧ t.cursor = s.last ∧ s.sameMemory t

/-! ### The oracle port, and two commands in a row -/

/-- Derived from 46_dispatcher.md R240, whose answers the model builds so (log 6): ORACLE_DECOMP's answer has the sign
of x, a positive significand and no trailing zero, every oracle text is a non-empty sequence of ASCII bytes, and
ORACLE_PREC's is in representation f (what a text says is log 23). -/
def Obligations.OracleAnswersHaveRequiredForm : Prop :=
  ∀ (l : Layout) (x : Quad) (f : DecFmt) (q : Nat),
    (oracleDecomp l x).neg = (extractFloat l x).sign ∧ 0 < (oracleDecomp l x).sig ∧
    (oracleDecomp l x).sig % 10 ≠ 0 ∧
    0 < textLength (oracleShortest l x f) ∧ (∀ c ∈ textBytes (oracleShortest l x f), c.toNat < 128) ∧
    0 < textLength (oraclePrec l x f q) ∧ (∀ c ∈ textBytes (oraclePrec l x f q), c.toNat < 128) ∧
    textInRepresentation f (textBytes (oraclePrec l x f q))

/-- Derived from 46_dispatcher.md R240, R248 row 5 and 45_fixed_writer.md R223: if a decomposition meets the oracle's
contract for x, the text the fixed writer makes of it without a precision parses back to x, by value (the model's
choice, log 22: a B80 pattern that no parser returns is parsed back to by what rounds to its value). -/
def Obligations.ContractTextParsesBack : Prop :=
  ∀ (l : Layout) (x : Quad) (d : Decomp) (p : Nat) (gen : Bool), decompContract l x d →
    parsesBack l (decimalValue (textBytes (fixedText d false p gen))) x

/-- Derived from 46_dispatcher.md R247, R248 row 6 and 41_integer_decoder.md R128, R131: a value of the integer window
that FMT_FLOAT writes into a large enough span is read back exactly by PARSE_INT in base 10 when the host sets LAST to
CURSOR: a positive one as an unsigned 128-bit integer, a negative one of magnitude at most 2^127 as a signed one. -/
def Obligations.FormatThenParseGivesTheValue : Prop :=
  ∀ (l : Layout) (f : Fmt) (s : State) (sg : Bool), f = .fixed ∨ f = .general → s.spanReady →
    s.windows = defaultWindows → inIntWindow s.windows l (s.floatOperand l) = true →
    sg = (extractFloat l (s.floatOperand l)).sign → (sg = true → floatMag l (s.floatOperand l) ≤ 2 ^ 127) →
    39 + sg.toNat ≤ s.last.toNat - s.first.toNat →
    ∃ t u, exec (.fmtFloat l f false) s = .next t ∧ t.status = 0x1 ∧
      exec (.parseInt 4 sg 10) { t with last := t.cursor } = .next u ∧
      u.status = 0x1 ∧ u.cursor = t.cursor ∧
      (((if sg = true then u.result.toInt else (u.result.toNat : Int)) : Int) : ℚ) = floatVal l (s.floatOperand l)

/-! ### The layout table, and the oracle's contract -/

/-- 42_float_layout.md R150: LAYOUT_CONSTANTS, every column of every row. -/
def Obligations.LayoutTableHoldsTheSpecValues : Prop :=
  layoutRow .b32 = {
    width := 32, signBit := 31, expLo := 23, expWidth := 8, intBit := none, fracWidth := 23
    bias := 127, emax := 0xFF, precision := 24, quietBit := 22, nhex := 6 } ∧
  layoutRow .b64 = {
    width := 64, signBit := 63, expLo := 52, expWidth := 11, intBit := none, fracWidth := 52
    bias := 1023, emax := 0x7FF, precision := 53, quietBit := 51, nhex := 13 } ∧
  layoutRow .b80 = {
    width := 80, signBit := 79, expLo := 64, expWidth := 15, intBit := some 63, fracWidth := 63
    bias := 16383, emax := 0x7FFF, precision := 64, quietBit := 62, nhex := 16 } ∧
  layoutRow .b128 = {
    width := 128, signBit := 127, expLo := 112, expWidth := 15, intBit := none, fracWidth := 112
    bias := 16383, emax := 0x7FFF, precision := 113, quietBit := 111, nhex := 28 }

/-- Derived from 46_dispatcher.md R240: ORACLE_DECOMP meets its contract on every value it is called for: the sign of
x, a positive significand without trailing zero, and the shortest decimal that parses back to x, by value (log 6, log
22). -/
def Obligations.OracleDecompMeetsItsContract : Prop :=
  ∀ (l : Layout) (x : Quad), classifyFloat l x = .normal ∨ classifyFloat l x = .subnormal → 1 ≤ floatMag l x →
    decompContract l x (oracleDecomp l x)

/-- Derived from 46_dispatcher.md R240: ORACLE_SHORTEST's text, for every representation and every finite x, is in that
representation (no exponent under Fixed, one under Scientific) and denotes a decimal that parses back to x, by value
(log 6, log 22), and no decimal with fewer significant digits than the text has does; what a text says is log 23. -/
def Obligations.OracleShortestMeetsItsContract : Prop :=
  ∀ (l : Layout) (x : Quad) (f : DecFmt), nonFinite (classifyFloat l x) = false →
    textContract l x f (textBytes (oracleShortest l x f))

/-- Derived from 46_dispatcher.md R254 (an inference of the spec): the vectors through ORACLE_DECOMP, with the
decomposition the oracle must return, since the shortest decimal is unique there, and the text FMT_FLOAT makes of it.
-/
def Obligations.OracleDecompVectors : Prop :=
  ∀ p : Word,
    oracleDecomp .b64 0x3FF8000000000000 = ⟨15, -1, false⟩ ∧
    textBytes (floatText defaultWindows .b64 0x3FF8000000000000 .fixed false p) = [0x31, 0x2E, 0x35] ∧
    oracleDecomp .b64 0x4059000000000000 = ⟨1, 2, false⟩ ∧
    textBytes (floatText defaultWindows .b64 0x4059000000000000 .general false p) = [0x31, 0x30, 0x30] ∧
    oracleDecomp .b64 0xBFF0000000000000 = ⟨1, 0, true⟩ ∧
    textBytes (floatText defaultWindows .b64 0xBFF0000000000000 .fixed false p) = [0x2D, 0x31] ∧
    oracleDecomp .b32 0x3FC00000 = ⟨15, -1, false⟩ ∧
    textBytes (floatText defaultWindows .b32 0x3FC00000 .general false p) = [0x31, 0x2E, 0x35]

/-- Derived from 46_dispatcher.md R240, R246 and R248 (95_test_vectors.md section 1.2): under General without a
precision the text of every finite x, whichever route it takes, denotes a decimal that parses back to x, by value (log
22, log 23). -/
def Obligations.GeneralTextParsesBack : Prop :=
  ∀ (w : WindowConfig) (l : Layout) (x : Quad) (p : Word), windowLegal w l = true →
    nonFinite (classifyFloat l x) = false →
    ∃ r, readText (textBytes (floatText w l x .general false p)) = some r ∧ parsesBack l (decompValue r.value) x
end

