-- ==== Sys2Proof/Laws/Text.lean ====
section
/-! SUPPORT. The laws of texts and digits. -/

namespace Sys2Proof.Machine

@[simp] theorem pieceBytes_length (p : Piece) : (pieceBytes p).length = pieceLength p := by
  cases p <;> simp [pieceBytes, pieceLength]

/-- |T| is the number of bytes of T (00_scope.md R14). -/
@[simp] theorem textBytes_length (t : Text) : (textBytes t).length = textLength t := by
  induction t with
  | nil => rfl
  | cons p ps ih => simp [textBytes, textLength, ih]

@[simp] theorem textBytes_append (t u : Text) : textBytes (t ++ u) = textBytes t ++ textBytes u := by
  induction t with
  | nil => rfl
  | cons p ps ih => simp [textBytes, ih]

@[simp] theorem textLength_append (t u : Text) : textLength (t ++ u) = textLength t + textLength u := by
  induction t with
  | nil => simp [textLength]
  | cons p ps ih => simp [textLength, ih, Nat.add_assoc]

@[simp] theorem hexDigits_length (count v : Nat) : (hexDigits count v).length = count := by
  induction count generalizing v with
  | zero => rfl
  | succ n ih => simp [hexDigits, ih]

theorem decDigits_ne_nil (fuel n : Nat) : decDigits (fuel + 1) n ≠ [] := by
  unfold decDigits; split <;> simp

/-- Every number has a digit (00_scope.md R15). -/
theorem ndigits_pos (n : Nat) : 0 < ndigits n := by
  simpa [ndigits, dec, List.length_pos_iff] using decDigits_ne_nil (Nat.log2 n) n

/-- With enough fuel the digits do not depend on it (log 20). -/
theorem decDigits_fuel (fuel : Nat) : ∀ n, n < 10 ^ (fuel + 1) → ∀ k, decDigits (fuel + 1 + k) n = decDigits (fuel + 1) n := by
  induction fuel with
  | zero =>
    intro n h k
    have h10 : n < 10 := by simpa using h
    cases k <;> simp [decDigits, h10]
  | succ f ih =>
    intro n h k
    have e : f + 1 + 1 + k = (f + 1 + k) + 1 := by omega
    rw [e, decDigits, decDigits]
    by_cases h10 : n < 10
    · simp [h10]
    · have hlt : n / 10 < 10 ^ (f + 1) := by
        rw [Nat.div_lt_iff_lt_mul (by norm_num)]
        calc n < 10 ^ (f + 1 + 1) := h
          _ = 10 ^ (f + 1) * 10 := by rw [pow_succ]
      simp [h10, ih (n / 10) hlt k]

theorem decDigits_bounds (fuel : Nat) : ∀ n, n < 10 ^ (fuel + 1) →
    n < 10 ^ (decDigits (fuel + 1) n).length ∧ (0 < n → 10 ^ ((decDigits (fuel + 1) n).length - 1) ≤ n) := by
  induction fuel with
  | zero => intro n h; have : n < 10 := by simpa using h
            simp [decDigits, this]; omega
  | succ f ih =>
    intro n h
    rw [decDigits]
    split
    · next h10 => simp [h10]; omega
    · next h10 =>
      have hd : n / 10 < 10 ^ (f + 1) := by rw [Nat.div_lt_iff_lt_mul (by norm_num)]; rwa [pow_succ] at h
      obtain ⟨h1, h2⟩ := ih (n / 10) hd
      have hpos : 0 < (decDigits (f + 1) (n / 10)).length := List.length_pos_iff.2 (decDigits_ne_nil f (n / 10))
      set k := (decDigits (f + 1) (n / 10)).length with hk
      rw [List.length_append, ← hk, List.length_singleton]
      refine ⟨?_, fun _ => ?_⟩
      · rw [pow_succ]; omega
      · have h2' := h2 (by omega)
        have : 10 ^ (k + 1 - 1) = 10 ^ (k - 1) * 10 := by rw [← pow_succ]; congr 1; omega
        rw [this]; omega

/-- n has ndigits n decimal digits and no more (00_scope.md R15, R16). -/
theorem lt_ten_pow_ndigits (n : Nat) : n < 10 ^ ndigits n := by
  have h : n < 10 ^ (Nat.log2 n + 1) :=
    Nat.lt_log2_self.trans_le (Nat.pow_le_pow_left (by norm_num) _)
  simpa [ndigits, dec] using (decDigits_bounds _ n h).1

theorem ten_pow_ndigits_le {n : Nat} (hn : 0 < n) : 10 ^ (ndigits n - 1) ≤ n := by
  have h : n < 10 ^ (Nat.log2 n + 1) :=
    Nat.lt_log2_self.trans_le (Nat.pow_le_pow_left (by norm_num) _)
  simpa [ndigits, dec] using (decDigits_bounds _ n h).2 hn

end Sys2Proof.Machine
end

