-- ==== Sys2Proof/Laws/DecimalReader.lean ====
section
/-! SUPPORT. What the texts a decomposition is written as denote when they are read again (46_dispatcher.md R240,
log 23). -/

namespace Sys2Proof.Machine

/-! ### Digits -/

/-- A decimal digit as a byte. -/
def digitByte (d : Nat) : Byte := BitVec.ofNat 8 (0x30 + d)

theorem digitValue_digitByte : ∀ d, d < 10 → digitValue (digitByte d) = d := by decide +kernel

theorem dec_eq (n : Nat) : dec n = (decDigits (Nat.log2 n + 1) n).map digitByte := rfl

theorem decDigits_lt (fuel : Nat) : ∀ n, ∀ d ∈ decDigits fuel n, d < 10 := by
  induction fuel with
  | zero => intro n d h; simp [decDigits] at h
  | succ f ih =>
    intro n d h
    rw [decDigits] at h
    split at h
    · simp at h; omega
    · rw [List.mem_append, List.mem_singleton] at h
      rcases h with h | h
      · exact ih _ d h
      · omega

/-- Digits read after `acc` put their number after it. -/
theorem readDigits_digits (ds : List Nat) (rest : List Byte) (hr : ∀ c ∈ rest.head?, 10 ≤ digitValue c) :
    ∀ acc count, (∀ d ∈ ds, d < 10) → readDigits (ds.map digitByte ++ rest) acc count =
      (ds.foldl (fun a d => a * 10 + d) acc, count + ds.length, rest) := by
  induction ds with
  | nil =>
    intro acc count _
    cases rest with
    | nil => rfl
    | cons c cs =>
      have : ¬ digitValue c < 10 := by have := hr c (by simp); omega
      simp [readDigits, this]
  | cons d ds ih =>
    intro acc count h
    have hd : d < 10 := h d (by simp)
    simp only [List.map_cons, List.cons_append, readDigits, digitValue_digitByte d hd, hd, if_true, List.foldl_cons,
      List.length_cons]
    rw [ih _ _ fun e he => h e (by simp [he])]
    simp [Nat.add_comm, Nat.add_left_comm]

theorem foldl_decDigits (fuel : Nat) : ∀ n acc, n < 10 ^ (fuel + 1) →
    (decDigits (fuel + 1) n).foldl (fun a d => a * 10 + d) acc = acc * 10 ^ (decDigits (fuel + 1) n).length + n := by
  induction fuel with
  | zero => intro n acc h; have : n < 10 := by simpa using h
            simp [decDigits, this]
  | succ f ih =>
    intro n acc h
    rw [decDigits]
    split
    · simp
    · have hd : n / 10 < 10 ^ (f + 1) := by rw [Nat.div_lt_iff_lt_mul (by norm_num)]; rwa [pow_succ] at h
      rw [List.foldl_append, ih _ _ hd, List.length_append, List.length_singleton, pow_succ]
      simp only [List.foldl_cons, List.foldl_nil, add_mul, mul_assoc]
      omega

/-- The digits of n denote n. -/
theorem foldl_dec_digits (n acc : Nat) :
    (decDigits (Nat.log2 n + 1) n).foldl (fun a d => a * 10 + d) acc = acc * 10 ^ ndigits n + n := by
  rw [foldl_decDigits _ _ _ (Nat.lt_log2_self.trans_le (Nat.pow_le_pow_left (by norm_num) _))]
  simp [ndigits, dec]

theorem readDigits_dec (n : Nat) (rest : List Byte) (hr : ∀ c ∈ rest.head?, 10 ≤ digitValue c) (acc count : Nat) :
    readDigits (dec n ++ rest) acc count = (acc * 10 ^ ndigits n + n, count + ndigits n, rest) := by
  rw [dec_eq, readDigits_digits _ _ hr _ _ (decDigits_lt _ _), foldl_dec_digits]
  simp [ndigits, dec]

theorem readWhole_dec (n : Nat) : readWhole (dec n) = some n := by
  have h := readDigits_dec n [] (by simp) 0 0
  have hp := ndigits_pos n
  rw [List.append_nil] at h
  obtain ⟨k, hk⟩ := Nat.exists_eq_succ_of_ne_zero hp.ne'
  simp only [readWhole, h, zero_mul, zero_add, hk]

/-! ### Whole texts -/

/-- A text that starts with a digit, its sign put before it, is read as the unsigned text with that sign. -/
theorem readUsual_signed (neg : Bool) {ds : List Nat} (hne : ds ≠ []) (hds : ∀ d ∈ ds, d < 10) (rest : List Byte) :
    readUsual (textBytes (signText neg) ++ (ds.map digitByte ++ rest)) = readUnsigned neg (ds.map digitByte ++ rest) := by
  cases ds with
  | nil => exact absurd rfl hne
  | cons d ds =>
    have hb : digitByte d ≠ chMinus := fun e => by
      have h := digitValue_digitByte d (hds d (by simp))
      rw [e] at h
      have : digitValue chMinus = 255 := by decide
      have := hds d (by simp)
      omega
    cases neg
    · show readUsual (digitByte d :: (ds.map digitByte ++ rest)) = _
      rw [readUsual, if_neg hb]; rfl
    · show readUsual (chMinus :: digitByte d :: (ds.map digitByte ++ rest)) = _
      rw [readUsual, if_pos rfl]; rfl

theorem readText_of_usual {bs : List Byte} {r : Reading} (h : readUsual bs = some r) : readText bs = some r := by
  simp [readText, h]

/-- Digits, then what is neither a digit nor a point, then the exponent. -/
theorem readUnsigned_whole (neg : Bool) {ds : List Nat} (hne : ds ≠ []) (hds : ∀ d ∈ ds, d < 10) {rest : List Byte}
    (hr : ∀ c ∈ rest.head?, 10 ≤ digitValue c ∧ c ≠ chPoint) {e : Int} (he : readExponent rest = some e) :
    readUnsigned neg (ds.map digitByte ++ rest) = some {
      value := ⟨ds.foldl (fun a d => a * 10 + d) 0, e, neg⟩
      digits := significantDigits rest.isEmpty (ds.foldl (fun a d => a * 10 + d) 0) 0
      exponent := !rest.isEmpty } := by
  have hf : ∀ v, readFraction v rest = (v, 0, rest) := by
    intro v
    cases rest with
    | nil => rfl
    | cons c cs => rw [readFraction, if_neg (hr c (by simp)).2]
  have hl : 0 < ds.length := List.length_pos_iff.2 hne
  unfold readUnsigned
  rw [readDigits_digits _ _ (fun c hc => (hr c hc).1) _ _ hds]
  dsimp only
  rw [hf]
  dsimp only
  rw [if_neg (by omega), he]
  simp

/-- Digits, a point and digits. -/
theorem readUnsigned_point (neg : Bool) {ds fs : List Nat} (hne : ds ≠ []) (hds : ∀ d ∈ ds, d < 10)
    (hfs : ∀ d ∈ fs, d < 10) :
    readUnsigned neg (ds.map digitByte ++ chPoint :: fs.map digitByte) = some {
      value := ⟨(ds ++ fs).foldl (fun a d => a * 10 + d) 0, -(fs.length : Int), neg⟩
      digits := significantDigits false ((ds ++ fs).foldl (fun a d => a * 10 + d) 0) fs.length
      exponent := false } := by
  have hl : 0 < ds.length := List.length_pos_iff.2 hne
  have hpt : 10 ≤ digitValue chPoint := by decide
  unfold readUnsigned
  rw [readDigits_digits _ _ (by intro c hc; simp at hc; rw [← hc]; exact hpt) _ _ hds]
  dsimp only
  have h2 := readDigits_digits fs [] (by simp) (ds.foldl (fun a d => a * 10 + d) 0) 0 hfs
  rw [List.append_nil] at h2
  rw [readFraction, if_pos rfl, h2]
  dsimp only
  rw [if_neg (by omega), readExponent, List.foldl_append]
  simp

/-- Where a point or an exponent stands in the text of a number that is not 0, every digit is significant. -/
theorem significantDigits_full {sig : Nat} (h : sig ≠ 0) (frac : Nat) :
    significantDigits false sig frac = ndigits sig := by
  simp [significantDigits, h]

/-- With an exponent and no digits after a point, every digit is significant. -/
theorem significantDigits_exponent (sig : Nat) : significantDigits false sig 0 = ndigits sig := by
  by_cases h : sig = 0
  · rw [h]; decide
  · exact significantDigits_full h 0

/-- The scientific form of a decomposition denotes it. -/
theorem readText_scientificText (d : Decomp) : readText (textBytes (scientificText d)) =
    some { value := d, digits := ndigits d.sig, exponent := true } := by
  apply readText_of_usual
  have hb : textBytes (scientificText d) = textBytes (signText d.neg) ++ (dec d.sig ++
      (0x65 :: (if 0 ≤ d.ex then chPlus else chMinus) :: dec d.ex.natAbs)) := by
    simp [scientificText, textBytes, pieceBytes]
  have hx : readExponent (0x65 :: (if 0 ≤ d.ex then chPlus else chMinus) :: dec d.ex.natAbs) = some d.ex := by
    rw [readExponent, if_pos (Or.inl rfl)]
    by_cases h : 0 ≤ d.ex
    · have hne : chPlus ≠ chMinus := by decide
      simp only [h, if_true, hne, if_false, readWhole_dec]
      exact congrArg some (show ((d.ex.natAbs : Nat) : Int) = d.ex by omega)
    · simp only [h, if_false, if_true, readWhole_dec]
      exact congrArg some (show -((d.ex.natAbs : Nat) : Int) = d.ex by omega)
  rw [hb, dec_eq, readUsual_signed _ (decDigits_ne_nil _ _) (decDigits_lt _ _),
    readUnsigned_whole _ (decDigits_ne_nil _ _) (decDigits_lt _ _)
      (by intro c hc; simp only [List.head?_cons, Option.mem_def, Option.some.injEq] at hc; rw [← hc]; decide) hx,
    foldl_dec_digits]
  simp [significantDigits_exponent]

theorem foldl_zeros (k acc : Nat) : (List.replicate k 0).foldl (fun a d => a * 10 + d) acc = acc * 10 ^ k := by
  induction k generalizing acc with
  | zero => simp
  | succ n ih => rw [List.replicate_succ, List.foldl_cons, ih]; ring

theorem replicate_chZero (k : Nat) : List.replicate k chZero = (List.replicate k 0).map digitByte := by
  rw [List.map_replicate]; rfl

/-- The plain decimal form of a decomposition denotes it, the zeros before the point counted into the significand. -/
theorem readText_decompText (d : Decomp) : readText (textBytes (decompText d)) = some (
    if d.sig = 0 then { value := ⟨0, 0, d.neg⟩, digits := 1, exponent := false }
    else if 0 ≤ d.ex then {
      value := ⟨d.sig * 10 ^ d.ex.toNat, 0, d.neg⟩
      digits := significantDigits true (d.sig * 10 ^ d.ex.toNat) 0
      exponent := false }
    else { value := d, digits := ndigits d.sig, exponent := false }) := by
  apply readText_of_usual
  have hlt := decDigits_lt (Nat.log2 d.sig + 1) d.sig
  have hlen : (decDigits (Nat.log2 d.sig + 1) d.sig).length = ndigits d.sig := by simp [ndigits, dec]
  have hzero : ∀ k, ∀ e ∈ List.replicate k 0, e < 10 := fun k e he => by rw [(List.mem_replicate.1 he).2]; norm_num
  rw [decompText, textBytes_append, fixedBody]
  by_cases h0 : d.sig = 0
  · rw [if_pos h0, if_pos h0]
    have hb : textBytes [.bytes [chZero]] = [0].map digitByte ++ [] := by decide
    rw [hb, readUsual_signed _ (by simp) (by simp), readUnsigned_whole _ (by simp) (by simp) (by simp) rfl]
    rfl
  · rw [if_neg h0, if_neg h0]
    by_cases hex : 0 ≤ d.ex
    · rw [if_pos hex, if_pos hex]
      have hb : textBytes [.bytes (dec d.sig), .run chZero d.ex.toNat] =
          (decDigits (Nat.log2 d.sig + 1) d.sig ++ List.replicate d.ex.toNat 0).map digitByte ++ [] := by
        rw [List.map_append, ← dec_eq, ← replicate_chZero]; simp [textBytes, pieceBytes]
      have hall : ∀ e ∈ decDigits (Nat.log2 d.sig + 1) d.sig ++ List.replicate d.ex.toNat 0, e < 10 := fun e he => by
        rcases List.mem_append.1 he with h | h
        · exact hlt e h
        · exact hzero _ e h
      rw [hb, readUsual_signed _ (by simp [decDigits_ne_nil]) hall,
        readUnsigned_whole _ (by simp [decDigits_ne_nil]) hall (by simp) rfl, List.foldl_append, foldl_dec_digits,
        foldl_zeros]
      simp
    · rw [if_neg hex, if_neg hex]
      by_cases hin : 0 < (ndigits d.sig : Int) + d.ex
      · rw [if_pos hin]
        set k := ((ndigits d.sig : Int) + d.ex).toNat with hk
        have hb : textBytes [.bytes ((dec d.sig).take k), .bytes [chPoint], .bytes ((dec d.sig).drop k)] =
            ((decDigits (Nat.log2 d.sig + 1) d.sig).take k).map digitByte ++
              chPoint :: ((decDigits (Nat.log2 d.sig + 1) d.sig).drop k).map digitByte := by
          rw [List.map_take, List.map_drop, ← dec_eq]; simp [textBytes, pieceBytes]
        have hne : (decDigits (Nat.log2 d.sig + 1) d.sig).take k ≠ [] := by
          rw [← List.length_pos_iff, List.length_take, hlen]; omega
        rw [hb, readUsual_signed _ hne fun e he => hlt e (List.mem_of_mem_take he),
          readUnsigned_point _ hne (fun e he => hlt e (List.mem_of_mem_take he)) fun e he => hlt e (List.mem_of_mem_drop he),
          List.take_append_drop, foldl_dec_digits, List.length_drop, hlen]
        have : -((ndigits d.sig - k : Nat) : Int) = d.ex := by omega
        rw [this]; simp [significantDigits_full h0]
      · rw [if_neg hin]
        set k := (-d.ex - (ndigits d.sig : Int)).toNat with hk
        have hb : textBytes [.bytes [chZero, chPoint], .run chZero k, .bytes (dec d.sig)] =
            [0].map digitByte ++ chPoint :: (List.replicate k 0 ++ decDigits (Nat.log2 d.sig + 1) d.sig).map digitByte := by
          rw [List.map_append, ← dec_eq, ← replicate_chZero]; simp [textBytes, pieceBytes]; rfl
        have hall : ∀ e ∈ List.replicate k 0 ++ decDigits (Nat.log2 d.sig + 1) d.sig, e < 10 := fun e he => by
          rcases List.mem_append.1 he with h | h
          · exact hzero _ e h
          · exact hlt e h
        rw [hb, readUsual_signed _ (by simp) (by simp), readUnsigned_point _ (by simp) (by simp) hall]
        have : -((List.replicate k 0 ++ decDigits (Nat.log2 d.sig + 1) d.sig).length : Int) = d.ex := by
          rw [List.length_append, List.length_replicate, hlen]; omega
        rw [this, List.singleton_append, List.foldl_cons, List.foldl_append, foldl_zeros, foldl_dec_digits]
        simp [significantDigits_full h0]

/-! ### Zeros at the end -/

/-- Taking the zeros off the end keeps the value (45_fixed_writer.md R214). -/
theorem stripZeros_mul (fuel : Nat) : ∀ sig k : Nat, ∀ ex neg, k ≤ fuel → sig % 10 ≠ 0 →
    stripZeros fuel ⟨sig * 10 ^ k, ex, neg⟩ = ⟨sig, ex + k, neg⟩ := by
  induction fuel with
  | zero => intro sig k ex neg hk _; obtain rfl : k = 0 := by omega
            simp [stripZeros]
  | succ f ih =>
    intro sig k ex neg hk hs
    have hpos : 0 < sig := by omega
    cases k with
    | zero => simp [stripZeros, hs]
    | succ n =>
      have hm : sig * 10 ^ (n + 1) % 10 = 0 := by rw [pow_succ, ← mul_assoc]; exact Nat.mul_mod_left _ _
      have hd : sig * 10 ^ (n + 1) / 10 = sig * 10 ^ n := by
        rw [pow_succ, ← mul_assoc]; exact Nat.mul_div_cancel _ (by norm_num)
      rw [stripZeros, if_pos ⟨by positivity, hm⟩, dropDigit]
      dsimp only
      rw [hd, ih sig n (ex + 1) neg (by omega) hs]
      push_cast
      congr 1; ring

end Sys2Proof.Machine
end

