-- ==== Sys2Proof/Laws/Memory.lean ====
section
/-! SUPPORT. The laws of host memory: a read after a write, and the canonical form, which every operation keeps. The
read laws need no canonical form. -/

namespace Sys2Proof.Machine

/-! ### Reading after one write -/

theorem Memory.read_erase_same (m : Memory) (a : Nat) : (m.erase a).read a = unlistedByte := by
  induction m with
  | nil => rfl
  | cons c rest ih =>
    obtain ⟨k, v⟩ := c
    by_cases h : k = a
    · simpa [Memory.erase, h] using ih
    · simpa [Memory.erase, Memory.read, h] using ih

theorem Memory.read_erase_ne (m : Memory) {a b : Nat} (h : b ≠ a) : (m.erase a).read b = m.read b := by
  induction m with
  | nil => rfl
  | cons c rest ih =>
    obtain ⟨k, v⟩ := c
    by_cases hk : k = a
    · have hb : k ≠ b := fun e => h (e ▸ hk)
      simpa [Memory.erase, Memory.read, hk, hb, h.symm] using ih
    · by_cases hb : k = b
      · simp [Memory.erase, Memory.read, hb, h]
      · simpa [Memory.erase, Memory.read, hk, hb] using ih

theorem Memory.read_insert_ne (m : Memory) {a b : Nat} (v : Byte) (h : b ≠ a) :
    (m.insert a v).read b = m.read b := by
  induction m with
  | nil => simp [Memory.insert, Memory.read, h.symm]
  | cons c rest ih =>
    obtain ⟨k, w⟩ := c
    by_cases hk : a < k
    · simp [Memory.insert, Memory.read, hk, h.symm]
    · by_cases hb : k = b
      · simp [Memory.insert, Memory.read, hb, hb ▸ hk]
      · simpa [Memory.insert, Memory.read, hk, hb] using ih

theorem Memory.read_insert_erase_same (m : Memory) (a : Nat) (v : Byte) :
    ((m.erase a).insert a v).read a = v := by
  induction m with
  | nil => simp [Memory.erase, Memory.insert, Memory.read]
  | cons c rest ih =>
    obtain ⟨k, w⟩ := c
    by_cases hk : k = a
    · simpa [Memory.erase, hk] using ih
    · by_cases hl : a < k
      · simp [Memory.erase, Memory.insert, Memory.read, hk, hl]
      · simpa [Memory.erase, Memory.insert, Memory.read, hk, hl] using ih

/-- A read of the address written gives the byte written. -/
@[simp] theorem Memory.read_write_same (m : Memory) (a : Nat) (v : Byte) : (m.write a v).read a = v := by
  unfold Memory.write
  split
  · next h => rw [Memory.read_erase_same, h]
  · exact Memory.read_insert_erase_same m a v

/-- A write leaves every other address alone. -/
theorem Memory.read_write_ne (m : Memory) {a b : Nat} (v : Byte) (h : b ≠ a) : (m.write a v).read b = m.read b := by
  unfold Memory.write
  split
  · exact Memory.read_erase_ne m h
  · rw [Memory.read_insert_ne _ v h, Memory.read_erase_ne m h]

/-! ### Reading after a run of writes -/

/-- A run of writes leaves the addresses outside it alone (20_memory.md R64). -/
theorem Memory.read_writeBytes_outside (bs : List Byte) :
    ∀ (m : Memory) {a b : Nat}, b < a ∨ a + bs.length ≤ b → (m.writeBytes a bs).read b = m.read b := by
  induction bs with
  | nil => intro m a b _; rfl
  | cons c cs ih =>
    intro m a b h
    have hlen : (c :: cs).length = cs.length + 1 := rfl
    have hout : b < a + 1 ∨ a + 1 + cs.length ≤ b := by omega
    have hne : b ≠ a := by omega
    rw [Memory.writeBytes, ih (m.write a c) hout, Memory.read_write_ne m c hne]

/-- The bytes written are the bytes read back (20_memory.md R63). -/
theorem Memory.readBytes_writeBytes (bs : List Byte) :
    ∀ (m : Memory) (a : Nat), (m.writeBytes a bs).readBytes a bs.length = bs := by
  induction bs with
  | nil => intro m a; rfl
  | cons c cs ih =>
    intro m a
    have hread : ((m.write a c).writeBytes (a + 1) cs).read a = c := by
      rw [Memory.read_writeBytes_outside cs _ (Or.inl (Nat.lt_succ_self a)), Memory.read_write_same]
    simp only [Memory.writeBytes, List.length_cons, Memory.readBytes, hread, ih]

@[simp] theorem Memory.readBytes_length (m : Memory) (n : Nat) : ∀ a, (m.readBytes a n).length = n := by
  induction n with
  | zero => intro a; rfl
  | succ n ih => intro a; simp [Memory.readBytes, ih]

/-- Which byte stands where in the bytes read. -/
theorem Memory.readBytes_getElem? (m : Memory) (n : Nat) :
    ∀ a i, i < n → (m.readBytes a n)[i]? = some (m.read (a + i)) := by
  induction n with
  | zero => intro a i h; omega
  | succ n ih =>
    intro a i h
    cases i with
    | zero => rfl
    | succ i =>
      rw [Memory.readBytes, List.getElem?_cons_succ, ih (a + 1) i (by omega)]
      congr 2; omega

/-- Two memories that agree on a range give the same bytes. -/
theorem Memory.readBytes_congr {m m' : Memory} (n : Nat) :
    ∀ a, (∀ b, a ≤ b → b < a + n → m'.read b = m.read b) → m'.readBytes a n = m.readBytes a n := by
  induction n with
  | zero => intro a _; rfl
  | succ n ih =>
    intro a h
    rw [Memory.readBytes, Memory.readBytes, h a (Nat.le_refl a) (by omega),
      ih (a + 1) (fun b h1 h2 => h b (by omega) (by omega))]

/-! ### The canonical form -/

theorem Memory.wfFrom_mono {aw : Nat} {lo lo' : Nat} (h : lo' ≤ lo) {m : Memory} (hm : Memory.wfFrom aw lo m = true) :
    Memory.wfFrom aw lo' m = true := by
  cases m with
  | nil => rfl
  | cons c rest =>
    obtain ⟨k, v⟩ := c
    simp only [Memory.wfFrom, Bool.and_eq_true, decide_eq_true_eq] at hm ⊢
    exact ⟨⟨⟨by omega, hm.1.1.2⟩, hm.1.2⟩, hm.2⟩

theorem Memory.wfFrom_erase {aw : Nat} (a : Nat) (m : Memory) :
    ∀ lo, Memory.wfFrom aw lo m = true → Memory.wfFrom aw lo (m.erase a) = true := by
  induction m with
  | nil => intro lo _; rfl
  | cons c rest ih =>
    obtain ⟨k, v⟩ := c
    intro lo hm
    simp only [Memory.wfFrom, Bool.and_eq_true, decide_eq_true_eq] at hm
    by_cases h : k = a
    · simpa [Memory.erase, h] using
        Memory.wfFrom_mono (lo' := lo) (lo := k + 1) (by omega) (ih (k + 1) hm.2)
    · simp only [Memory.erase, h, if_false, Memory.wfFrom, Bool.and_eq_true, decide_eq_true_eq]
      exact ⟨hm.1, ih (k + 1) hm.2⟩

theorem Memory.wfFrom_insert {aw : Nat} (a : Nat) (v : Byte) (ha : a < memorySize aw) (hv : v ≠ unlistedByte) (m : Memory) :
    ∀ lo, lo ≤ a → Memory.wfFrom aw lo (m.erase a) = true → Memory.wfFrom aw lo ((m.erase a).insert a v) = true := by
  induction m with
  | nil =>
    intro lo hlo _
    simp [Memory.erase, Memory.insert, Memory.wfFrom, hlo, ha, hv]
  | cons c rest ih =>
    obtain ⟨k, w⟩ := c
    intro lo hlo hm
    by_cases h : k = a
    · simp only [Memory.erase, h, if_true] at hm ⊢
      exact ih lo hlo hm
    · simp only [Memory.erase, h, if_false, Memory.wfFrom, Bool.and_eq_true, decide_eq_true_eq] at hm ⊢
      by_cases hl : a < k
      · simp only [Memory.insert, hl, if_true, Memory.wfFrom, Bool.and_eq_true, decide_eq_true_eq, bne_iff_ne]
        exact ⟨⟨⟨hlo, ha⟩, hv⟩, ⟨⟨by omega, hm.1.1.2⟩, by simpa using hm.1.2⟩, hm.2⟩
      · simp only [Memory.insert, hl, if_false, Memory.wfFrom, Bool.and_eq_true, decide_eq_true_eq]
        exact ⟨hm.1, ih (k + 1) (by omega) hm.2⟩

/-- A write keeps the canonical form. -/
theorem Memory.wf_write {aw : Nat} {m : Memory} {a : Nat} (v : Byte) (ha : a < memorySize aw) (hm : m.wf aw = true) :
    (m.write a v).wf aw = true := by
  unfold Memory.write Memory.wf at *
  split
  · exact Memory.wfFrom_erase a m 0 hm
  · next hv => exact Memory.wfFrom_insert a v ha hv m 0 (Nat.zero_le a) (Memory.wfFrom_erase a m 0 hm)

/-- A run of writes inside the address space keeps the canonical form. -/
theorem Memory.wf_writeBytes {aw : Nat} (bs : List Byte) :
    ∀ {m : Memory} {a : Nat}, a + bs.length ≤ memorySize aw → m.wf aw = true → (m.writeBytes a bs).wf aw = true := by
  induction bs with
  | nil => intro m a _ hm; exact hm
  | cons c cs ih =>
    intro m a ha hm
    have hlen : (c :: cs).length = cs.length + 1 := rfl
    exact ih (by omega) (Memory.wf_write c (by omega) hm)

/-- The memory of the reset state is in canonical form. -/
theorem State.reset_mem_wf : State.reset.mem.wf 64 = true := rfl

end Sys2Proof.Machine
end

