-- ==== Sys2Proof/Laws/State.lean ====
section
/-! SUPPORT. One lemma per field per update of State: what each shared operation leaves in each field. -/

namespace Sys2Proof.Machine

/-! ### Taking a fault (60_exceptions.md R273) -/

@[simp] theorem State.raiseFault_cmd {aw : Nat} (s : State aw) (c : Cause) :
    (s.raiseFault c).cmd = s.cmd := rfl

@[simp] theorem State.raiseFault_first {aw : Nat} (s : State aw) (c : Cause) :
    (s.raiseFault c).first = s.first := rfl

@[simp] theorem State.raiseFault_last {aw : Nat} (s : State aw) (c : Cause) :
    (s.raiseFault c).last = s.last := rfl

@[simp] theorem State.raiseFault_a {aw : Nat} (s : State aw) (c : Cause) :
    (s.raiseFault c).a = s.a := rfl

@[simp] theorem State.raiseFault_exp {aw : Nat} (s : State aw) (c : Cause) :
    (s.raiseFault c).exp = s.exp := rfl

@[simp] theorem State.raiseFault_prec {aw : Nat} (s : State aw) (c : Cause) :
    (s.raiseFault c).prec = s.prec := rfl

@[simp] theorem State.raiseFault_status {aw : Nat} (s : State aw) (c : Cause) :
    (s.raiseFault c).status = statusCode .fault := rfl

@[simp] theorem State.raiseFault_cause {aw : Nat} (s : State aw) (c : Cause) :
    (s.raiseFault c).cause = causeCode c := rfl

@[simp] theorem State.raiseFault_cursor {aw : Nat} (s : State aw) (c : Cause) :
    (s.raiseFault c).cursor = s.cursor := rfl

@[simp] theorem State.raiseFault_result {aw : Nat} (s : State aw) (c : Cause) :
    (s.raiseFault c).result = s.result := rfl

@[simp] theorem State.raiseFault_result2 {aw : Nat} (s : State aw) (c : Cause) :
    (s.raiseFault c).result2 = s.result2 := rfl

@[simp] theorem State.raiseFault_faulted {aw : Nat} (s : State aw) (c : Cause) :
    (s.raiseFault c).faulted = true := rfl

@[simp] theorem State.raiseFault_windows {aw : Nat} (s : State aw) (c : Cause) :
    (s.raiseFault c).windows = s.windows := rfl

@[simp] theorem State.raiseFault_mem {aw : Nat} (s : State aw) (c : Cause) :
    (s.raiseFault c).mem = s.mem := rfl

@[simp] theorem State.raiseFault_regions {aw : Nat} (s : State aw) (c : Cause) :
    (s.raiseFault c).regions = s.regions := rfl

@[simp] theorem State.raiseFault_pending {aw : Nat} (s : State aw) (c : Cause) :
    (s.raiseFault c).pending = s.pending := rfl

/-! ### Reset (70_reset_and_hazards.md R300) -/

@[simp] theorem State.platformReset_cmd {aw : Nat} (s : State aw) :
    (s.platformReset).cmd = 0 := rfl

@[simp] theorem State.platformReset_first {aw : Nat} (s : State aw) :
    (s.platformReset).first = 0 := rfl

@[simp] theorem State.platformReset_last {aw : Nat} (s : State aw) :
    (s.platformReset).last = 0 := rfl

@[simp] theorem State.platformReset_a {aw : Nat} (s : State aw) :
    (s.platformReset).a = 0 := rfl

@[simp] theorem State.platformReset_exp {aw : Nat} (s : State aw) :
    (s.platformReset).exp = 0 := rfl

@[simp] theorem State.platformReset_prec {aw : Nat} (s : State aw) :
    (s.platformReset).prec = 0 := rfl

@[simp] theorem State.platformReset_status {aw : Nat} (s : State aw) :
    (s.platformReset).status = 0 := rfl

@[simp] theorem State.platformReset_cause {aw : Nat} (s : State aw) :
    (s.platformReset).cause = 0 := rfl

@[simp] theorem State.platformReset_cursor {aw : Nat} (s : State aw) :
    (s.platformReset).cursor = 0 := rfl

@[simp] theorem State.platformReset_result {aw : Nat} (s : State aw) :
    (s.platformReset).result = 0 := rfl

@[simp] theorem State.platformReset_result2 {aw : Nat} (s : State aw) :
    (s.platformReset).result2 = 0 := rfl

@[simp] theorem State.platformReset_faulted {aw : Nat} (s : State aw) :
    (s.platformReset).faulted = false := rfl

@[simp] theorem State.platformReset_windows {aw : Nat} (s : State aw) :
    (s.platformReset).windows = s.windows := rfl

@[simp] theorem State.platformReset_mem {aw : Nat} (s : State aw) :
    (s.platformReset).mem = s.mem := rfl

@[simp] theorem State.platformReset_regions {aw : Nat} (s : State aw) :
    (s.platformReset).regions = s.regions := rfl

@[simp] theorem State.platformReset_pending {aw : Nat} (s : State aw) :
    (s.platformReset).pending = s.pending := rfl

/-! ### Ending a command with an outcome (10_state.md R27) -/

@[simp] theorem State.endWith_cmd {aw : Nat} (s : State aw) (c : StatusCode) :
    (s.endWith c).cmd = s.cmd := rfl

@[simp] theorem State.endWith_first {aw : Nat} (s : State aw) (c : StatusCode) :
    (s.endWith c).first = s.first := rfl

@[simp] theorem State.endWith_last {aw : Nat} (s : State aw) (c : StatusCode) :
    (s.endWith c).last = s.last := rfl

@[simp] theorem State.endWith_a {aw : Nat} (s : State aw) (c : StatusCode) :
    (s.endWith c).a = s.a := rfl

@[simp] theorem State.endWith_exp {aw : Nat} (s : State aw) (c : StatusCode) :
    (s.endWith c).exp = s.exp := rfl

@[simp] theorem State.endWith_prec {aw : Nat} (s : State aw) (c : StatusCode) :
    (s.endWith c).prec = s.prec := rfl

@[simp] theorem State.endWith_status {aw : Nat} (s : State aw) (c : StatusCode) :
    (s.endWith c).status = statusCode c := rfl

@[simp] theorem State.endWith_cause {aw : Nat} (s : State aw) (c : StatusCode) :
    (s.endWith c).cause = s.cause := rfl

@[simp] theorem State.endWith_cursor {aw : Nat} (s : State aw) (c : StatusCode) :
    (s.endWith c).cursor = s.cursor := rfl

@[simp] theorem State.endWith_result {aw : Nat} (s : State aw) (c : StatusCode) :
    (s.endWith c).result = s.result := rfl

@[simp] theorem State.endWith_result2 {aw : Nat} (s : State aw) (c : StatusCode) :
    (s.endWith c).result2 = s.result2 := rfl

@[simp] theorem State.endWith_faulted {aw : Nat} (s : State aw) (c : StatusCode) :
    (s.endWith c).faulted = s.faulted := rfl

@[simp] theorem State.endWith_windows {aw : Nat} (s : State aw) (c : StatusCode) :
    (s.endWith c).windows = s.windows := rfl

@[simp] theorem State.endWith_mem {aw : Nat} (s : State aw) (c : StatusCode) :
    (s.endWith c).mem = s.mem := rfl

@[simp] theorem State.endWith_regions {aw : Nat} (s : State aw) (c : StatusCode) :
    (s.endWith c).regions = s.regions := rfl

@[simp] theorem State.endWith_pending {aw : Nat} (s : State aw) (c : StatusCode) :
    (s.endWith c).pending = s.pending := rfl

/-! ### The span write (20_memory.md R63): it writes STATUS, CURSOR and memory -/

@[simp] theorem State.writeSpan_cmd {aw : Nat} (s : State aw) (t : Text) :
    (s.writeSpan t).cmd = s.cmd := by
  unfold State.writeSpan; split <;> rfl

@[simp] theorem State.writeSpan_first {aw : Nat} (s : State aw) (t : Text) :
    (s.writeSpan t).first = s.first := by
  unfold State.writeSpan; split <;> rfl

@[simp] theorem State.writeSpan_last {aw : Nat} (s : State aw) (t : Text) :
    (s.writeSpan t).last = s.last := by
  unfold State.writeSpan; split <;> rfl

@[simp] theorem State.writeSpan_a {aw : Nat} (s : State aw) (t : Text) :
    (s.writeSpan t).a = s.a := by
  unfold State.writeSpan; split <;> rfl

@[simp] theorem State.writeSpan_exp {aw : Nat} (s : State aw) (t : Text) :
    (s.writeSpan t).exp = s.exp := by
  unfold State.writeSpan; split <;> rfl

@[simp] theorem State.writeSpan_prec {aw : Nat} (s : State aw) (t : Text) :
    (s.writeSpan t).prec = s.prec := by
  unfold State.writeSpan; split <;> rfl

@[simp] theorem State.writeSpan_cause {aw : Nat} (s : State aw) (t : Text) :
    (s.writeSpan t).cause = s.cause := by
  unfold State.writeSpan; split <;> rfl

@[simp] theorem State.writeSpan_result {aw : Nat} (s : State aw) (t : Text) :
    (s.writeSpan t).result = s.result := by
  unfold State.writeSpan; split <;> rfl

@[simp] theorem State.writeSpan_result2 {aw : Nat} (s : State aw) (t : Text) :
    (s.writeSpan t).result2 = s.result2 := by
  unfold State.writeSpan; split <;> rfl

@[simp] theorem State.writeSpan_faulted {aw : Nat} (s : State aw) (t : Text) :
    (s.writeSpan t).faulted = s.faulted := by
  unfold State.writeSpan; split <;> rfl

@[simp] theorem State.writeSpan_windows {aw : Nat} (s : State aw) (t : Text) :
    (s.writeSpan t).windows = s.windows := by
  unfold State.writeSpan; split <;> rfl

@[simp] theorem State.writeSpan_regions {aw : Nat} (s : State aw) (t : Text) :
    (s.writeSpan t).regions = s.regions := by
  unfold State.writeSpan; split <;> rfl

@[simp] theorem State.writeSpan_pending {aw : Nat} (s : State aw) (t : Text) :
    (s.writeSpan t).pending = s.pending := by
  unfold State.writeSpan; split <;> rfl

theorem State.writeSpan_status {aw : Nat} (s : State aw) (t : Text) :
    (s.writeSpan t).status = if textLength t ≤ s.spanSize then statusCode .ok else statusCode .valueTooLarge := by
  unfold State.writeSpan; split <;> rfl

theorem State.writeSpan_cursor {aw : Nat} (s : State aw) (t : Text) :
    (s.writeSpan t).cursor =
      if textLength t ≤ s.spanSize then BitVec.ofNat aw (s.first.toNat + textLength t) else s.last := by
  unfold State.writeSpan; split <;> rfl

theorem State.writeSpan_mem {aw : Nat} (s : State aw) (t : Text) :
    (s.writeSpan t).mem =
      if textLength t ≤ s.spanSize then s.mem.writeBytes s.first.toNat (textBytes t) else s.mem := by
  unfold State.writeSpan; split <;> rfl

/-! ### The failed parse (41_integer_decoder.md R121, R122, R126) -/

@[simp] theorem State.parseInvalid_cmd {aw : Nat} (s : State aw) :
    (s.parseInvalid).cmd = s.cmd := rfl

@[simp] theorem State.parseInvalid_first {aw : Nat} (s : State aw) :
    (s.parseInvalid).first = s.first := rfl

@[simp] theorem State.parseInvalid_last {aw : Nat} (s : State aw) :
    (s.parseInvalid).last = s.last := rfl

@[simp] theorem State.parseInvalid_a {aw : Nat} (s : State aw) :
    (s.parseInvalid).a = s.a := rfl

@[simp] theorem State.parseInvalid_exp {aw : Nat} (s : State aw) :
    (s.parseInvalid).exp = s.exp := rfl

@[simp] theorem State.parseInvalid_prec {aw : Nat} (s : State aw) :
    (s.parseInvalid).prec = s.prec := rfl

@[simp] theorem State.parseInvalid_status {aw : Nat} (s : State aw) :
    (s.parseInvalid).status = statusCode .invalidArgument := rfl

@[simp] theorem State.parseInvalid_cause {aw : Nat} (s : State aw) :
    (s.parseInvalid).cause = s.cause := rfl

@[simp] theorem State.parseInvalid_cursor {aw : Nat} (s : State aw) :
    (s.parseInvalid).cursor = s.first := rfl

@[simp] theorem State.parseInvalid_result {aw : Nat} (s : State aw) :
    (s.parseInvalid).result = s.result := rfl

@[simp] theorem State.parseInvalid_result2 {aw : Nat} (s : State aw) :
    (s.parseInvalid).result2 = s.result2 := rfl

@[simp] theorem State.parseInvalid_faulted {aw : Nat} (s : State aw) :
    (s.parseInvalid).faulted = s.faulted := rfl

@[simp] theorem State.parseInvalid_windows {aw : Nat} (s : State aw) :
    (s.parseInvalid).windows = s.windows := rfl

@[simp] theorem State.parseInvalid_mem {aw : Nat} (s : State aw) :
    (s.parseInvalid).mem = s.mem := rfl

@[simp] theorem State.parseInvalid_regions {aw : Nat} (s : State aw) :
    (s.parseInvalid).regions = s.regions := rfl

@[simp] theorem State.parseInvalid_pending {aw : Nat} (s : State aw) :
    (s.parseInvalid).pending = s.pending := rfl

/-! ### The end of a parse (41_integer_decoder.md R126 to R128): it writes STATUS, CURSOR and RESULT -/

@[simp] theorem State.parseEnd_cmd {aw : Nat} (s : State aw) (width : Nat) (sgn neg : Bool) (start : Nat) (w : Scan) :
    (s.parseEnd width sgn neg start w).cmd = s.cmd := by
  unfold State.parseEnd; split <;> [rfl; (split <;> rfl)]

@[simp] theorem State.parseEnd_first {aw : Nat} (s : State aw) (width : Nat) (sgn neg : Bool) (start : Nat) (w : Scan) :
    (s.parseEnd width sgn neg start w).first = s.first := by
  unfold State.parseEnd; split <;> [rfl; (split <;> rfl)]

@[simp] theorem State.parseEnd_last {aw : Nat} (s : State aw) (width : Nat) (sgn neg : Bool) (start : Nat) (w : Scan) :
    (s.parseEnd width sgn neg start w).last = s.last := by
  unfold State.parseEnd; split <;> [rfl; (split <;> rfl)]

@[simp] theorem State.parseEnd_a {aw : Nat} (s : State aw) (width : Nat) (sgn neg : Bool) (start : Nat) (w : Scan) :
    (s.parseEnd width sgn neg start w).a = s.a := by
  unfold State.parseEnd; split <;> [rfl; (split <;> rfl)]

@[simp] theorem State.parseEnd_exp {aw : Nat} (s : State aw) (width : Nat) (sgn neg : Bool) (start : Nat) (w : Scan) :
    (s.parseEnd width sgn neg start w).exp = s.exp := by
  unfold State.parseEnd; split <;> [rfl; (split <;> rfl)]

@[simp] theorem State.parseEnd_prec {aw : Nat} (s : State aw) (width : Nat) (sgn neg : Bool) (start : Nat) (w : Scan) :
    (s.parseEnd width sgn neg start w).prec = s.prec := by
  unfold State.parseEnd; split <;> [rfl; (split <;> rfl)]

@[simp] theorem State.parseEnd_cause {aw : Nat} (s : State aw) (width : Nat) (sgn neg : Bool) (start : Nat) (w : Scan) :
    (s.parseEnd width sgn neg start w).cause = s.cause := by
  unfold State.parseEnd; split <;> [rfl; (split <;> rfl)]

@[simp] theorem State.parseEnd_result2 {aw : Nat} (s : State aw) (width : Nat) (sgn neg : Bool) (start : Nat) (w : Scan) :
    (s.parseEnd width sgn neg start w).result2 = s.result2 := by
  unfold State.parseEnd; split <;> [rfl; (split <;> rfl)]

@[simp] theorem State.parseEnd_faulted {aw : Nat} (s : State aw) (width : Nat) (sgn neg : Bool) (start : Nat) (w : Scan) :
    (s.parseEnd width sgn neg start w).faulted = s.faulted := by
  unfold State.parseEnd; split <;> [rfl; (split <;> rfl)]

@[simp] theorem State.parseEnd_windows {aw : Nat} (s : State aw) (width : Nat) (sgn neg : Bool) (start : Nat) (w : Scan) :
    (s.parseEnd width sgn neg start w).windows = s.windows := by
  unfold State.parseEnd; split <;> [rfl; (split <;> rfl)]

@[simp] theorem State.parseEnd_mem {aw : Nat} (s : State aw) (width : Nat) (sgn neg : Bool) (start : Nat) (w : Scan) :
    (s.parseEnd width sgn neg start w).mem = s.mem := by
  unfold State.parseEnd; split <;> [rfl; (split <;> rfl)]

@[simp] theorem State.parseEnd_regions {aw : Nat} (s : State aw) (width : Nat) (sgn neg : Bool) (start : Nat) (w : Scan) :
    (s.parseEnd width sgn neg start w).regions = s.regions := by
  unfold State.parseEnd; split <;> [rfl; (split <;> rfl)]

@[simp] theorem State.parseEnd_pending {aw : Nat} (s : State aw) (width : Nat) (sgn neg : Bool) (start : Nat) (w : Scan) :
    (s.parseEnd width sgn neg start w).pending = s.pending := by
  unfold State.parseEnd; split <;> [rfl; (split <;> rfl)]

/-! ### The body of PARSE_INT (41_integer_decoder.md R130): it writes STATUS, CURSOR and RESULT -/

@[simp] theorem State.parseSpan_cmd {aw : Nat} (s : State aw) (width : Nat) (sgn : Bool) (b : Nat) :
    (s.parseSpan width sgn b).cmd = s.cmd := by
  unfold State.parseSpan; split <;> [rfl; (split <;> [rfl; exact State.parseEnd_cmd ..])]

@[simp] theorem State.parseSpan_first {aw : Nat} (s : State aw) (width : Nat) (sgn : Bool) (b : Nat) :
    (s.parseSpan width sgn b).first = s.first := by
  unfold State.parseSpan; split <;> [rfl; (split <;> [rfl; exact State.parseEnd_first ..])]

@[simp] theorem State.parseSpan_last {aw : Nat} (s : State aw) (width : Nat) (sgn : Bool) (b : Nat) :
    (s.parseSpan width sgn b).last = s.last := by
  unfold State.parseSpan; split <;> [rfl; (split <;> [rfl; exact State.parseEnd_last ..])]

@[simp] theorem State.parseSpan_a {aw : Nat} (s : State aw) (width : Nat) (sgn : Bool) (b : Nat) :
    (s.parseSpan width sgn b).a = s.a := by
  unfold State.parseSpan; split <;> [rfl; (split <;> [rfl; exact State.parseEnd_a ..])]

@[simp] theorem State.parseSpan_exp {aw : Nat} (s : State aw) (width : Nat) (sgn : Bool) (b : Nat) :
    (s.parseSpan width sgn b).exp = s.exp := by
  unfold State.parseSpan; split <;> [rfl; (split <;> [rfl; exact State.parseEnd_exp ..])]

@[simp] theorem State.parseSpan_prec {aw : Nat} (s : State aw) (width : Nat) (sgn : Bool) (b : Nat) :
    (s.parseSpan width sgn b).prec = s.prec := by
  unfold State.parseSpan; split <;> [rfl; (split <;> [rfl; exact State.parseEnd_prec ..])]

@[simp] theorem State.parseSpan_cause {aw : Nat} (s : State aw) (width : Nat) (sgn : Bool) (b : Nat) :
    (s.parseSpan width sgn b).cause = s.cause := by
  unfold State.parseSpan; split <;> [rfl; (split <;> [rfl; exact State.parseEnd_cause ..])]

@[simp] theorem State.parseSpan_result2 {aw : Nat} (s : State aw) (width : Nat) (sgn : Bool) (b : Nat) :
    (s.parseSpan width sgn b).result2 = s.result2 := by
  unfold State.parseSpan; split <;> [rfl; (split <;> [rfl; exact State.parseEnd_result2 ..])]

@[simp] theorem State.parseSpan_faulted {aw : Nat} (s : State aw) (width : Nat) (sgn : Bool) (b : Nat) :
    (s.parseSpan width sgn b).faulted = s.faulted := by
  unfold State.parseSpan; split <;> [rfl; (split <;> [rfl; exact State.parseEnd_faulted ..])]

@[simp] theorem State.parseSpan_windows {aw : Nat} (s : State aw) (width : Nat) (sgn : Bool) (b : Nat) :
    (s.parseSpan width sgn b).windows = s.windows := by
  unfold State.parseSpan; split <;> [rfl; (split <;> [rfl; exact State.parseEnd_windows ..])]

@[simp] theorem State.parseSpan_mem {aw : Nat} (s : State aw) (width : Nat) (sgn : Bool) (b : Nat) :
    (s.parseSpan width sgn b).mem = s.mem := by
  unfold State.parseSpan; split <;> [rfl; (split <;> [rfl; exact State.parseEnd_mem ..])]

@[simp] theorem State.parseSpan_regions {aw : Nat} (s : State aw) (width : Nat) (sgn : Bool) (b : Nat) :
    (s.parseSpan width sgn b).regions = s.regions := by
  unfold State.parseSpan; split <;> [rfl; (split <;> [rfl; exact State.parseEnd_regions ..])]

@[simp] theorem State.parseSpan_pending {aw : Nat} (s : State aw) (width : Nat) (sgn : Bool) (b : Nat) :
    (s.parseSpan width sgn b).pending = s.pending := by
  unfold State.parseSpan; split <;> [rfl; (split <;> [rfl; exact State.parseEnd_pending ..])]

/-! ### A write of CMD or of the action list changes no other field; the span is read from FIRST and LAST alone -/

@[simp] theorem State.spanSize_cmd {aw : Nat} (s : State aw) (v : Word) :
    State.spanSize { s with cmd := v } = s.spanSize := rfl

@[simp] theorem State.spanValid_cmd {aw : Nat} (s : State aw) (v : Word) :
    State.spanValid { s with cmd := v } = s.spanValid := rfl

@[simp] theorem State.spanHazard_cmd {aw : Nat} (s : State aw) (v : Word) :
    State.spanHazard { s with cmd := v } = s.spanHazard := rfl

@[simp] theorem State.spanBytes_cmd {aw : Nat} (s : State aw) (v : Word) :
    State.spanBytes { s with cmd := v } = s.spanBytes := rfl

@[simp] theorem State.spanSize_pending {aw : Nat} (s : State aw) (v : List (HostAction aw)) :
    State.spanSize { s with pending := v } = s.spanSize := rfl

@[simp] theorem State.spanValid_pending {aw : Nat} (s : State aw) (v : List (HostAction aw)) :
    State.spanValid { s with pending := v } = s.spanValid := rfl

@[simp] theorem State.spanHazard_pending {aw : Nat} (s : State aw) (v : List (HostAction aw)) :
    State.spanHazard { s with pending := v } = s.spanHazard := rfl

@[simp] theorem State.spanBytes_pending {aw : Nat} (s : State aw) (v : List (HostAction aw)) :
    State.spanBytes { s with pending := v } = s.spanBytes := rfl

end Sys2Proof.Machine
end

