-- ==== Sys2Proof/Laws/Ops.lean ====
section
/-! SUPPORT. For each shared operation one lemma that says once everything it can do; the provers cite these instead of
unfolding the operation. -/

namespace Sys2Proof.Machine

/-! ### The span check -/

/-- A command on a valid span that meets no hazard takes its effect. -/
theorem State.onSpan_ready {aw : Nat} {s : State aw} (t : State aw) (hv : s.spanValid = true) (hh : s.spanHazard = none) :
    s.onSpan t = .next t := by
  simp [State.onSpan, hv, hh]

/-- A command on an inverted span takes BAD_SPAN (20_memory.md R61). -/
theorem State.onSpan_inverted {aw : Nat} {s : State aw} (t : State aw) (hv : s.spanValid = false) :
    s.onSpan t = .next (s.raiseFault .badSpan) := by
  simp [State.onSpan, hv]

/-- Everything the span check can answer with a next state. -/
theorem State.onSpan_next_cases {aw : Nat} {s t u : State aw} (h : s.onSpan t = .next u) :
    (s.spanValid = true ∧ s.spanHazard = none ∧ u = t) ∨ (s.spanValid = false ∧ u = s.raiseFault .badSpan) := by
  unfold State.onSpan at h
  split at h
  · next hv =>
    split at h
    · cases h
    · next hh => cases h; exact Or.inl ⟨hv, hh, rfl⟩
  · next hv => cases h; exact Or.inr ⟨by simpa using hv, rfl⟩

/-- The span check never answers with a fault of the model. -/
theorem State.onSpan_no_fault {aw : Nat} (s t : State aw) (r : Fault) : s.onSpan t ≠ .fault r := by
  unfold State.onSpan
  split
  · split <;> simp
  · simp

/-- What the span check refuses, and why. -/
theorem State.onSpan_refused_cases {aw : Nat} {s t : State aw} {r : Refusal} (h : s.onSpan t = .refused r) :
    s.spanValid = true ∧ s.spanHazard = some r := by
  unfold State.onSpan at h
  split at h
  · next hv =>
    split at h
    · next hh => cases h; exact ⟨hv, hh⟩
    · cases h
  · cases h

/-- The only hazards are the two of 20_memory.md R68 and R72. -/
theorem State.spanHazard_cases {aw : Nat} {s : State aw} {r : Refusal} (h : s.spanHazard = some r) :
    r = .spanSideEffects ∨ r = .spanContended := by
  unfold State.spanHazard at h
  split at h
  · cases h; exact Or.inl rfl
  · split at h
    · cases h; exact Or.inr rfl
    · cases h

/-- Without regions there is no hazard. -/
theorem State.spanHazard_of_no_regions {aw : Nat} {s : State aw} (h : s.regions = []) : s.spanHazard = none := by
  simp [State.spanHazard, h]

/-! ### The span write -/

/-- Everything the span write can do (20_memory.md R63). -/
theorem State.writeSpan_cases {aw : Nat} (s : State aw) (t : Text) :
    (textLength t ≤ s.spanSize ∧
      s.writeSpan t = { s with mem := s.mem.writeBytes s.first.toNat (textBytes t),
                               cursor := BitVec.ofNat aw (s.first.toNat + textLength t),
                               status := statusCode .ok }) ∨
    (s.spanSize < textLength t ∧ s.writeSpan t = { s with cursor := s.last, status := statusCode .valueTooLarge }) := by
  unfold State.writeSpan
  split
  · next h => exact Or.inl ⟨h, rfl⟩
  · next h => exact Or.inr ⟨by omega, rfl⟩

/-! ### The digit loop -/

/-- One digit consumed moves on by one byte. -/
@[simp] theorem consumeDigit_pos (lim b d : Nat) (w : Scan) : (consumeDigit lim b d w).pos = w.pos + 1 := by
  unfold consumeDigit; split <;> [rfl; (split <;> rfl)]

/-- The digit loop moves on by at most the bytes it may read (41_integer_decoder.md R135). -/
theorem scanDigits_pos (m : Memory) (lim b n : Nat) :
    ∀ w, w.pos ≤ (scanDigits m lim b n w).pos ∧ (scanDigits m lim b n w).pos ≤ w.pos + n := by
  induction n with
  | zero => intro w; exact ⟨Nat.le_refl _, Nat.le_refl _⟩
  | succ n ih =>
    intro w
    unfold scanDigits
    split
    · have h := ih (consumeDigit lim b (digitValue (m.read w.pos)) w)
      rw [consumeDigit_pos] at h
      omega
    · omega

/-- The digit loop reads only the bytes of its range (20_memory.md R62). -/
theorem scanDigits_congr {m m' : Memory} (lim b n : Nat) :
    ∀ w : Scan, (∀ a, w.pos ≤ a → a < w.pos + n → m'.read a = m.read a) →
      scanDigits m' lim b n w = scanDigits m lim b n w := by
  induction n with
  | zero => intro w _; rfl
  | succ n ih =>
    intro w h
    have h0 := h w.pos (Nat.le_refl _) (by omega)
    unfold scanDigits
    rw [h0]
    split
    · exact ih _ fun a h1 h2 => h a (by rw [consumeDigit_pos] at h1; omega) (by rw [consumeDigit_pos] at h2; omega)
    · rfl

/-! ### The parse -/

/-- Everything the end of a parse can do (41_integer_decoder.md R126 to R128). -/
theorem State.parseEnd_cases {aw : Nat} (s : State aw) (width : Nat) (sgn neg : Bool) (start : Nat) (w : Scan) :
    (w.pos = start ∧ s.parseEnd width sgn neg start w = s.parseInvalid) ∨
    (w.pos ≠ start ∧ w.ovf = true ∧ s.parseEnd width sgn neg start w =
      { s with cursor := BitVec.ofNat aw w.pos, status := statusCode .outOfRange }) ∨
    (w.pos ≠ start ∧ w.ovf = false ∧ s.parseEnd width sgn neg start w =
      { s with cursor := BitVec.ofNat aw w.pos, result := parseResult width sgn neg w.acc,
               status := statusCode .ok }) := by
  unfold State.parseEnd
  split
  · next h => exact Or.inl ⟨h, rfl⟩
  · next h =>
    split
    · next ho => exact Or.inr (Or.inl ⟨h, ho, rfl⟩)
    · next ho => exact Or.inr (Or.inr ⟨h, by simpa using ho, rfl⟩)

/-! ### The commands -/

/-- Everything a command can do when it answers a next state: a fault, a span write, a parse, or a classification. -/
theorem execAt_next_cases {aw : Nat} {i : Instr} {s t : State aw} (h : execAt i s = .next t) :
    (∃ c, t = s.raiseFault c) ∨
    (∃ text, s.spanValid = true ∧ s.spanHazard = none ∧ t = s.writeSpan text) ∨
    (∃ width sgn b, s.spanValid = true ∧ s.spanHazard = none ∧ t = s.parseSpan width sgn b) ∨
    (∃ r r2, t = { s with result := r, result2 := r2, status := statusCode .ok }) := by
  cases i with
  | fmtFloat l f pv =>
    rcases State.onSpan_next_cases h with ⟨hv, hh, rfl⟩ | ⟨_, rfl⟩
    · exact Or.inr (Or.inl ⟨_, hv, hh, rfl⟩)
    · exact Or.inl ⟨_, rfl⟩
  | parseInt wid sgn base =>
    unfold execAt execParseInt at h
    dsimp only at h
    split at h
    · cases h; exact Or.inl ⟨_, rfl⟩
    · split at h
      · cases h; exact Or.inl ⟨_, rfl⟩
      · rcases State.onSpan_next_cases h with ⟨hv, hh, rfl⟩ | ⟨_, rfl⟩
        · exact Or.inr (Or.inr (Or.inl ⟨_, _, _, hv, hh, rfl⟩))
        · exact Or.inl ⟨_, rfl⟩
  | classifyFloat l => cases h; exact Or.inr (Or.inr (Or.inr ⟨_, _, rfl⟩))
  | classifyDigit => cases h; exact Or.inr (Or.inr (Or.inr ⟨_, _, rfl⟩))
  | writeFixed neg gen pv =>
    rcases State.onSpan_next_cases h with ⟨hv, hh, rfl⟩ | ⟨_, rfl⟩
    · exact Or.inr (Or.inl ⟨_, hv, hh, rfl⟩)
    · exact Or.inl ⟨_, rfl⟩

/-- No command answers with a fault of the model. -/
theorem execAt_no_fault {aw : Nat} (i : Instr) (s : State aw) (r : Fault) : execAt i s ≠ .fault r := by
  cases i with
  | fmtFloat l f pv => exact State.onSpan_no_fault _ _ _
  | parseInt wid sgn base =>
    unfold execAt execParseInt
    dsimp only
    split
    · simp
    · split
      · simp
      · exact State.onSpan_no_fault _ _ _
  | classifyFloat l => simp [execAt, execClassifyFloat]
  | classifyDigit => simp [execAt, execClassifyDigit]
  | writeFixed neg gen pv => exact State.onSpan_no_fault _ _ _

/-! At this hardware's AW = 64 the commands are `exec` (00_scope.md R8). -/

theorem execAt_eq_exec (i : Instr) (s : State) : execAt i s = exec i s := by cases i <;> rfl

theorem exec_next_cases {i : Instr} {s t : State} (h : exec i s = .next t) :
    (∃ c, t = s.raiseFault c) ∨
    (∃ text, s.spanValid = true ∧ s.spanHazard = none ∧ t = s.writeSpan text) ∨
    (∃ width sgn b, s.spanValid = true ∧ s.spanHazard = none ∧ t = s.parseSpan width sgn b) ∨
    (∃ r r2, t = { s with result := r, result2 := r2, status := statusCode .ok }) :=
  execAt_next_cases ((execAt_eq_exec i s).trans h)

theorem exec_no_fault (i : Instr) (s : State) (r : Fault) : exec i s ≠ .fault r :=
  execAt_eq_exec i s ▸ execAt_no_fault i s r

/-! ### Issuing and the other actions -/

/-- Everything a write of CMD can do when it answers a next state (30_encoding.md R94). -/
theorem State.issue_next_cases {aw : Nat} {s t : State aw} {w : Word} (h : s.issue w = .next t) :
    (s.faulted = true ∧ t = { s with cmd := w }) ∨
    (s.faulted = false ∧ ∃ i, decode w = .ok i ∧ execAt i { s with cmd := w } = .next t) ∨
    (s.faulted = false ∧ ∃ e, decode w = .error e ∧ t = State.raiseFault { s with cmd := w } (rejectCause e)) := by
  unfold State.issue at h
  split at h
  · next hf => cases h; exact Or.inl ⟨hf, rfl⟩
  · next hf =>
    have hf' : s.faulted = false := by simpa using hf
    split at h
    · next i hi => exact Or.inr (Or.inl ⟨hf', i, hi, h⟩)
    · next e he => cases h; exact Or.inr (Or.inr ⟨hf', e, he, rfl⟩)

/-- Outside the fault state a word that decodes runs as its command. -/
theorem State.issue_decoded {s : State} {w : Word} {i : Instr} (hf : s.faulted = false) (hd : decode w = .ok i) :
    s.issue w = exec i { s with cmd := w } := by
  simp [State.issue, hf, hd, execAt_eq_exec]

/-- Everything a host store can do when it answers a next state. -/
theorem State.hostStore_next_cases {aw : Nat} {s t : State aw} {addr : Addr aw} {text : List Byte}
    (h : s.hostStore addr text = .next t) :
    addr.toNat + text.length ≤ memorySize aw ∧ t = { s with mem := s.mem.writeBytes addr.toNat text } := by
  unfold State.hostStore at h
  split at h
  · cases h
  · next hs =>
    split at h
    · cases h
    · cases h; exact ⟨by omega, rfl⟩

/-- Everything a host write of a register other than CMD does: an operand register takes the value, or nothing
changes (10_state.md R22). -/
theorem State.hostWrite_cases {aw : Nat} (s : State aw) (r : Reg) (v : Quad) (hr : r ≠ .cmd) :
    ∃ f l a e p, s.hostWrite r v = .next { s with first := f, last := l, a := a, exp := e, prec := p } := by
  cases r with
  | cmd => exact absurd rfl hr
  | first => exact ⟨_, _, _, _, _, rfl⟩
  | last => exact ⟨_, _, _, _, _, rfl⟩
  | a => exact ⟨_, _, _, _, _, rfl⟩
  | exp => exact ⟨_, _, _, _, _, rfl⟩
  | prec => exact ⟨_, _, _, _, _, rfl⟩
  | status => exact ⟨s.first, s.last, s.a, s.exp, s.prec, rfl⟩
  | cause => exact ⟨s.first, s.last, s.a, s.exp, s.prec, rfl⟩
  | cursor => exact ⟨s.first, s.last, s.a, s.exp, s.prec, rfl⟩
  | result => exact ⟨s.first, s.last, s.a, s.exp, s.prec, rfl⟩
  | result2 => exact ⟨s.first, s.last, s.a, s.exp, s.prec, rfl⟩

/-- Everything a step can do when it answers a next state, by the action it takes. -/
theorem step_next_cases {s t : State} (h : step s = .next t) :
    (s.pending = [] ∧ t = s) ∨
    (∃ v rest, s.pending = .set .cmd v :: rest ∧ State.issue { s with pending := rest } (v.setWidth 32) = .next t) ∨
    (∃ r v rest, r ≠ Reg.cmd ∧ s.pending = .set r v :: rest ∧
      ∃ f l a e p, t = { s with pending := rest, first := f, last := l, a := a, exp := e, prec := p }) ∨
    (∃ addr text rest, s.pending = .mem addr text :: rest ∧ addr.toNat + text.length ≤ memorySize 64 ∧
      t = { s with pending := rest, mem := s.mem.writeBytes addr.toNat text }) ∨
    (∃ rest, s.pending = .reset :: rest ∧ t = State.platformReset { s with pending := rest }) ∨
    (∃ rs rest, s.pending = .regions rs :: rest ∧ t = { s with pending := rest, regions := rs }) := by
  unfold step State.advance at h
  split at h
  · next hp => cases h; exact Or.inl ⟨hp, rfl⟩
  · next action rest hp =>
    cases action with
    | set r v =>
      by_cases hr : r = .cmd
      · subst hr; exact Or.inr (Or.inl ⟨v, rest, hp, h⟩)
      · obtain ⟨f, l, a, e, p, hw⟩ := State.hostWrite_cases { s with pending := rest } r v hr
        have h' : State.hostWrite { s with pending := rest } r v = .next t := h
        rw [hw] at h'
        cases h'
        exact Or.inr (Or.inr (Or.inl ⟨r, v, rest, hr, hp, f, l, a, e, p, rfl⟩))
    | mem addr text =>
      obtain ⟨hle, ht⟩ := State.hostStore_next_cases (s := { s with pending := rest }) h
      exact Or.inr (Or.inr (Or.inr (Or.inl ⟨addr, text, rest, hp, hle, ht⟩)))
    | reset => cases h; exact Or.inr (Or.inr (Or.inr (Or.inr (Or.inl ⟨rest, hp, rfl⟩))))
    | regions rs => cases h; exact Or.inr (Or.inr (Or.inr (Or.inr (Or.inr ⟨rs, rest, hp, rfl⟩))))

end Sys2Proof.Machine
end

