-- ==== Sys2Proof/Laws/Rounding.lean ====
section
/-! SUPPORT. The values of a layout around one of them: the canonical form of a magnitude, its rounding interval as
rationals, and its neighbours (42_float_layout.md R153, 46_dispatcher.md R240). -/

namespace Sys2Proof.Machine

/-! ### The canonical form of a magnitude -/

/-- The largest exponent of a last place, that of the all-but-one exponent field. -/
theorem scale_le {l : Layout} {x : Quad} (h : nonFinite (classifyFloat l x) = false) :
    scale l x ≤ ((layoutRow l).emax : Int) - 1 - (layoutRow l).bias - (layoutRow l).fracWidth := by
  have he : (extractFloat l x).exponent < (layoutRow l).emax := by
    have hb : (extractFloat l x).exponent ≤ (layoutRow l).emax := by
      have := (x.extractLsb' (layoutRow l).expLo (layoutRow l).expWidth).isLt
      cases l <;> simp only [extractFloat, layoutRow] at this ⊢ <;> omega
    rcases Nat.lt_or_eq_of_le hb with h' | h'
    · exact h'
    · exfalso
      have h0 : (extractFloat l x).exponent ≠ 0 := by rw [h']; cases l <;> simp [layoutRow]
      unfold classifyFloat at h
      simp only [h'] at h
      have h1 : (layoutRow l).emax ≠ 0 := by cases l <;> simp [layoutRow]
      simp only [h1, if_false, if_true] at h
      split at h
      · simp [nonFinite] at h
      · split at h <;> simp [nonFinite] at h
  have h2 : 2 ≤ (layoutRow l).emax := by cases l <;> simp [layoutRow]
  simp only [scale, unbiased]
  omega

theorem leastScale_le (l : Layout) (x : Quad) : leastScale l ≤ scale l x := by
  simp only [leastScale, scale, unbiased]; omega

theorem precision_eq (l : Layout) : (layoutRow l).precision = (layoutRow l).fracWidth + 1 := by
  cases l <;> rfl

theorem significand_lt (l : Layout) (x : Quad) : significand l x < 2 ^ (layoutRow l).precision := by
  have hf : (extractFloat l x).fraction < 2 ^ (layoutRow l).fracWidth := by
    simpa [extractFloat] using (x.extractLsb' 0 (layoutRow l).fracWidth).isLt
  have hj : (extractFloat l x).intBit.toNat ≤ 1 := Bool.toNat_le _
  rw [precision_eq, pow_succ]
  simp only [significand]
  nlinarith

theorem floatMag_canonical (l : Layout) (x : Quad) :
    floatMag l x = (canonicalSig l x : ℚ) * (2 : ℚ) ^ canonicalExp l x := by
  simp only [floatMag, canonicalSig, canonicalExp, Nat.cast_mul, Nat.cast_pow, Nat.cast_ofNat]
  rw [zpow_sub₀ (by norm_num : (2 : ℚ) ≠ 0), zpow_natCast]
  field_simp

theorem leastScale_le_canonicalExp (l : Layout) (x : Quad) : leastScale l ≤ canonicalExp l x := by
  have h := leastScale_le l x
  have hs : canonicalShift l x ≤ (scale l x - leastScale l).toNat := by
    unfold canonicalShift; split <;> simp
  simp only [canonicalExp]; omega

theorem canonicalExp_le_scale (l : Layout) (x : Quad) : canonicalExp l x ≤ scale l x := by
  simp only [canonicalExp]; omega

theorem log2_le_precision {l : Layout} {x : Quad} (h : significand l x ≠ 0) :
    Nat.log2 (significand l x) ≤ (layoutRow l).precision - 1 := by
  have := (Nat.log2_lt h).2 (significand_lt l x)
  omega

theorem canonicalSig_lt (l : Layout) (x : Quad) : canonicalSig l x < 2 ^ (layoutRow l).precision := by
  by_cases h : significand l x = 0
  · simp [canonicalSig, h]
  · have hs : canonicalShift l x ≤ (layoutRow l).precision - 1 - Nat.log2 (significand l x) := by
      unfold canonicalShift; rw [if_neg h]; exact min_le_left _ _
    have hl := log2_le_precision h
    have hp := precision_eq l
    calc canonicalSig l x
        < 2 ^ (Nat.log2 (significand l x) + 1) * 2 ^ canonicalShift l x :=
          Nat.mul_lt_mul_of_pos_right Nat.lt_log2_self (by positivity)
      _ = 2 ^ (Nat.log2 (significand l x) + 1 + canonicalShift l x) := by rw [← pow_add]
      _ ≤ 2 ^ (layoutRow l).precision := Nat.pow_le_pow_right (by norm_num) (by omega)

/-- The canonical form has its top bit set or the least exponent. -/
theorem canonical_cases (l : Layout) (x : Quad) :
    canonicalExp l x = leastScale l ∨ 2 ^ ((layoutRow l).precision - 1) ≤ canonicalSig l x := by
  have hle := leastScale_le l x
  by_cases h : significand l x = 0
  · left; simp only [canonicalExp, canonicalShift, h, if_true]; omega
  · have hl := log2_le_precision h
    have hs : canonicalShift l x =
        min ((layoutRow l).precision - 1 - Nat.log2 (significand l x)) (scale l x - leastScale l).toNat := by
      unfold canonicalShift; rw [if_neg h]
    rcases le_total ((layoutRow l).precision - 1 - Nat.log2 (significand l x)) (scale l x - leastScale l).toNat with hm | hm
    · right
      rw [min_eq_left hm] at hs
      calc 2 ^ ((layoutRow l).precision - 1)
          = 2 ^ Nat.log2 (significand l x) * 2 ^ canonicalShift l x := by rw [← pow_add, hs]; congr 1; omega
        _ ≤ canonicalSig l x := Nat.mul_le_mul_right _ (Nat.log2_self_le h)
    · left
      rw [min_eq_right hm] at hs
      simp only [canonicalExp, hs]; omega

theorem canonicalSig_eq_zero {l : Layout} {x : Quad} : canonicalSig l x = 0 ↔ significand l x = 0 := by
  simp [canonicalSig]

/-! ### The rounding interval as rationals -/

theorem zpow_toNat {a : ℚ} (ha : a ≠ 0) (n : Int) : a ^ n.toNat = a ^ n * a ^ (-n).toNat := by
  rcases le_total 0 n with h | h
  · rw [Int.toNat_of_nonpos (by omega : -n ≤ 0), pow_zero, mul_one, ← zpow_natCast, Int.toNat_of_nonneg h]
  · rw [Int.toNat_of_nonpos h, pow_zero, ← zpow_natCast, Int.toNat_of_nonneg (by omega), ← zpow_add₀ ha]
    simp

/-- The common factor of the two sides of a comparison. -/
theorem decimalSide_cast (sig : Nat) (ex t : Int) : (decimalSide sig ex t : ℚ) =
    (sig : ℚ) * (10 : ℚ) ^ ex * ((2 : ℚ) ^ (-t).toNat * (10 : ℚ) ^ (-ex).toNat) := by
  simp only [decimalSide, Nat.cast_mul, Nat.cast_pow, Nat.cast_ofNat]
  rw [zpow_toNat (by norm_num) ex]; ring

theorem binarySide_cast (b : Nat) (ex t : Int) : (binarySide b ex t : ℚ) =
    (b : ℚ) * (2 : ℚ) ^ t * ((2 : ℚ) ^ (-t).toNat * (10 : ℚ) ^ (-ex).toNat) := by
  simp only [binarySide, Nat.cast_mul, Nat.cast_pow, Nat.cast_ofNat]
  rw [zpow_toNat (by norm_num) t]; ring

theorem binarySide_le {b sig : Nat} {ex t : Int} :
    binarySide b ex t ≤ decimalSide sig ex t ↔ (b : ℚ) * (2 : ℚ) ^ t ≤ (sig : ℚ) * (10 : ℚ) ^ ex := by
  rw [← Nat.cast_le (α := ℚ), binarySide_cast, decimalSide_cast]
  exact mul_le_mul_iff_of_pos_right (by positivity)

theorem decimalSide_le {b sig : Nat} {ex t : Int} :
    decimalSide sig ex t ≤ binarySide b ex t ↔ (sig : ℚ) * (10 : ℚ) ^ ex ≤ (b : ℚ) * (2 : ℚ) ^ t := by
  rw [← Nat.cast_le (α := ℚ), binarySide_cast, decimalSide_cast]
  exact mul_le_mul_iff_of_pos_right (by positivity)

/-- A rational in the rounding interval of x. -/
def InInterval (l : Layout) (x : Quad) (p : ℚ) : Prop :=
  if canonicalSig l x % 2 = 0 then
    (roundingLow l x : ℚ) * (2 : ℚ) ^ (canonicalExp l x - 2) ≤ p ∧ p ≤ (roundingHigh l x : ℚ) * (2 : ℚ) ^ (canonicalExp l x - 2)
  else
    (roundingLow l x : ℚ) * (2 : ℚ) ^ (canonicalExp l x - 2) < p ∧ p < (roundingHigh l x : ℚ) * (2 : ℚ) ^ (canonicalExp l x - 2)

theorem inRoundingInterval_iff {l : Layout} {x : Quad} {sig : Nat} {ex : Int} :
    inRoundingInterval l x sig ex = true ↔ InInterval l x ((sig : ℚ) * (10 : ℚ) ^ ex) := by
  unfold inRoundingInterval InInterval
  dsimp only
  split
  · simp only [Bool.and_eq_true, decide_eq_true_eq, binarySide_le, decimalSide_le]
  · simp only [Bool.and_eq_true, decide_eq_true_eq, ← not_le, binarySide_le, decimalSide_le]

/-- What lies between two members of a rounding interval is a member. -/
theorem InInterval.between {l : Layout} {x : Quad} {a b p : ℚ} (ha : InInterval l x a) (hb : InInterval l x b)
    (h1 : a ≤ p) (h2 : p ≤ b) : InInterval l x p := by
  unfold InInterval at *
  split at ha
  · rw [if_pos ‹_›] at hb ⊢; exact ⟨ha.1.trans h1, h2.trans hb.2⟩
  · rw [if_neg ‹_›] at hb ⊢; exact ⟨ha.1.trans_le h1, h2.trans_lt hb.2⟩

/-! ### Every value of the layout has a pattern -/

theorem field_ofNat (n lo w : Nat) (h : n < 2 ^ 128) :
    ((BitVec.ofNat 128 n).extractLsb' lo w).toNat = n / 2 ^ lo % 2 ^ w := by
  rw [BitVec.extractLsb'_toNat, BitVec.toNat_ofNat, Nat.mod_eq_of_lt h, Nat.shiftRight_eq_div_pow]

theorem bit_ofNat (n b : Nat) (h : n < 2 ^ 128) : (BitVec.ofNat 128 n).getLsbD b = decide (n / 2 ^ b % 2 = 1) := by
  rw [BitVec.getLsbD, BitVec.toNat_ofNat, Nat.mod_eq_of_lt h, Nat.testBit_eq_decide_div_mod_eq]

/-- A pattern of layout L from its fields. -/
def packFields (l : Layout) (sign : Bool) (e j f : Nat) : Nat :=
  f + (if l = .b80 then j * 2 ^ 63 else 0) + e * 2 ^ (layoutRow l).expLo
    + sign.toNat * 2 ^ (layoutRow l).signBit

/-- The fields of a packed pattern are those it was packed from. -/
theorem extract_packFields (l : Layout) (sign : Bool) (e j f : Nat) (he : e < (layoutRow l).emax) (hj : j ≤ 1)
    (hf : f < 2 ^ (layoutRow l).fracWidth) (hje : (layoutRow l).intBit = none → (j = 0 ↔ e = 0)) :
    extractFloat l (BitVec.ofNat 128 (packFields l sign e j f)) = ⟨sign, e, decide (j = 1), f⟩ := by
  have hs : sign.toNat ≤ 1 := Bool.toNat_le _
  have hsg : sign = decide (sign.toNat = 1) := by cases sign <;> rfl
  have hlt : packFields l sign e j f < 2 ^ 128 := by
    cases l <;> simp only [packFields, layoutRow, reduceCtorEq, if_true, if_false] at he hf ⊢ <;> omega
  simp only [extractFloat, field_ofNat _ _ _ hlt, bit_ofNat _ _ hlt, FloatFields.mk.injEq]
  refine ⟨?_, ?_, ?_, ?_⟩
  · rw [hsg, decide_eq_decide]
    cases l <;> simp only [packFields, layoutRow, reduceCtorEq, if_true, if_false] at he hf ⊢ <;> simp only [← hsg] <;> omega
  · cases l <;> simp only [packFields, layoutRow, reduceCtorEq, if_true, if_false] at he hf ⊢ <;> omega
  · cases l <;> simp only [packFields, layoutRow, forall_const, reduceCtorEq, false_imp_iff, if_true, if_false] at he hf hje ⊢
    · rw [bne, beq_eq_decide, ← decide_not, decide_eq_decide]; omega
    · rw [bne, beq_eq_decide, ← decide_not, decide_eq_decide]; omega
    · exact decide_eq_decide.2 (by omega)
    · rw [bne, beq_eq_decide, ← decide_not, decide_eq_decide]; omega
  · cases l <;> simp only [packFields, layoutRow, reduceCtorEq, if_true, if_false] at he hf ⊢ <;> omega

/-- Every canonical pair of a significand and an exponent is that of a finite pattern of either sign. -/
theorem exists_pattern (l : Layout) (m : Nat) (e : Int) (s : Bool) (hm : m < 2 ^ (layoutRow l).precision)
    (he : leastScale l ≤ e) (hE : e ≤ ((layoutRow l).emax : Int) - 1 - (layoutRow l).bias - (layoutRow l).fracWidth)
    (hc : e = leastScale l ∨ 2 ^ ((layoutRow l).precision - 1) ≤ m) :
    ∃ y, nonFinite (classifyFloat l y) = false ∧ floatVal l y = (if s then -1 else 1) * ((m : ℚ) * (2 : ℚ) ^ e) := by
  have hp := precision_eq l
  have hp1 : (layoutRow l).precision - 1 = (layoutRow l).fracWidth := by omega
  rw [hp1] at hc
  rw [hp, pow_succ] at hm
  have hpos : 0 < 2 ^ (layoutRow l).fracWidth := by positivity
  set W := 2 ^ (layoutRow l).fracWidth with hW
  set j := m / W with hj
  set f := m % W with hf
  have hmj : m = j * W + f := by rw [hj, hf, mul_comm]; exact (Nat.div_add_mod m W).symm
  have hj1 : j ≤ 1 := by
    have : m / W < 2 := Nat.div_lt_of_lt_mul (by omega)
    omega
  have hfl : f < W := Nat.mod_lt _ hpos
  set b := if j = 0 then 0 else (e - leastScale l + 1).toNat with hb
  have hj0 : j = 0 → e = leastScale l := by
    intro h0; rcases hc with h | h
    · exact h
    · have : 0 < m / W := Nat.div_pos h hpos
      omega
  have hb0 : j = 0 ↔ b = 0 := by rw [hb]; split <;> omega
  have hemax : 2 ≤ (layoutRow l).emax := by cases l <;> simp [layoutRow]
  have hbl : b < (layoutRow l).emax := by
    rw [hb]; simp only [leastScale] at *; split <;> omega
  have hx := extract_packFields l s b j f hbl hj1 hfl (fun _ => hb0)
  refine ⟨BitVec.ofNat 128 (packFields l s b j f), ?_, ?_⟩
  · unfold classifyFloat
    rw [hx]
    dsimp only
    split
    · split <;> rfl
    · rw [if_neg (by omega)]; rfl
  · have hsig : significand l (BitVec.ofNat 128 (packFields l s b j f)) = m := by
      simp only [significand, hx]
      rw [hmj]
      have : (decide (j = 1)).toNat = j := by rcases Nat.le_one_iff_eq_zero_or_eq_one.1 hj1 with h | h <;> simp [h]
      rw [this]
    have hsc : scale l (BitVec.ofNat 128 (packFields l s b j f)) = e := by
      simp only [scale, unbiased, hx]
      simp only [leastScale] at *
      by_cases h0 : j = 0
      · have := hj0 h0; have := hb0.1 h0; omega
      · have hb' : b = (e - (1 - ((layoutRow l).bias : Int) - ((layoutRow l).fracWidth : Int)) + 1).toNat := by
          rw [hb, if_neg h0]
        omega
    simp only [floatVal, floatMag, hsig, hsc, hx]
    cases s <;> simp

/-- The value at which rounding overflows, just above the largest finite value (46_dispatcher.md R240). -/
theorem overflow_eq (l : Layout) : (2 - (2 : ℚ) ^ (-((layoutRow l).precision : Int)))
      * (2 : ℚ) ^ (((layoutRow l).emax : Int) - 1 - ((layoutRow l).bias : Int)) =
    (4 * ((2 : ℚ) ^ (layoutRow l).precision - 1) + 2)
      * (2 : ℚ) ^ (((layoutRow l).emax : Int) - 1 - (layoutRow l).bias - (layoutRow l).fracWidth - 2) := by
  have e1 : ((layoutRow l).emax : Int) - 1 - ((layoutRow l).bias : Int) =
      (((layoutRow l).emax : Int) - 1 - (layoutRow l).bias - (layoutRow l).fracWidth - 2)
        + ((layoutRow l).precision : Int) + 1 := by
    have := precision_eq l; omega
  conv_lhs => rw [e1]
  rw [zpow_add₀ (by norm_num), zpow_add₀ (by norm_num), zpow_neg, zpow_natCast]
  have : (2 : ℚ) ^ (layoutRow l).precision ≠ 0 := by positivity
  field_simp
  ring

/-! ### The values of a layout around one of them -/

/-- A quarter of the last place of the canonical form of x. -/
def quarterPlace (l : Layout) (x : Quad) : ℚ := (2 : ℚ) ^ (canonicalExp l x - 2)

theorem quarterPlace_pos (l : Layout) (x : Quad) : 0 < quarterPlace l x := by unfold quarterPlace; positivity

theorem floatMag_quarters (l : Layout) (x : Quad) : floatMag l x = 4 * (canonicalSig l x : ℚ) * quarterPlace l x := by
  rw [floatMag_canonical, quarterPlace, zpow_sub₀ (by norm_num : (2 : ℚ) ≠ 0)]
  norm_num; ring

theorem floatMag_nonneg (l : Layout) (x : Quad) : 0 ≤ floatMag l x := by unfold floatMag; positivity

/-- A value is a multiple of the last place of x, or a good deal smaller than x. -/
theorem value_grid (l : Layout) (x y : Quad) :
    (∃ k : Nat, floatMag l y = (k : ℚ) * (4 * quarterPlace l x)) ∨
    (leastScale l < canonicalExp l x ∧ floatMag l y ≤ ((2 : ℚ) ^ (layoutRow l).precision - 1) * (2 * quarterPlace l x)) := by
  have h4 : 4 * quarterPlace l x = (2 : ℚ) ^ canonicalExp l x := by
    rw [quarterPlace, zpow_sub₀ (by norm_num : (2 : ℚ) ≠ 0)]; norm_num; ring
  rcases le_or_gt (canonicalExp l x) (scale l y) with h | h
  · left
    refine ⟨significand l y * 2 ^ (scale l y - canonicalExp l x).toNat, ?_⟩
    rw [h4, floatMag, Nat.cast_mul, Nat.cast_pow, Nat.cast_ofNat, mul_assoc, ← zpow_natCast, Int.toNat_of_nonneg (by omega),
      ← zpow_add₀ (by norm_num)]
    congr 2; ring
  · right
    refine ⟨(leastScale_le l y).trans_lt h, ?_⟩
    have h2 : 2 * quarterPlace l x = (2 : ℚ) ^ (canonicalExp l x - 1) := by
      rw [quarterPlace, zpow_sub₀ (by norm_num : (2 : ℚ) ≠ 0), zpow_sub₀ (by norm_num : (2 : ℚ) ≠ 0)]; norm_num; ring
    rw [h2, floatMag]
    have hs : (significand l y : ℚ) ≤ (2 : ℚ) ^ (layoutRow l).precision - 1 := by
      have := significand_lt l y
      have h' : significand l y + 1 ≤ 2 ^ (layoutRow l).precision := this
      have : ((significand l y + 1 : Nat) : ℚ) ≤ ((2 ^ (layoutRow l).precision : Nat) : ℚ) := Nat.cast_le.2 h'
      push_cast at this; linarith
    have he : (2 : ℚ) ^ scale l y ≤ (2 : ℚ) ^ (canonicalExp l x - 1) := zpow_le_zpow_right₀ (by norm_num) (by omega)
    exact mul_le_mul hs he (by positivity) (by linarith [(Nat.cast_nonneg (significand l y) : (0 : ℚ) ≤ _)])

/-- Above the least exponent the canonical significand has its top bit set. -/
theorem canonicalSig_ge {l : Layout} {x : Quad} (h : leastScale l < canonicalExp l x) :
    (2 : ℚ) ^ (layoutRow l).precision ≤ 2 * (canonicalSig l x : ℚ) := by
  have hm : 2 ^ ((layoutRow l).precision - 1) ≤ canonicalSig l x := by
    rcases canonical_cases l x with h' | h'
    · omega
    · exact h'
  have : ((2 ^ ((layoutRow l).precision - 1) : Nat) : ℚ) ≤ (canonicalSig l x : ℚ) := Nat.cast_le.2 hm
  have hp : (layoutRow l).precision = (layoutRow l).precision - 1 + 1 := by have := precision_eq l; omega
  rw [hp, pow_succ]
  push_cast at this; linarith

/-- The next value above x is a whole last place away. -/
theorem next_above {l : Layout} {x y : Quad} (h : floatMag l x < floatMag l y) :
    floatMag l x + 4 * quarterPlace l x ≤ floatMag l y := by
  have hu := quarterPlace_pos l x
  rcases value_grid l x y with ⟨k, hk⟩ | ⟨hE, hw⟩
  · rw [hk, floatMag_quarters] at h ⊢
    have : (canonicalSig l x : ℚ) < k := by nlinarith
    have : (canonicalSig l x : ℚ) + 1 ≤ k := by exact_mod_cast this
    nlinarith
  · have := canonicalSig_ge hE
    rw [floatMag_quarters] at h
    nlinarith

/-- The low end of the rounding interval, half way to the next value below. -/
theorem roundingLow_cast {l : Layout} {x : Quad} (h : canonicalSig l x ≠ 0) :
    ((roundingLow l x : ℚ) = 4 * canonicalSig l x - 1 ∧ canonicalSig l x = 2 ^ ((layoutRow l).precision - 1) ∧
      leastScale l < canonicalExp l x) ∨
    ((roundingLow l x : ℚ) = 4 * canonicalSig l x - 2 ∧
      ¬ (canonicalSig l x = 2 ^ ((layoutRow l).precision - 1) ∧ leastScale l < canonicalExp l x)) := by
  unfold roundingLow
  split
  · next hc => left; refine ⟨?_, hc⟩; rw [Nat.cast_sub (by omega)]; push_cast; ring
  · next hc => right; refine ⟨?_, hc⟩; rw [Nat.cast_sub (by omega)]; push_cast; ring

/-- The next value below x is at least twice as far away as the low end of the rounding interval. -/
theorem next_below {l : Layout} {x y : Quad} (h0 : canonicalSig l x ≠ 0) (h : floatMag l y < floatMag l x) :
    floatMag l y ≤ (2 * (roundingLow l x : ℚ) - 4 * canonicalSig l x) * quarterPlace l x := by
  have hu := quarterPlace_pos l x
  have hp : (2 : ℚ) ^ (layoutRow l).precision = 2 * (2 : ℚ) ^ ((layoutRow l).precision - 1) := by
    rw [← pow_succ']; congr 1; have := precision_eq l; omega
  rcases value_grid l x y with ⟨k, hk⟩ | ⟨hE, hw⟩
  · rw [hk, floatMag_quarters] at h
    rw [hk]
    have : (k : ℚ) < canonicalSig l x := by nlinarith
    have : (k : ℚ) + 1 ≤ canonicalSig l x := by exact_mod_cast this
    rcases roundingLow_cast h0 with ⟨hl, -⟩ | ⟨hl, -⟩ <;> rw [hl] <;> nlinarith
  · have hge := canonicalSig_ge hE
    rcases roundingLow_cast h0 with ⟨hl, hm, -⟩ | ⟨hl, hm⟩
    · have hmc : (canonicalSig l x : ℚ) = (2 : ℚ) ^ ((layoutRow l).precision - 1) := by rw [hm]; push_cast; rfl
      rw [hl]
      refine hw.trans (le_of_eq ?_)
      rw [hp, hmc]; ring
    · have hne : canonicalSig l x ≠ 2 ^ ((layoutRow l).precision - 1) := fun e => hm ⟨e, hE⟩
      have hgt : 2 ^ ((layoutRow l).precision - 1) + 1 ≤ canonicalSig l x := by
        rcases canonical_cases l x with h' | h'
        · omega
        · omega
      have : ((2 ^ ((layoutRow l).precision - 1) + 1 : Nat) : ℚ) ≤ (canonicalSig l x : ℚ) := Nat.cast_le.2 hgt
      push_cast at this
      rw [hl]
      nlinarith

theorem quarterPlace_four (l : Layout) (x : Quad) : (2 : ℚ) ^ canonicalExp l x = 4 * quarterPlace l x := by
  rw [quarterPlace, zpow_sub₀ (by norm_num : (2 : ℚ) ≠ 0)]; norm_num; ring

theorem one_le_two_pow_precision (l : Layout) : 1 ≤ 2 ^ ((layoutRow l).precision - 1) := Nat.one_le_two_pow

theorem two_pow_precision (l : Layout) : 2 ^ (layoutRow l).precision = 2 * 2 ^ ((layoutRow l).precision - 1) := by
  rw [← pow_succ']; congr 1; have := precision_eq l; omega

/-- The next value above x is finite, unless x is the largest one. -/
theorem exists_above {l : Layout} {x : Quad} (hf : nonFinite (classifyFloat l x) = false) :
    (∃ y, nonFinite (classifyFloat l y) = false ∧ floatVal l y = floatMag l x + 4 * quarterPlace l x) ∨
    (canonicalSig l x + 1 = 2 ^ (layoutRow l).precision ∧
      canonicalExp l x = ((layoutRow l).emax : Int) - 1 - (layoutRow l).bias - (layoutRow l).fracWidth) := by
  have hE := (canonicalExp_le_scale l x).trans (scale_le hf)
  have hle := leastScale_le_canonicalExp l x
  have hP := two_pow_precision l
  have h1 := one_le_two_pow_precision l
  by_cases hm : canonicalSig l x + 1 < 2 ^ (layoutRow l).precision
  · left
    obtain ⟨y, hy, hv⟩ := exists_pattern l (canonicalSig l x + 1) (canonicalExp l x) false hm hle hE
      ((canonical_cases l x).imp_right fun h => h.trans (Nat.le_succ _))
    refine ⟨y, hy, ?_⟩
    rw [hv, quarterPlace_four, floatMag_quarters]; push_cast; ring
  · have hm' : canonicalSig l x + 1 = 2 ^ (layoutRow l).precision := by have := canonicalSig_lt l x; omega
    rcases Int.lt_or_eq_of_le hE with h | h
    · left
      obtain ⟨y, hy, hv⟩ := exists_pattern l (2 ^ ((layoutRow l).precision - 1)) (canonicalExp l x + 1) false (by omega)
        (by omega) (by omega) (Or.inr le_rfl)
      refine ⟨y, hy, ?_⟩
      have hc : (canonicalSig l x : ℚ) + 1 = 2 * (2 : ℚ) ^ ((layoutRow l).precision - 1) := by
        have : ((canonicalSig l x + 1 : Nat) : ℚ) = ((2 * 2 ^ ((layoutRow l).precision - 1) : Nat) : ℚ) := by rw [hm', hP]
        push_cast at this; exact this
      rw [hv, zpow_add₀ (by norm_num), quarterPlace_four, floatMag_quarters]; push_cast
      linear_combination (-4 * quarterPlace l x) * hc
    · exact Or.inr ⟨hm', h⟩

/-- The next value below a positive x is finite, and the low end of the rounding interval is half way to it. -/
theorem exists_below {l : Layout} {x : Quad} (hf : nonFinite (classifyFloat l x) = false) (h0 : canonicalSig l x ≠ 0) :
    ∃ y, nonFinite (classifyFloat l y) = false ∧
      floatVal l y = (2 * (roundingLow l x : ℚ) - 4 * canonicalSig l x) * quarterPlace l x := by
  have hE := (canonicalExp_le_scale l x).trans (scale_le hf)
  have hle := leastScale_le_canonicalExp l x
  have hP := two_pow_precision l
  have h1 := one_le_two_pow_precision l
  have hlt := canonicalSig_lt l x
  rcases roundingLow_cast h0 with ⟨hl, hm, hE'⟩ | ⟨hl, hn⟩
  · obtain ⟨y, hy, hv⟩ := exists_pattern l (2 ^ (layoutRow l).precision - 1) (canonicalExp l x - 1) false (by omega)
      (by omega) (by omega) (Or.inr (by omega))
    refine ⟨y, hy, ?_⟩
    have hc : ((2 ^ (layoutRow l).precision - 1 : Nat) : ℚ) = 2 * (canonicalSig l x : ℚ) - 1 := by
      rw [Nat.cast_sub (by omega), hP, hm]; push_cast; ring
    rw [hv, hc, hl, zpow_sub₀ (by norm_num), quarterPlace_four]
    simp only [Bool.false_eq_true, if_false, zpow_one]; ring
  · obtain ⟨y, hy, hv⟩ := exists_pattern l (canonicalSig l x - 1) (canonicalExp l x) false (by omega) hle hE
      (by
        rcases canonical_cases l x with h | h
        · exact Or.inl h
        · rcases Int.lt_or_eq_of_le hle with h' | h'
          · have : canonicalSig l x ≠ 2 ^ ((layoutRow l).precision - 1) := fun e => hn ⟨e, h'⟩
            exact Or.inr (by omega)
          · exact Or.inl h'.symm)
    refine ⟨y, hy, ?_⟩
    rw [hv, quarterPlace_four, hl, Nat.cast_sub (by omega)]
    simp only [Bool.false_eq_true, if_false]; push_cast; ring

/-- The high end of the rounding interval is not past the point of overflow, and at it only for the largest value, whose
significand is odd. -/
theorem roundingHigh_overflow {l : Layout} {x : Quad} (hf : nonFinite (classifyFloat l x) = false) :
    (4 * (canonicalSig l x : ℚ) + 2) * quarterPlace l x ≤ (2 - (2 : ℚ) ^ (-((layoutRow l).precision : Int)))
      * (2 : ℚ) ^ (((layoutRow l).emax : Int) - 1 - ((layoutRow l).bias : Int)) ∧
    (canonicalSig l x % 2 = 0 → (4 * (canonicalSig l x : ℚ) + 2) * quarterPlace l x <
      (2 - (2 : ℚ) ^ (-((layoutRow l).precision : Int)))
        * (2 : ℚ) ^ (((layoutRow l).emax : Int) - 1 - ((layoutRow l).bias : Int))) := by
  rw [overflow_eq]
  have hE := (canonicalExp_le_scale l x).trans (scale_le hf)
  have hu : quarterPlace l x ≤
      (2 : ℚ) ^ (((layoutRow l).emax : Int) - 1 - (layoutRow l).bias - (layoutRow l).fracWidth - 2) :=
    zpow_le_zpow_right₀ (by norm_num) (by omega)
  have hpos := quarterPlace_pos l x
  have hlt := canonicalSig_lt l x
  have hP := two_pow_precision l
  have hm : (canonicalSig l x : ℚ) + 1 ≤ (2 : ℚ) ^ (layoutRow l).precision := by
    have : ((canonicalSig l x + 1 : Nat) : ℚ) ≤ ((2 ^ (layoutRow l).precision : Nat) : ℚ) := Nat.cast_le.2 hlt
    push_cast at this; exact this
  have hm0 : (0 : ℚ) ≤ (canonicalSig l x : ℚ) := Nat.cast_nonneg _
  refine ⟨mul_le_mul (by linarith) hu hpos.le (by linarith), fun heven => ?_⟩
  have hlt' : (canonicalSig l x : ℚ) + 1 < (2 : ℚ) ^ (layoutRow l).precision := by
    have hne : canonicalSig l x + 1 < 2 ^ (layoutRow l).precision := by omega
    have : ((canonicalSig l x + 1 : Nat) : ℚ) < ((2 ^ (layoutRow l).precision : Nat) : ℚ) := Nat.cast_lt.2 hne
    push_cast at this; exact this
  exact mul_lt_mul (by linarith) hu hpos (by linarith)

/-- At the largest value the high end of the rounding interval is the point of overflow. -/
theorem roundingHigh_largest {l : Layout} {x : Quad} (hm : canonicalSig l x + 1 = 2 ^ (layoutRow l).precision)
    (hE : canonicalExp l x = ((layoutRow l).emax : Int) - 1 - (layoutRow l).bias - (layoutRow l).fracWidth) :
    (2 - (2 : ℚ) ^ (-((layoutRow l).precision : Int)))
      * (2 : ℚ) ^ (((layoutRow l).emax : Int) - 1 - ((layoutRow l).bias : Int)) =
    (4 * (canonicalSig l x : ℚ) + 2) * quarterPlace l x := by
  rw [overflow_eq, quarterPlace, hE]
  have : ((canonicalSig l x + 1 : Nat) : ℚ) = ((2 ^ (layoutRow l).precision : Nat) : ℚ) := by rw [hm]
  push_cast at this
  rw [← this]; ring

end Sys2Proof.Machine
end

