-- ==== Sys2Proof/Laws/RoundTrip.lean ====
section
/-! SUPPORT. Reading back (46_dispatcher.md R240): the rounding interval the model computes with is exactly what "parses
back" means over the values of a layout (Safety.lean). -/

namespace Sys2Proof.Machine

/-! ### Reading back is rounding to nearest -/

theorem floatVal_eq (l : Layout) (y : Quad) : floatVal l y = floatMag l y ∨ floatVal l y = -floatMag l y := by
  unfold floatVal; split
  · exact Or.inr rfl
  · exact Or.inl rfl

/-- With every finite pattern there is one of the opposite value. -/
theorem exists_neg {l : Layout} {y : Quad} (hf : nonFinite (classifyFloat l y) = false) :
    ∃ z, nonFinite (classifyFloat l z) = false ∧ floatVal l z = -floatVal l y := by
  obtain ⟨z, hz, hv⟩ := exists_pattern l (canonicalSig l y) (canonicalExp l y) (!(extractFloat l y).sign)
    (canonicalSig_lt l y) (leastScale_le_canonicalExp l y) ((canonicalExp_le_scale l y).trans (scale_le hf))
    (canonical_cases l y)
  refine ⟨z, hz, ?_⟩
  rw [hv, ← floatMag_canonical]
  unfold floatVal
  cases (extractFloat l y).sign <;> simp

/-- `p` rounds, to nearest and ties to even and without overflow, to the magnitude of x. -/
def RoundsTo (l : Layout) (x : Quad) (p : ℚ) : Prop :=
  (∀ y, nonFinite (classifyFloat l y) = false → |p - floatMag l x| ≤ |p - floatVal l y|) ∧
  (∀ y, nonFinite (classifyFloat l y) = false → floatVal l y ≠ floatMag l x →
    |p - floatVal l y| = |p - floatMag l x| → canonicalSig l x % 2 = 0) ∧
  |p| < (2 - (2 : ℚ) ^ (-((layoutRow l).precision : Int)))
      * (2 : ℚ) ^ (((layoutRow l).emax : Int) - 1 - ((layoutRow l).bias : Int))

/-- What parses back to x rounds, its sign taken off, to the magnitude of x. -/
theorem parsesBack_iff_roundsTo {l : Layout} {x : Quad} {q : ℚ} (hf : nonFinite (classifyFloat l x) = false) :
    parsesBack l q x ↔ RoundsTo l x (if (extractFloat l x).sign then -q else q) := by
  unfold parsesBack RoundsTo floatVal
  cases hs : (extractFloat l x).sign
  · simp only [hf, true_and, Bool.false_eq_true, if_false]
  · simp only [hf, true_and, if_true, abs_neg]
    have e1 : ∀ w : ℚ, |-q - w| = |q - -w| := fun w => by rw [← abs_neg]; congr 1; ring
    constructor
    · rintro ⟨h1, h2, h3⟩
      refine ⟨fun y hy => ?_, fun y hy hne ht => ?_, h3⟩
      · obtain ⟨z, hz, hv⟩ := exists_neg hy
        have := h1 z hz
        change |q - -floatMag l x| ≤ |q - floatVal l z| at this
        change |-q - floatMag l x| ≤ |-q - floatVal l y|
        rw [e1, e1, ← hv]; exact this
      · obtain ⟨z, hz, hv⟩ := exists_neg hy
        change floatVal l y ≠ floatMag l x at hne
        change |-q - floatVal l y| = |-q - floatMag l x| at ht
        refine h2 z hz ?_ ?_
        · change floatVal l z ≠ -floatMag l x
          rw [hv]; exact fun e => hne (neg_injective e)
        · change |q - floatVal l z| = |q - -floatMag l x|
          rw [hv, ← e1, ← e1]; exact ht
    · rintro ⟨h1, h2, h3⟩
      refine ⟨fun y hy => ?_, fun y hy hne ht => ?_, h3⟩
      · obtain ⟨z, hz, hv⟩ := exists_neg hy
        have := h1 z hz
        change |-q - floatMag l x| ≤ |-q - floatVal l z| at this
        change |q - -floatMag l x| ≤ |q - floatVal l y|
        rw [e1, e1, hv, neg_neg] at this; exact this
      · obtain ⟨z, hz, hv⟩ := exists_neg hy
        change floatVal l y ≠ -floatMag l x at hne
        change |q - floatVal l y| = |q - -floatMag l x| at ht
        refine h2 z hz ?_ ?_
        · change floatVal l z ≠ floatMag l x
          rw [hv]; exact fun e => hne (by rw [← e, neg_neg])
        · change |-q - floatVal l z| = |-q - floatMag l x|
          rw [e1, e1, hv, neg_neg]; exact ht

theorem roundingLow_pos {l : Layout} {x : Quad} (h : canonicalSig l x ≠ 0) : 0 < (roundingLow l x : ℚ) := by
  have : 0 < roundingLow l x := by unfold roundingLow; split <;> omega
  exact_mod_cast this

theorem InInterval.nonneg {l : Layout} {x : Quad} {p : ℚ} (h : InInterval l x p) : 0 ≤ p := by
  have h0 : (0 : ℚ) ≤ (roundingLow l x : ℚ) * (2 : ℚ) ^ (canonicalExp l x - 2) := by positivity
  unfold InInterval at h
  split at h
  · exact h0.trans h.1
  · exact h0.trans h.1.le

/-- Membership in the rounding interval of a positive magnitude, its ends written as distances from the magnitude. -/
theorem inInterval_iff {l : Layout} {x : Quad} {p : ℚ} : InInterval l x p ↔
    if canonicalSig l x % 2 = 0 then
      (roundingLow l x : ℚ) * quarterPlace l x ≤ p ∧ p ≤ floatMag l x + 2 * quarterPlace l x
    else (roundingLow l x : ℚ) * quarterPlace l x < p ∧ p < floatMag l x + 2 * quarterPlace l x := by
  have hh : ((roundingHigh l x : Nat) : ℚ) * (2 : ℚ) ^ (canonicalExp l x - 2) = floatMag l x + 2 * quarterPlace l x := by
    rw [floatMag_quarters, quarterPlace]; simp only [roundingHigh]; push_cast; ring
  unfold InInterval
  rw [hh]; rfl

theorem roundingLow_lt {l : Layout} {x : Quad} (h0 : canonicalSig l x ≠ 0) :
    (roundingLow l x : ℚ) * quarterPlace l x < floatMag l x := by
  have hlow : (roundingLow l x : ℚ) < 4 * canonicalSig l x := by
    rcases roundingLow_cast h0 with ⟨hl, -⟩ | ⟨hl, -⟩ <;> rw [hl] <;> linarith
  rw [floatMag_quarters]
  exact mul_lt_mul_of_pos_right hlow (quarterPlace_pos l x)

/-- A value other than x lies at least twice as far from x as the end of the rounding interval on its side. -/
theorem outside_cases {l : Layout} {x : Quad} (h0 : canonicalSig l x ≠ 0) (y : Quad) :
    floatVal l y = floatMag l x ∨ floatMag l x + 4 * quarterPlace l x ≤ floatVal l y ∨
    floatVal l y ≤ 2 * ((roundingLow l x : ℚ) * quarterPlace l x) - floatMag l x := by
  have e : (2 * (roundingLow l x : ℚ) - 4 * canonicalSig l x) * quarterPlace l x =
      2 * ((roundingLow l x : ℚ) * quarterPlace l x) - floatMag l x := by rw [floatMag_quarters]; ring
  have h1 : (1 : ℚ) ≤ canonicalSig l x := by exact_mod_cast Nat.one_le_iff_ne_zero.2 h0
  have hpos : 0 ≤ (2 * (roundingLow l x : ℚ) - 4 * canonicalSig l x) * quarterPlace l x := by
    rcases roundingLow_cast h0 with ⟨hl, -⟩ | ⟨hl, -⟩ <;> rw [hl] <;>
      exact mul_nonneg (by linarith) (quarterPlace_pos l x).le
  rw [← e]
  rcases floatVal_eq l y with hy | hy
  · rw [hy]
    rcases lt_trichotomy (floatMag l y) (floatMag l x) with hlt | heq | hgt
    · exact Or.inr (Or.inr (next_below h0 hlt))
    · exact Or.inl heq
    · exact Or.inr (Or.inl (next_above hgt))
  · right; right; rw [hy]; linarith [floatMag_nonneg l y]

/-- What lies in the rounding interval of a magnitude rounds to it. -/
theorem RoundsTo.of_inInterval {l : Layout} {x : Quad} {p : ℚ} (hf : nonFinite (classifyFloat l x) = false)
    (h0 : canonicalSig l x ≠ 0) (h : InInterval l x p) : RoundsTo l x p := by
  have hu := quarterPlace_pos l x
  have hp0 := h.nonneg
  have hlow := roundingLow_lt h0
  rw [inInterval_iff] at h
  have hbounds : (roundingLow l x : ℚ) * quarterPlace l x ≤ p ∧ p ≤ floatMag l x + 2 * quarterPlace l x := by
    split at h
    · exact h
    · exact ⟨h.1.le, h.2.le⟩
  have hno := roundingHigh_overflow (l := l) (x := x) hf
  rw [show (4 * (canonicalSig l x : ℚ) + 2) * quarterPlace l x = floatMag l x + 2 * quarterPlace l x by
    rw [floatMag_quarters]; ring] at hno
  obtain ⟨hb1, hb2⟩ := hbounds
  refine ⟨fun y _ => ?_, fun y _ hne ht => ?_, ?_⟩
  · rcases outside_cases h0 y with hy | hy | hy
    · rw [hy]
    · rw [abs_of_nonpos (by linarith : p - floatVal l y ≤ 0), abs_le]; constructor <;> linarith
    · rw [abs_of_nonneg (by linarith : 0 ≤ p - floatVal l y), abs_le]; constructor <;> linarith
  · by_contra hodd
    rw [if_neg hodd] at h
    rcases outside_cases h0 y with hy | hy | hy
    · exact hne hy
    · rw [abs_of_nonpos (by linarith : p - floatVal l y ≤ 0)] at ht
      cases abs_cases (p - floatMag l x) <;> linarith
    · rw [abs_of_nonneg (by linarith : 0 ≤ p - floatVal l y)] at ht
      cases abs_cases (p - floatMag l x) <;> linarith
  · rw [abs_of_nonneg hp0]
    by_cases heven : canonicalSig l x % 2 = 0
    · exact hb2.trans_lt (hno.2 heven)
    · rw [if_neg heven] at h
      exact h.2.trans_le hno.1

/-- What rounds to a positive magnitude lies in its rounding interval. -/
theorem RoundsTo.inInterval {l : Layout} {x : Quad} {p : ℚ} (hf : nonFinite (classifyFloat l x) = false)
    (h0 : canonicalSig l x ≠ 0) (h : RoundsTo l x p) : InInterval l x p := by
  obtain ⟨h1, h2, h3⟩ := h
  have hu := quarterPlace_pos l x
  have hlow := roundingLow_lt h0
  obtain ⟨z, hz, hzv⟩ := exists_below hf h0
  rw [show (2 * (roundingLow l x : ℚ) - 4 * canonicalSig l x) * quarterPlace l x =
      2 * ((roundingLow l x : ℚ) * quarterPlace l x) - floatMag l x by rw [floatMag_quarters]; ring] at hzv
  have hbelow : (roundingLow l x : ℚ) * quarterPlace l x ≤ p := by
    have := h1 z hz
    by_contra hc
    rw [abs_of_neg (by linarith : p - floatMag l x < 0), hzv] at this
    cases abs_cases (p - (2 * ((roundingLow l x : ℚ) * quarterPlace l x) - floatMag l x)) <;> linarith
  have hp : |p| = p := abs_of_nonneg (le_trans (mul_nonneg (Nat.cast_nonneg _) hu.le) hbelow)
  rw [hp] at h3
  have hlargest : (4 * (canonicalSig l x : ℚ) + 2) * quarterPlace l x = floatMag l x + 2 * quarterPlace l x := by
    rw [floatMag_quarters]; ring
  have habove : p ≤ floatMag l x + 2 * quarterPlace l x := by
    rcases exists_above hf with ⟨y, hy, hyv⟩ | ⟨hm, hE⟩
    · have := h1 y hy
      by_contra hc
      rw [abs_of_pos (by linarith : 0 < p - floatMag l x), hyv] at this
      cases abs_cases (p - (floatMag l x + 4 * quarterPlace l x)) <;> linarith
    · rw [roundingHigh_largest hm hE, hlargest] at h3; exact h3.le
  rw [inInterval_iff]
  split
  · exact ⟨hbelow, habove⟩
  · next hodd =>
    refine ⟨lt_of_le_of_ne hbelow fun e => hodd ?_, lt_of_le_of_ne habove fun e => ?_⟩
    · refine h2 z hz (by linarith) ?_
      rw [hzv, ← e, abs_of_nonneg (by linarith), abs_of_nonpos (by linarith)]; ring
    · rcases exists_above hf with ⟨y, hy, hyv⟩ | ⟨hm, hE⟩
      · refine hodd (h2 y hy (by linarith) ?_)
        rw [hyv, e, abs_of_nonpos (by linarith), abs_of_nonneg (by linarith)]; ring
      · rw [roundingHigh_largest hm hE, hlargest] at h3; exact absurd e h3.ne

/-- Zero is rounded to by what is at most half a least place away from it. -/
theorem roundsTo_zero {l : Layout} {x : Quad} {p : ℚ} (hf : nonFinite (classifyFloat l x) = false)
    (h0 : canonicalSig l x = 0) : RoundsTo l x p ↔ InInterval l x |p| := by
  have hu := quarterPlace_pos l x
  have hv : floatMag l x = 0 := by rw [floatMag_quarters, h0]; simp
  have hI : InInterval l x |p| ↔ |p| ≤ 2 * quarterPlace l x := by
    have hl : roundingLow l x = 0 := by unfold roundingLow; rw [h0]; split <;> rfl
    have hh : roundingHigh l x = 2 := by simp [roundingHigh, h0]
    unfold InInterval
    rw [h0, hl, hh]
    simp only [Nat.zero_mod, if_true, Nat.cast_zero, zero_mul, abs_nonneg, true_and, Nat.cast_ofNat]
    rfl
  have hover := (roundingHigh_overflow (l := l) (x := x) hf).2 (by rw [h0])
  rw [h0] at hover
  rw [hI]
  constructor
  · rintro ⟨h1, -, -⟩
    rw [hv] at h1
    rcases exists_above hf with ⟨y, hy, hyv⟩ | ⟨hm, -⟩
    · obtain ⟨z, hz, hzv⟩ := exists_neg hy
      have hy1 := h1 y hy
      have hz1 := h1 z hz
      rw [hv] at hyv
      rw [hzv, hyv] at hz1
      rw [hyv] at hy1
      by_contra hc
      cases abs_cases (p - 0) <;> cases abs_cases (p - (0 + 4 * quarterPlace l x)) <;>
        cases abs_cases (p - -(0 + 4 * quarterPlace l x)) <;> cases abs_cases p <;> linarith
    · exfalso
      have := two_pow_precision l
      have := one_le_two_pow_precision l
      omega
  · intro h
    refine ⟨fun y _ => ?_, fun y _ _ _ => by rw [h0], lt_of_le_of_lt h (by simpa using hover)⟩
    rw [hv, sub_zero]
    have hy : floatMag l y = 0 ∨ 4 * quarterPlace l x ≤ floatMag l y := by
      rcases (floatMag_nonneg l y).eq_or_lt with h' | h'
      · exact Or.inl h'.symm
      · right; have := next_above (l := l) (x := x) (y := y) (by rw [hv]; exact h'); rw [hv] at this; linarith
    rcases hy with hy | hy <;> rcases floatVal_eq l y with he | he <;> rw [he]
    · rw [hy, sub_zero]
    · rw [hy, neg_zero, sub_zero]
    · cases abs_cases p <;> cases abs_cases (p - floatMag l y) <;> linarith
    · cases abs_cases p <;> cases abs_cases (p - -floatMag l y) <;> linarith

theorem decompValue_eq (d : Decomp) :
    decompValue d = (if d.neg then -1 else 1) * ((d.sig : ℚ) * (10 : ℚ) ^ d.ex) := by
  unfold decompValue; split <;> ring

/-- The model's test of reading back is the statement of it: the decimal rounds, to nearest and ties to even, to the
value of x (46_dispatcher.md R240, log 22). -/
theorem readsBack_iff {l : Layout} {x : Quad} {d : Decomp} (hf : nonFinite (classifyFloat l x) = false) :
    readsBack l x d = true ↔ parsesBack l (decompValue d) x := by
  have hq : (0 : ℚ) ≤ (d.sig : ℚ) * (10 : ℚ) ^ d.ex := by positivity
  rw [parsesBack_iff_roundsTo hf]
  unfold readsBack
  rw [Bool.and_eq_true, inRoundingInterval_iff]
  by_cases h0 : canonicalSig l x = 0
  · rw [roundsTo_zero hf h0]
    have habs : |if (extractFloat l x).sign = true then -decompValue d else decompValue d| =
        (d.sig : ℚ) * (10 : ℚ) ^ d.ex := by
      have : |decompValue d| = (d.sig : ℚ) * (10 : ℚ) ^ d.ex := by
        unfold decompValue; split
        · rw [abs_neg, abs_of_nonneg hq]
        · exact abs_of_nonneg hq
      split
      · rw [abs_neg, this]
      · exact this
    rw [habs]
    simp [canonicalSig_eq_zero.1 h0]
  · have h0' : significand l x ≠ 0 := fun e => h0 (canonicalSig_eq_zero.2 e)
    have hr : RoundsTo l x (if (extractFloat l x).sign = true then -decompValue d else decompValue d) ↔
        InInterval l x (if (extractFloat l x).sign = true then -decompValue d else decompValue d) :=
      ⟨fun h => h.inInterval hf h0, fun h => RoundsTo.of_inInterval hf h0 h⟩
    rw [hr]
    simp only [h0', decide_false, Bool.false_or, decide_eq_true_eq]
    by_cases hs : d.neg = (extractFloat l x).sign
    · have : (if (extractFloat l x).sign = true then -decompValue d else decompValue d) =
          (d.sig : ℚ) * (10 : ℚ) ^ d.ex := by
        rw [← hs]; unfold decompValue; split <;> simp
      rw [this]; simp [hs]
    · have : (if (extractFloat l x).sign = true then -decompValue d else decompValue d) =
          -((d.sig : ℚ) * (10 : ℚ) ^ d.ex) := by
        unfold decompValue
        cases hd : d.neg <;> cases hx : (extractFloat l x).sign <;> simp_all
      rw [this]
      simp only [hs, false_and, false_iff]
      intro h
      have hlo := mul_pos (roundingLow_pos h0) (quarterPlace_pos l x)
      unfold InInterval at h
      unfold quarterPlace at hlo
      split at h
      · linarith [h.1]
      · linarith [h.1]

end Sys2Proof.Machine
end

