-- ==== Sys2Proof/Laws/Shortest.lean ====
section
/-! SUPPORT. The search for a decimal with the fewest digits that parses back (46_dispatcher.md R240): what it finds. -/

namespace Sys2Proof.Machine

/-! ### The shortest decimal -/

/-- A quotient of two products, as the model computes it, is the magnitude in units of 10^j. -/
theorem multipleBelow_bounds (l : Layout) (x : Quad) (j : Int) :
    (multipleBelow l x j : ℚ) * (10 : ℚ) ^ j ≤ floatMag l x ∧ floatMag l x < ((multipleBelow l x j : ℚ) + 1) * (10 : ℚ) ^ j := by
  set N := significand l x * 2 ^ (scale l x).toNat * 10 ^ (-j).toNat with hN
  set D := 2 ^ (-scale l x).toNat * 10 ^ j.toNat with hD
  have hDpos : 0 < D := by positivity
  have hmag : (N : ℚ) = floatMag l x / (10 : ℚ) ^ j * D := by
    rw [hN, hD]; push_cast
    rw [zpow_toNat (by norm_num : (2 : ℚ) ≠ 0) (scale l x), zpow_toNat (by norm_num : (10 : ℚ) ≠ 0) j, floatMag]
    field_simp
  have hlo : N / D * D ≤ N := Nat.div_mul_le_self N D
  have hhi : N < (N / D + 1) * D := by rw [mul_comm]; exact Nat.lt_mul_div_succ N hDpos
  have hlo' : ((N / D : Nat) : ℚ) * D ≤ N := by exact_mod_cast hlo
  have hhi' : (N : ℚ) < (((N / D : Nat) : ℚ) + 1) * D := by exact_mod_cast hhi
  rw [hmag] at hlo' hhi'
  have hDq : (0 : ℚ) < D := by exact_mod_cast hDpos
  have h10 : (0 : ℚ) < (10 : ℚ) ^ j := by positivity
  have e : multipleBelow l x j = N / D := rfl
  rw [e]
  exact ⟨(le_div_iff₀ h10).1 (le_of_mul_le_mul_right hlo' hDq), (div_lt_iff₀ h10).1 (lt_of_mul_lt_mul_right hhi' hDq.le)⟩

/-- Where the magnitude is a multiple of 10^j, `multipleBelow` is that multiple. -/
theorem multipleBelow_exact {l : Layout} {x : Quad} {j : Int} (h1 : j ≤ 0) (h2 : j ≤ scale l x) :
    (multipleBelow l x j : ℚ) * (10 : ℚ) ^ j = floatMag l x := by
  have hex : ∃ k : Nat, floatMag l x = (k : ℚ) * (10 : ℚ) ^ j := by
    refine ⟨significand l x * 2 ^ (scale l x - j).toNat * 5 ^ (-j).toNat, ?_⟩
    have e5 : ((5 : ℚ)) ^ (-j).toNat * (10 : ℚ) ^ j = (2 : ℚ) ^ j := by
      rw [← zpow_natCast, Int.toNat_of_nonneg (by omega), show (10 : ℚ) = 5 * 2 by norm_num, mul_zpow, ← mul_assoc,
        ← zpow_add₀ (by norm_num)]
      simp
    push_cast
    rw [mul_assoc, e5, mul_assoc, ← zpow_natCast, Int.toNat_of_nonneg (by omega), ← zpow_add₀ (by norm_num), floatMag]
    congr 2; ring
  obtain ⟨k, hk⟩ := hex
  obtain ⟨hlo, hhi⟩ := multipleBelow_bounds l x j
  have h10 : (0 : ℚ) < (10 : ℚ) ^ j := by positivity
  rw [hk] at hlo hhi ⊢
  have a := le_of_mul_le_mul_right hlo h10
  have b := lt_of_mul_lt_mul_right hhi h10.le
  have a' : multipleBelow l x j ≤ k := by exact_mod_cast a
  have b' : k < multipleBelow l x j + 1 := by exact_mod_cast b
  have : multipleBelow l x j = k := by omega
  rw [this]

/-- A magnitude lies in its own rounding interval. -/
theorem floatMag_inInterval {l : Layout} {x : Quad} (h0 : canonicalSig l x ≠ 0) : InInterval l x (floatMag l x) := by
  have hu := quarterPlace_pos l x
  have hlow : (roundingLow l x : ℚ) ≤ 4 * canonicalSig l x - 1 := by
    rcases roundingLow_cast h0 with ⟨hl, -⟩ | ⟨hl, -⟩ <;> rw [hl] <;> linarith
  have hh : ((roundingHigh l x : Nat) : ℚ) = 4 * (canonicalSig l x : ℚ) + 2 := by simp [roundingHigh]
  have hlt : (roundingLow l x : ℚ) * quarterPlace l x < floatMag l x := by rw [floatMag_quarters]; nlinarith
  have hgt : floatMag l x < (roundingHigh l x : ℚ) * quarterPlace l x := by rw [hh, floatMag_quarters]; nlinarith
  unfold InInterval
  split
  · exact ⟨hlt.le, hgt.le⟩
  · exact ⟨hlt, hgt⟩

theorem readsBack_sameSign {l : Layout} {x : Quad} {c : Nat} {j : Int} :
    readsBack l x ⟨c, j, (extractFloat l x).sign⟩ = true ↔ InInterval l x ((c : ℚ) * (10 : ℚ) ^ j) := by
  unfold readsBack
  simp [inRoundingInterval_iff]

/-- What `decimalAt` answers: a multiple of 10^j that parses back, or that there is none. -/
theorem decimalAt_some {l : Layout} {x : Quad} {j : Int} {d : Decomp} (h : decimalAt l x j = some d) :
    readsBack l x d = true ∧ d.ex = j ∧ d.neg = (extractFloat l x).sign := by
  unfold decimalAt at h
  dsimp only at h
  split at h
  · cases h; exact ⟨‹_›, rfl, rfl⟩
  · split at h
    · cases h; exact ⟨‹_›, rfl, rfl⟩
    · cases h

theorem decimalAt_none {l : Layout} {x : Quad} {j : Int} (h0 : canonicalSig l x ≠ 0) (h : decimalAt l x j = none)
    (k : Nat) : ¬ InInterval l x ((k : ℚ) * (10 : ℚ) ^ j) := by
  have h10 : (0 : ℚ) < (10 : ℚ) ^ j := by positivity
  obtain ⟨hlo, hhi⟩ := multipleBelow_bounds l x j
  have hmag := floatMag_inInterval h0
  unfold decimalAt at h
  dsimp only at h
  split at h
  · cases h
  · next hc =>
    split at h
    · cases h
    · next hc1 =>
      rw [readsBack_sameSign] at hc hc1
      intro hk
      rcases Nat.lt_or_ge (multipleBelow l x j) k with hlt | hge
      · refine hc1 (hmag.between hk ?_ ?_)
        · push_cast; exact hhi.le
        · exact mul_le_mul_of_nonneg_right (by exact_mod_cast hlt) h10.le
      · refine hc (hk.between hmag ?_ hlo)
        exact mul_le_mul_of_nonneg_right (by exact_mod_cast hge) h10.le

/-- The search finds a decimal that parses back, in the largest units in which there is one. -/
theorem searchDecimal_spec {l : Layout} {x : Quad} (h0 : canonicalSig l x ≠ 0) (fuel : Nat) : ∀ j : Int,
    j - fuel ≤ 0 → j - fuel ≤ scale l x → (∀ j', j < j' → ∀ k : Nat, ¬ InInterval l x ((k : ℚ) * (10 : ℚ) ^ j')) →
    readsBack l x (searchDecimal l x fuel j) = true ∧ (searchDecimal l x fuel j).neg = (extractFloat l x).sign ∧
    ∀ j', (searchDecimal l x fuel j).ex < j' → ∀ k : Nat, ¬ InInterval l x ((k : ℚ) * (10 : ℚ) ^ j') := by
  induction fuel with
  | zero =>
    intro j h1 h2 hj
    refine ⟨?_, rfl, hj⟩
    unfold searchDecimal
    rw [readsBack_sameSign, multipleBelow_exact (by simpa using h1) (by simpa using h2)]
    exact floatMag_inInterval h0
  | succ n ih =>
    intro j h1 h2 hj
    unfold searchDecimal
    split
    · next d hd =>
      obtain ⟨hr, he, hn⟩ := decimalAt_some hd
      exact ⟨hr, hn, by rw [he]; exact hj⟩
    · next hd =>
      refine ih (j - 1) (by push_cast at h1; omega) (by push_cast at h2; omega) fun j' hj' k => ?_
      rcases (show j ≤ j' by omega).eq_or_lt with rfl | hlt
      · exact decimalAt_none h0 hd k
      · exact hj j' hlt k

/-- No multiple of a power of ten well above the magnitude parses back to it. -/
theorem no_large_multiple {l : Layout} {x : Quad} (h0 : canonicalSig l x ≠ 0) {j : Int}
    (hj : (ndigits (magInt l x) : Int) < j) (k : Nat) : ¬ InInterval l x ((k : ℚ) * (10 : ℚ) ^ j) := by
  have hu := quarterPlace_pos l x
  intro h
  have hhi : (k : ℚ) * (10 : ℚ) ^ j ≤ (4 * (canonicalSig l x : ℚ) + 2) * quarterPlace l x := by
    have hh : ((roundingHigh l x : Nat) : ℚ) = 4 * (canonicalSig l x : ℚ) + 2 := by simp [roundingHigh]
    unfold InInterval at h; rw [hh] at h
    split at h
    · exact h.2
    · exact h.2.le
  have hlo : 0 < (k : ℚ) * (10 : ℚ) ^ j := by
    have hp := mul_pos (roundingLow_pos h0) hu
    unfold InInterval at h
    split at h
    · exact lt_of_lt_of_le hp h.1
    · exact hp.trans h.1
  have h10 : (0 : ℚ) < (10 : ℚ) ^ j := by positivity
  have hk : (1 : ℚ) ≤ k := by
    have : (0 : ℚ) < k := by by_contra hc; nlinarith
    exact_mod_cast this
  have hM : (1 : ℚ) ≤ canonicalSig l x := by exact_mod_cast Nat.one_le_iff_ne_zero.2 h0
  have hmi : magInt l x = multipleBelow l x 0 := by
    unfold magInt multipleBelow
    split
    · next hs => simp [Int.toNat_of_nonpos (show -scale l x ≤ 0 by omega)]
    · next hs => simp [Int.toNat_of_nonpos (show scale l x ≤ 0 by omega)]
  have hb := (multipleBelow_bounds l x 0).2
  rw [← hmi, zpow_zero, mul_one] at hb
  have hnd : ((magInt l x + 1 : Nat) : ℚ) ≤ ((10 ^ ndigits (magInt l x) : Nat) : ℚ) :=
    Nat.cast_le.2 (lt_ten_pow_ndigits _)
  push_cast at hnd
  have hpow : (10 : ℚ) * (10 : ℚ) ^ ndigits (magInt l x) ≤ (10 : ℚ) ^ j := by
    rw [← pow_succ', ← zpow_natCast]
    exact zpow_le_zpow_right₀ (by norm_num) (by push_cast; omega)
  rw [floatMag_quarters] at hb
  nlinarith

/-- The shortest decimal of a value that is not zero: it parses back, has the value's sign and no trailing zero, and no
decimal that parses back has fewer digits (46_dispatcher.md R240). -/
theorem shortestDecomp_spec {l : Layout} {x : Quad} (h : significand l x ≠ 0) :
    readsBack l x (shortestDecomp l x) = true ∧ (shortestDecomp l x).neg = (extractFloat l x).sign ∧
    0 < (shortestDecomp l x).sig ∧ (shortestDecomp l x).sig % 10 ≠ 0 ∧
    ∀ d, readsBack l x d = true → ndigits (shortestDecomp l x).sig ≤ ndigits d.sig := by
  have h0 : canonicalSig l x ≠ 0 := fun e => h (canonicalSig_eq_zero.1 e)
  have hd : shortestDecomp l x =
      searchDecimal l x (ndigits (magInt l x) + (-scale l x).toNat) (ndigits (magInt l x)) := by
    unfold shortestDecomp; rw [if_neg h]
  obtain ⟨hr, hn, hmax⟩ := searchDecimal_spec h0 (ndigits (magInt l x) + (-scale l x).toNat) (ndigits (magInt l x))
    (by push_cast; omega) (by push_cast; omega) fun j' hj' k => no_large_multiple h0 hj' k
  rw [← hd] at hr hn hmax
  set d := shortestDecomp l x with hd'
  have hI : ∀ e : Decomp, readsBack l x e = true → InInterval l x ((e.sig : ℚ) * (10 : ℚ) ^ e.ex) := fun e he => by
    unfold readsBack at he; rw [Bool.and_eq_true, inRoundingInterval_iff] at he; exact he.2
  have hpos : ∀ e : Decomp, readsBack l x e = true → 0 < e.sig := fun e he => by
    have hp := mul_pos (roundingLow_pos h0) (quarterPlace_pos l x)
    have hi := hI e he
    unfold InInterval at hi
    rcases Nat.eq_zero_or_pos e.sig with hz | hz
    · rw [hz, Nat.cast_zero, zero_mul] at hi
      unfold quarterPlace at hp
      split at hi
      · exact absurd hi.1 (not_le.2 hp)
      · exact absurd hi.1 (not_lt.2 hp.le)
    · exact hz
  refine ⟨hr, hn, hpos d hr, fun hz => ?_, fun e he => ?_⟩
  · refine hmax (d.ex + 1) (by omega) (d.sig / 10) ?_
    have hs : (d.sig : ℚ) = (10 : ℚ) * ((d.sig / 10 : Nat) : ℚ) := by
      have : d.sig = 10 * (d.sig / 10) := by omega
      exact_mod_cast this
    have := hI d hr
    rw [hs] at this
    rw [zpow_add₀ (by norm_num), zpow_one]
    convert this using 1; ring
  · by_contra hlt
    rw [not_le] at hlt
    have hex : e.ex ≤ d.ex := by
      by_contra hc; exact hmax e.ex (by omega) e.sig (hI e he)
    have hup : (e.sig : ℚ) * (10 : ℚ) ^ e.ex ≤ (10 : ℚ) ^ ((ndigits d.sig : Int) - 1 + d.ex) := by
      have h1 : (e.sig : ℚ) ≤ (10 : ℚ) ^ (ndigits e.sig : Int) := by
        rw [zpow_natCast]; exact_mod_cast (lt_ten_pow_ndigits e.sig).le
      calc (e.sig : ℚ) * (10 : ℚ) ^ e.ex ≤ (10 : ℚ) ^ (ndigits e.sig : Int) * (10 : ℚ) ^ e.ex :=
            mul_le_mul_of_nonneg_right h1 (by positivity)
        _ = (10 : ℚ) ^ ((ndigits e.sig : Int) + e.ex) := by rw [← zpow_add₀ (by norm_num)]
        _ ≤ _ := zpow_le_zpow_right₀ (by norm_num) (by omega)
    have hdn : (10 : ℚ) ^ ((ndigits d.sig : Int) - 1 + d.ex) ≤ (d.sig : ℚ) * (10 : ℚ) ^ d.ex := by
      have h1 : (10 : ℚ) ^ ((ndigits d.sig : Int) - 1) ≤ (d.sig : ℚ) := by
        have := ten_pow_ndigits_le (hpos d hr)
        have hnp := ndigits_pos d.sig
        rw [show (ndigits d.sig : Int) - 1 = ((ndigits d.sig - 1 : Nat) : Int) by omega, zpow_natCast]
        exact_mod_cast this
      rw [zpow_add₀ (by norm_num)]
      exact mul_le_mul_of_nonneg_right h1 (by positivity)
    have hmid := (hI e he).between (hI d hr) hup hdn
    have h1 := ndigits_pos e.sig
    refine hmax ((ndigits d.sig : Int) - 1 + d.ex) (by omega) 1 ?_
    simpa using hmid

end Sys2Proof.Machine
end

