-- ==== Sys2Proof/Laws/Oracle.lean ====
section
/-! SUPPORT. The answers of the oracle port that stand in where the open parameter's own lack the properties of
46_dispatcher.md R240: they have them. -/

namespace Sys2Proof.Machine

theorem readsBack_zero {l : Layout} {x : Quad} (h : significand l x = 0) (neg : Bool) :
    readsBack l x ⟨0, 0, neg⟩ = true := by
  have h0 : canonicalSig l x = 0 := canonicalSig_eq_zero.2 h
  have hl : roundingLow l x = 0 := by unfold roundingLow; rw [h0]; split <;> rfl
  simp [readsBack, h, inRoundingInterval, h0, hl, decimalSide, binarySide]

/-- The shortest decomposition has as few digits as itself and parses back. -/
theorem shortestOk_shortestDecomp (l : Layout) (x : Quad) :
    shortestOk l x (shortestDecomp l x) (ndigits (shortestDecomp l x).sig) = true := by
  unfold shortestOk
  by_cases h : significand l x = 0
  · have : shortestDecomp l x = ⟨0, 0, (extractFloat l x).sign⟩ := by unfold shortestDecomp; rw [if_pos h]
    rw [this, readsBack_zero h]; simp
  · rw [(shortestDecomp_spec h).1]; simp

/-- What `shortestOk` says: the decimal parses back, and none that parses back has fewer digits than it is said to. -/
theorem shortestOk_minimal {l : Layout} {x : Quad} {d : Decomp} {n : Nat} (h : shortestOk l x d n = true) :
    readsBack l x d = true ∧ ∀ e, readsBack l x e = true → n ≤ ndigits e.sig := by
  unfold shortestOk at h
  rw [Bool.and_eq_true, beq_iff_eq] at h
  refine ⟨h.1, fun e he => ?_⟩
  rw [h.2]
  by_cases hz : significand l x = 0
  · have : shortestDecomp l x = ⟨0, 0, (extractFloat l x).sign⟩ := by unfold shortestDecomp; rw [if_pos hz]
    rw [this]
    exact ndigits_pos e.sig
  · exact (shortestDecomp_spec hz).2.2.2.2 e he

/-- Zeros put behind the significand in place of the exponent change nothing for reading back. -/
theorem readsBack_zeros (l : Layout) (x : Quad) (sig k : Nat) (neg : Bool) :
    readsBack l x ⟨sig * 10 ^ k, 0, neg⟩ = readsBack l x ⟨sig, k, neg⟩ := by
  simp [readsBack, inRoundingInterval, decimalSide, binarySide]

/-- Zeros at the end of a bare integer are no significant digits. -/
theorem significantDigits_zeros {sig : Nat} (h10 : sig % 10 ≠ 0) (k : Nat) :
    significantDigits true (sig * 10 ^ k) 0 = ndigits sig := by
  have h1 : 10 ^ k ≤ sig * 10 ^ k := Nat.le_mul_of_pos_left _ (by omega)
  have h2 : k < ndigits (sig * 10 ^ k) := (Nat.pow_lt_pow_iff_right (by norm_num)).1 (h1.trans_lt (lt_ten_pow_ndigits _))
  have h3 : sig * 10 ^ k ≠ 0 := (lt_of_lt_of_le (by positivity) h1).ne'
  rw [significantDigits, if_neg h3, if_pos rfl, stripZeros_mul _ _ k _ _ h2.le h10]

/-- The text that stands in for the oracle's is in representation f and a shortest one. -/
theorem readText_plainShortest (l : Layout) (x : Quad) (f : DecFmt) :
    ∃ r, readText (plainShortest l x f) = some r ∧ inRepresentation f r = true ∧
      shortestOk l x r.value r.digits = true := by
  have hok := shortestOk_shortestDecomp l x
  unfold plainShortest
  by_cases hf : f = .scientific
  · rw [if_pos hf, readText_scientificText, hf]
    exact ⟨_, rfl, rfl, hok⟩
  · have hr : ∀ v n, inRepresentation f { value := v, digits := n, exponent := false } = true := by
      cases f <;> simp_all [inRepresentation]
    rw [if_neg hf, readText_decompText]
    refine ⟨_, rfl, ?_⟩
    by_cases h : significand l x = 0
    · have hd : shortestDecomp l x = ⟨0, 0, (extractFloat l x).sign⟩ := by unfold shortestDecomp; rw [if_pos h]
      rw [hd] at hok ⊢
      exact ⟨hr _ _, hok⟩
    · obtain ⟨-, -, hpos, h10, -⟩ := shortestDecomp_spec h
      rw [if_neg hpos.ne']
      by_cases hex : 0 ≤ (shortestDecomp l x).ex
      · rw [if_pos hex]
        refine ⟨hr _ _, ?_⟩
        dsimp only
        rw [significantDigits_zeros h10, shortestOk, readsBack_zeros, Int.toNat_of_nonneg hex]
        exact hok
      · rw [if_neg hex]
        exact ⟨hr _ _, hok⟩

/-- It has the properties required of ORACLE_SHORTEST's text (46_dispatcher.md R240). -/
theorem shortestTextOk_plainShortest (l : Layout) (x : Quad) (f : DecFmt) :
    shortestTextOk l x f (plainShortest l x f) = true := by
  obtain ⟨r, h, hf, hs⟩ := readText_plainShortest l x f
  rw [shortestTextOk, h]; simp [hf, hs]

/-- It has the property required of ORACLE_PREC's text (46_dispatcher.md R240). -/
theorem precTextOk_plainShortest (l : Layout) (x : Quad) (f : DecFmt) : precTextOk f (plainShortest l x f) = true := by
  obtain ⟨r, h, hf, -⟩ := readText_plainShortest l x f
  rw [precTextOk, h]; exact hf

theorem plainShortest_ne_nil (l : Layout) (x : Quad) (f : DecFmt) : plainShortest l x f ≠ [] := by
  have hdec : dec (shortestDecomp l x).sig ≠ [] := List.length_pos_iff.1 (ndigits_pos _)
  unfold plainShortest
  split
  · simp [scientificText, textBytes, pieceBytes]
  · rw [decompText, fixedBody, textBytes_append]
    refine List.append_ne_nil_of_right_ne_nil _ ?_
    split
    · decide
    · split
      · simp [textBytes, pieceBytes, hdec]
      · split <;> simp [textBytes, pieceBytes]

/-- Everything an oracle's text can be: one with the properties asked of it. -/
theorem oracleText_ok {l : Layout} {x : Quad} {f : DecFmt} {ok : List Byte → Bool} {raw : Byte × List Byte}
    (h : ok (plainShortest l x f) = true) : ok (textBytes (oracleText l x f ok raw)) = true := by
  have hcons : (plainShortest l x f).headD chZero :: (plainShortest l x f).tail = plainShortest l x f := by
    obtain ⟨c, cs, hc⟩ := List.exists_cons_of_ne_nil (plainShortest_ne_nil l x f)
    rw [hc]; rfl
  have hb : ∀ t : Byte × List Byte, textBytes (nonemptyText t) = t.1 :: t.2 := fun t => by
    simp [nonemptyText, textBytes, pieceBytes]
  rw [oracleText, hb]
  split
  · assumption
  · dsimp only; rw [hcons]; exact h

theorem oracleShortest_ok (l : Layout) (x : Quad) (f : DecFmt) :
    shortestTextOk l x f (textBytes (oracleShortest l x f)) = true :=
  oracleText_ok (shortestTextOk_plainShortest l x f)

theorem oraclePrec_ok (l : Layout) (x : Quad) (f : DecFmt) (q : Nat) :
    precTextOk f (textBytes (oraclePrec l x f q)) = true :=
  oracleText_ok (precTextOk_plainShortest l x f)

/-! ### What the properties of a text say -/

theorem inRepresentation_iff (f : DecFmt) (r : Reading) :
    inRepresentation f r = true ↔ (f = .fixed → r.exponent = false) ∧ (f = .scientific → r.exponent = true) := by
  cases f <;> simp [inRepresentation]

theorem precTextOk_iff (f : DecFmt) (bs : List Byte) :
    precTextOk f bs = true ↔ ∃ r, readText bs = some r ∧ inRepresentation f r = true := by
  unfold precTextOk; split <;> simp_all

/-- A shortest text says a decimal, in the representation, that parses back, and none with fewer digits does. -/
theorem shortestTextOk_reads {l : Layout} {x : Quad} {f : DecFmt} {bs : List Byte} (h : shortestTextOk l x f bs = true) :
    ∃ r, readText bs = some r ∧ inRepresentation f r = true ∧ readsBack l x r.value = true ∧
      ∀ e, readsBack l x e = true → r.digits ≤ ndigits e.sig := by
  unfold shortestTextOk at h
  split at h
  · next r hr =>
    rw [Bool.and_eq_true] at h
    exact ⟨r, hr, h.1, shortestOk_minimal h.2⟩
  · cases h

end Sys2Proof.Machine
end

