-- ==== Sys2Proof/Laws/PerInstr.lean ====
section
/-! SUPPORT. One family of statements about every command as syntax: the OP its word carries (30_encoding.md R82). -/

namespace Sys2Proof.Laws.EncodesOpcode

/-- The word of a command carries the OP of its opcode table row (30_encoding.md R82) and sets no reserved bit
(R94). -/
def Statement (i : Instr) : Prop :=
  opField (encode i) = (match i with
    | .fmtFloat _ _ _ => 0x1
    | .parseInt _ _ _ => 0x2
    | .classifyFloat _ => 0x3
    | .classifyDigit => 0x4
    | .writeFixed _ _ _ => 0x5) ∧
  ∃ mask, reservedMask (opField (encode i)) = some mask ∧ encode i &&& mask = 0

theorem fmtFloat (layout : Layout) (fmt : Fmt) (pv : Bool) : Statement (.fmtFloat layout fmt pv) := by
  refine ⟨?_, 0xFFFFFE00, ?_, ?_⟩ <;> cases layout <;> cases fmt <;> cases pv <;> decide

theorem parseInt (wid : BitVec 3) (sgn : Bool) (base : BitVec 6) : Statement (.parseInt wid sgn base) := by
  have h : ∀ (wid : BitVec 3) (sgn : Bool) (base : BitVec 6),
      opField (encode (.parseInt wid sgn base)) = 2 ∧ encode (.parseInt wid sgn base) &&& 0xFFFFC000 = 0 := by
    decide +kernel
  exact ⟨(h wid sgn base).1, 0xFFFFC000, by simp [(h wid sgn base).1, reservedMask], (h wid sgn base).2⟩

theorem classifyFloat (layout : Layout) : Statement (.classifyFloat layout) := by
  refine ⟨?_, 0xFFFFFFC0, ?_, ?_⟩ <;> cases layout <;> decide

theorem classifyDigit : Statement .classifyDigit := ⟨by decide, 0xFFFFFFF0, rfl, by decide⟩

theorem writeFixed (neg gen pv : Bool) : Statement (.writeFixed neg gen pv) := by
  refine ⟨?_, 0xFFFFF8F0, ?_, ?_⟩ <;> cases neg <;> cases gen <;> cases pv <;> decide

end Sys2Proof.Laws.EncodesOpcode
end

