-- ==== Sys2Proof/Tests/Slice0.lean ====
section
/-! SUPPORT. The model's own tests: each command's decoding from a word written out from the spec's encoding, one or two
results per command from the vectors of 95_test_vectors.md, the checks of WellFormed, and for every statement of
Certificates/Slice0/Obligations.lean that has hypotheses a state and operands that meet them all. -/

namespace Sys2Proof.Tests

-- The proofs below are checked one after another: hundreds of kernel evaluations at once run out of threads.
set_option Elab.async false

open Sys2Proof Sys2Proof.Machine

/-! ### Helpers -/

/-- The next state of an outcome, if it has one. -/
def nextOf : Host.Outcome State Fault Refusal → Option State
  | .next s => some s
  | .fault _ => none
  | .refused _ => none

/-- A span at 0x1000 that holds exactly the bytes given. -/
def holding (bs : List Byte) : State :=
  { State.reset with
    first := 0x1000
    last := BitVec.ofNat 64 (0x1000 + bs.length)
    mem := Memory.writeBytes [] 0x1000 bs }

/-- A span at 0x1000 of `n` bytes, with A, EXP and PREC. -/
def room (n : Nat) (a : Quad) (e p : Word) : State :=
  { State.reset with first := 0x1000, last := BitVec.ofNat 64 (0x1000 + n), a := a, exp := e, prec := p }

/-- STATUS, how far CURSOR is past FIRST, and the first `n` bytes of the span after an outcome. -/
def written (n : Nat) (o : Host.Outcome State Fault Refusal) : Option (BitVec 4 × BitVec 64 × List Byte) :=
  (nextOf o).map fun t => (t.status, t.cursor - t.first, t.mem.readBytes t.first.toNat n)

/-- STATUS, how far CURSOR is past FIRST, and RESULT after an outcome. -/
def parsed (o : Host.Outcome State Fault Refusal) : Option (BitVec 4 × BitVec 64 × Quad) :=
  (nextOf o).map fun t => (t.status, t.cursor - t.first, t.result)

/-- FAULTED, STATUS and CAUSE after an outcome. -/
def faultOf (o : Host.Outcome State Fault Refusal) : Option (Bool × BitVec 4 × BitVec 4) :=
  (nextOf o).map fun t => (t.faulted, t.status, t.cause)

/-! ### Decoding: words written out bit by bit from the patterns of 30_encoding.md R83 to R87 -/

/-- R83: 23 zeros, P=1, F=10, L=11, 0001. -/
theorem test_decode_fmtFloat :
    decode 0b00000000000000000000000_1_10_11_0001 = .ok (.fmtFloat .b128 .general true) := by decide
/-- R83, the fields at 0. -/
theorem test_decode_fmtFloat_zero :
    decode 0b00000000000000000000000_0_00_00_0001 = .ok (.fmtFloat .b32 .fixed false) := by decide
/-- R84: 18 zeros, B=100100 (36), S=1, W=011, 0010. -/
theorem test_decode_parseInt :
    decode 0b000000000000000000_100100_1_011_0010 = .ok (.parseInt 3 true 36) := by decide
/-- R85: 26 zeros, L=10, 0011. -/
theorem test_decode_classifyFloat :
    decode 0b00000000000000000000000000_10_0011 = .ok (.classifyFloat .b80) := by decide
/-- R86. -/
theorem test_decode_classifyDigit :
    decode 0b00000000000000000000000000000100 = .ok .classifyDigit := by decide
/-- R87: 21 zeros, N=1, G=0, P=1, 0000, 0101. -/
theorem test_decode_writeFixed :
    decode 0b000000000000000000000_1_0_1_0000_0101 = .ok (.writeFixed true false true) := by decide
/-- R87: G alone. -/
theorem test_decode_writeFixed_gen :
    decode 0b000000000000000000000_0_1_0_0000_0101 = .ok (.writeFixed false true false) := by decide
/-- R93: OP 0x0 and 0x6 are reserved; bit 9 of FMT_FLOAT and bit 7 of WRITE_FIXED are reserved bits. -/
theorem test_decode_rejects :
    decode 0x00000000 = .error .badOpcode ∧ decode 0x00000006 = .error .badOpcode ∧
    decode 0x000002D1 = .error .badField ∧ decode 0x00000085 = .error .badField := by decide
/-- R83 to R87: the encoder writes the same words. -/
theorem test_encode :
    encode (.fmtFloat .b64 .hex false) = 0x000000D1 ∧ encode (.parseInt 2 true 16) = 0x000010A2 ∧
    encode (.writeFixed true true true) = 0x00000705 := by decide
/-- The table's rows by their match words. -/
theorem test_decodeTableWord :
    decodeTableWord 32 1 = some (.fmtFloat .b32 .fixed false) ∧ decodeTableWord 32 2 = some (.parseInt 0 false 0) ∧
    decodeTableWord 32 3 = some (.classifyFloat .b32) ∧ decodeTableWord 32 4 = some .classifyDigit ∧
    decodeTableWord 32 5 = some (.writeFixed false false false) := by decide

/-! ### WellFormed: an ill-formed term for each check -/

theorem test_wellFormed_refuses_wid : (Instr.parseInt 5 false 10).wellFormed = false := by decide
theorem test_wellFormed_refuses_base_low : (Instr.parseInt 0 false 1).wellFormed = false := by decide
theorem test_wellFormed_refuses_base_high : (Instr.parseInt 0 false 37).wellFormed = false := by decide
theorem test_wellFormed_accepts : (Instr.parseInt 4 true 36).wellFormed = true := by decide

/-! ### The commands (vectors of 95_test_vectors.md) -/

/-- 2.3: "-128" as i8. -/
theorem test_parseInt_min :
    parsed (exec (.parseInt 0 true 10) (holding [0x2D, 0x31, 0x32, 0x38])) =
      some (0x1, 4, 0xFFFFFFFFFFFFFFFFFFFFFFFFFFFFFF80) := by decide +kernel
/-- 2.3: "256" as u8 is out of range, CURSOR past the numeral. -/
theorem test_parseInt_overflow :
    parsed (exec (.parseInt 0 false 10) (holding [0x32, 0x35, 0x36])) = some (0x4, 3, 0) := by decide +kernel
/-- 2.2: 'f' is 15, whatever stands above bit 7. -/
theorem test_classifyDigit_letter :
    (nextOf (exec .classifyDigit (room 0 0x80000000000000000000000000000066 0 0))).map (·.result) = some 15 := by
  decide +kernel
/-- 2.2: 0xC1 is no digit. -/
theorem test_classifyDigit_invalid :
    (nextOf (exec .classifyDigit (room 0 0xC1 0 0))).map (·.result) = some 0xFF := by decide +kernel
/-- 2.4: the B64 negative quiet NaN. -/
theorem test_classifyFloat_nan :
    (nextOf (exec (.classifyFloat .b64) (room 0 0xFFF8000000000000 0 0))).map (fun t => (t.result, t.result2)) =
      some (0x87FFC, 0x8000000000000) := by decide +kernel
/-- 2.4: the B80 unnormal, whose integer bit is 0. -/
theorem test_classifyFloat_unnormal :
    (nextOf (exec (.classifyFloat .b80) (room 0 0x3FFF4000000000000000 0 0))).map (fun t => (t.result, t.result2)) =
      some (0x3FFF1, 0x4000000000000000) := by decide +kernel
/-- R226: (995, -2) at P = 1 is "10.0". -/
theorem test_writeFixed_carry :
    written 4 (exec (.writeFixed false false true) (room 8 995 0xFFFFFFFE 1)) =
      some (0x1, 4, [0x31, 0x30, 0x2E, 0x30]) := by decide +kernel
/-- R227: "-3" does not fit one byte, and no sign is written. -/
theorem test_writeFixed_no_sign_on_failure :
    written 1 (exec (.writeFixed true false true) (room 1 25 0xFFFFFFFF 0)) = some (0x2, 1, [0]) := by decide +kernel
/-- R192: B64 0x3FF0180000000000 at P = 2 is "1.02p+0" (a tie, odd kept digit). -/
theorem test_fmtFloat_hex_tie :
    written 7 (exec (.fmtFloat .b64 .hex true) (room 7 0x3FF0180000000000 0 2)) =
      some (0x1, 7, [0x31, 0x2E, 0x30, 0x32, 0x70, 0x2B, 0x30]) := by decide +kernel
/-- R254: B64 -10^16 under General is "-10000000000000000". -/
theorem test_fmtFloat_integer_window :
    written 18 (exec (.fmtFloat .b64 .general false) (room 18 0xC341C37937E08000 0 0)) =
      some (0x1, 18, [0x2D, 0x31, 0x30, 0x30, 0x30, 0x30, 0x30, 0x30, 0x30, 0x30, 0x30, 0x30, 0x30, 0x30, 0x30, 0x30,
        0x30, 0x30]) := by decide +kernel

/-! ### Issue, faults and reset (95_test_vectors.md 2.1 and program 4): each check at a boundary value -/

/-- A state whose span is inverted. -/
def inverted : State := { State.reset with first := 5, last := 1 }

/-- The order of the checks: OP, reserved bits, WID, BASE, span. -/
theorem test_issue_faults :
    ([0x00000006, 0x00000200, 0x00000201, 0x00004002, 0x00000043, 0x00000014, 0x00000015, 0x00000805, 0x00000A52,
     0x00000102, 0x00002502, 0x00002402, 0x000000D1, 0x00000005, 0x00000013,
     0x00000004] : List Word).map (fun w => faultOf (inverted.issue w)) =
    [some (true, 0xF, 1), some (true, 0xF, 1), some (true, 0xF, 2), some (true, 0xF, 2), some (true, 0xF, 2),
     some (true, 0xF, 2), some (true, 0xF, 2), some (true, 0xF, 2), some (true, 0xF, 2), some (true, 0xF, 4),
     some (true, 0xF, 4), some (true, 0xF, 3), some (true, 0xF, 3), some (true, 0xF, 3), some (false, 0x1, 0),
     some (false, 0x1, 0)] := by
  decide +kernel

/-- A fault, then a reset: FAULTED, STATUS and CAUSE are cleared. -/
theorem test_reset_clears_fault :
    faultOf (step { State.reset with faulted := true, status := 0xF, cause := 4, pending := [.reset] }) =
      some (false, 0x0, 0) := by decide +kernel

/-- From reset, one step issues the word that withFetchWord stores. -/
theorem test_withFetchWord_runs :
    (nextOf (step (State.reset.withFetchWord 32 4))).map (fun t => (t.cmd, t.status)) = some (4, 0x1) := by
  decide +kernel

/-! ### Witnesses: for each statement with hypotheses, operands that meet them all -/

theorem witness_EncodeOfDecode : decode 0x000010A2 = .ok (.parseInt 2 true 16) := by decide

theorem witness_StepRunsDecodedCommand :
    let s : State := { State.reset with pending := [.set .cmd 4] }
    s.faulted = false ∧ s.pending = .set .cmd 4 :: [] ∧ decode ((4 : Quad).setWidth 32) = .ok .classifyDigit := by
  decide

theorem witness_WithFetchWordIssuesTheWord : (4 : Nat) < 2 ^ 32 := by decide

theorem witness_FaultedCommandIsIgnored :
    let s : State := { State.reset with faulted := true, pending := [.set .cmd 4] }
    s.faulted = true ∧ s.pending = .set .cmd 4 :: [] := by decide

/-- One witness for each clause: a reset, and any other action. -/
theorem witness_OnlyResetLeavesFaultState :
    let s : State := { State.reset with faulted := true, pending := [.reset] }
    let u : State := { State.reset with faulted := true, pending := [.set .cmd 4] }
    s.faulted = true ∧ (∃ t, step s = .next t) ∧ u.faulted = true ∧ (∃ t, step u = .next t) :=
  ⟨rfl, ⟨_, rfl⟩, rfl, ⟨_, rfl⟩⟩

theorem witness_FaultEntryIsPrecise :
    State.reset.faulted = false ∧ ∃ t, State.reset.issue 0 = .next t ∧ t.faulted = true :=
  ⟨rfl, ⟨_, rfl, rfl⟩⟩

/-- One witness for each of the three statuses. -/
theorem witness_StatusesAreNotFaults :
    State.reset.faulted = false ∧
    (∃ t, exec (.writeFixed false false false) State.reset = .next t ∧ t.status = 0x2) ∧
    (∃ t, exec (.parseInt 0 false 10) State.reset = .next t ∧ t.status = 0x3) ∧
    (∃ t, exec (.parseInt 0 false 10) (holding [0x32, 0x35, 0x36]) = .next t ∧ t.status = 0x4) :=
  ⟨rfl, ⟨_, rfl, by decide +kernel⟩, ⟨_, rfl, by decide +kernel⟩, ⟨_, rfl, by decide +kernel⟩⟩

theorem witness_ReadOnlyWritesAreIgnored :
    let s : State := { State.reset with pending := [.set .result2 7] }
    Reg.result2 ∈ [Reg.status, .cause, .cursor, .result, .result2] ∧ s.pending = .set .result2 7 :: [] := by decide

theorem witness_OperandWritesAreReadBack :
    let s : State := { State.reset with pending := [.set .exp 0x1FFFFFFFF] }
    (Reg.exp, 32) ∈ [(Reg.first, 64), (.last, 64), (.a, 128), (.exp, 32), (.prec, 32)] ∧
    s.pending = .set .exp 0x1FFFFFFFF :: [] := by decide

/-- One witness for each clause: one byte past the last address, the last address in a range with side effects, and the
last address in ordinary memory beside such a range. -/
theorem witness_HostStoreWritesItsBytes :
    let u : State := { State.reset with pending := [.mem 0xFFFFFFFFFFFFFFFF [1, 2]] }
    let d : State := { State.reset with
      pending := [.mem 0xFFFFFFFFFFFFFFFF [1]], regions := [⟨2 ^ 64 - 1, 1, .sideEffects⟩] }
    let s : State := { State.reset with
      pending := [.mem 0xFFFFFFFFFFFFFFFF [1]], regions := [⟨2 ^ 64 - 2, 1, .sideEffects⟩] }
    u.pending = .mem 0xFFFFFFFFFFFFFFFF [1, 2] :: [] ∧
    2 ^ 64 < (0xFFFFFFFFFFFFFFFF : Addr).toNat + [(1 : Byte), 2].length ∧
    d.pending = .mem 0xFFFFFFFFFFFFFFFF [1] :: [] ∧ s.pending = .mem 0xFFFFFFFFFFFFFFFF [1] :: [] ∧
    (0xFFFFFFFFFFFFFFFF : Addr).toNat + [(1 : Byte)].length ≤ 2 ^ 64 ∧
    d.meetsSideEffects (2 ^ 64 - 1) (2 ^ 64) ∧ ¬ s.meetsSideEffects (2 ^ 64 - 1) (2 ^ 64) := by
  refine ⟨rfl, by decide, rfl, rfl, by decide, ⟨_, List.mem_singleton.2 rfl, rfl, 2 ^ 64 - 1, by decide⟩, ?_⟩
  rintro ⟨r, hr, -, a, h1, h2, h3, h4⟩
  obtain rfl := List.mem_singleton.1 hr
  simp only at h2
  omega

theorem witness_ResetKeepsMemoryAndWindows :
    ({ State.reset with pending := [.reset] } : State).pending = .reset :: [] := rfl

theorem witness_invariant : State.reset.Inv :=
  ⟨rfl, by decide +kernel, by simp [State.faultStateOk, State.reset, State.resetAt]⟩

theorem witness_StepKeepsInvariant : State.reset.Inv ∧ ∃ t, step State.reset = .next t :=
  ⟨witness_invariant, ⟨_, rfl⟩⟩

theorem witness_WindowConfigNeverChanges : ∃ t, step State.reset = .next t := ⟨_, rfl⟩

theorem witness_CommandsKeepTheirInputs : ∃ t, exec .classifyDigit State.reset = .next t := ⟨_, rfl⟩

/-- One witness for each clause: a fault, and each kind of command. -/
theorem witness_WritesPerCommand :
    State.reset.faulted = false ∧
    (∃ t, exec (.parseInt 5 false 10) State.reset = .next t ∧ t.faulted = true) ∧
    (∃ t, exec (.writeFixed false false false) (room 4 1 0 0) = .next t ∧ t.faulted = false) ∧
    (∃ t, exec (.parseInt 0 false 10) (holding [0x35]) = .next t ∧ t.faulted = false) ∧
    (∃ t, exec (.classifyFloat .b32) State.reset = .next t ∧ t.faulted = false) ∧
    (∃ t, exec .classifyDigit State.reset = .next t ∧ t.faulted = false) :=
  ⟨rfl, ⟨_, rfl, rfl⟩, ⟨_, rfl, by decide +kernel⟩, ⟨_, rfl, by decide +kernel⟩, ⟨_, rfl, rfl⟩, ⟨_, rfl, rfl⟩⟩

/-- One witness for each clause: a command that uses the span, and one that does not. -/
theorem witness_CursorStaysInSpan :
    (holding [0x35]).faulted = false ∧
    (∃ t, exec (.parseInt 0 false 10) (holding [0x35]) = .next t ∧ t.faulted = false) ∧
    usesSpan (.parseInt 0 false 10) = true ∧
    (∃ t, exec .classifyDigit State.reset = .next t ∧ t.faulted = false) ∧ usesSpan .classifyDigit = false :=
  ⟨rfl, ⟨_, rfl, by decide +kernel⟩, rfl, ⟨_, rfl, rfl⟩, rfl⟩

/-- A FMT_FLOAT without a precision: A differs above the operand, and every other register it does not list differs. -/
theorem witness_CommandsReadOnlyTheirOperands :
    let s := room 8 0 0 0
    let s' : State := { s with
      a := 0x100000000, exp := 7, prec := 7, cmd := 7, status := 4, cause := 3, cursor := 7, result := 7, result2 := 7 }
    s'.mem = s.mem ∧ s'.windows = s.windows ∧ s'.regions = s.regions ∧
    (usesSpan (.fmtFloat .b32 .hex false) = true → s'.first = s.first ∧ s'.last = s.last) ∧
    (s'.a.toNat % 2 ^ (layoutRow .b32).width = s.a.toNat % 2 ^ (layoutRow .b32).width ∧
      (false = true → s'.prec = s.prec)) ∧
    ∃ t, exec (.fmtFloat .b32 .hex false) s = .next t :=
  ⟨rfl, rfl, rfl, fun _ => ⟨rfl, rfl⟩, ⟨by decide, fun h => by cases h⟩, ⟨_, rfl⟩⟩

theorem witness_InvertedSpanTakesBadSpan :
    let s : State := { State.reset with first := 5, last := 4 }
    usesSpan (.fmtFloat .b64 .hex false) = true ∧ (Instr.fmtFloat .b64 .hex false).wellFormed = true ∧
    s.last.toNat < s.first.toNat := by decide

/-- One witness for a writer and one for PARSE_INT. -/
theorem witness_EmptySpanHoldsNoText :
    usesSpan (.writeFixed false false false) = true ∧ (Instr.writeFixed false false false).wellFormed = true ∧
    usesSpan (.parseInt 0 true 10) = true ∧ (Instr.parseInt 0 true 10).wellFormed = true ∧
    State.reset.first = State.reset.last := by decide

/-- One witness for each kind of region, at its last address. -/
theorem witness_SpansOverRegionsAreRefused :
    let r : Region := ⟨0, 1, .sideEffects⟩
    let q : Region := ⟨0, 1, .contended⟩
    let s : State := { State.reset with last := 1, regions := [r] }
    let u : State := { State.reset with last := 1, regions := [q] }
    usesSpan (.parseInt 0 true 10) = true ∧ (Instr.parseInt 0 true 10).wellFormed = true ∧
    r ∈ s.regions ∧ q ∈ u.regions ∧ s.first.toNat ≤ 0 ∧ 0 < s.last.toNat ∧ r.base ≤ 0 ∧ 0 < r.base + r.size ∧
    u.first.toNat ≤ 0 ∧ 0 < u.last.toNat ∧ q.base ≤ 0 ∧ 0 < q.base + q.size := by decide

/-- The two sides of the clause for a contended region: alone, and with a region with side effects at the same
address. -/
theorem witness_SpansOverRegionsAreRefused_contended :
    let u : State := { State.reset with last := 1, regions := [⟨0, 1, .contended⟩] }
    let s : State := { State.reset with last := 1, regions := [⟨0, 1, .contended⟩, ⟨0, 1, .sideEffects⟩] }
    ¬ u.meetsSideEffects 0 1 ∧ s.meetsSideEffects 0 1 := by
  refine ⟨?_, ⟨⟨0, 1, .sideEffects⟩, by simp, rfl, 0, by decide⟩⟩
  rintro ⟨r, hr, hk, -⟩
  obtain rfl := List.mem_singleton.1 hr
  cases hk

theorem witness_LettersAreCaseInsensitive :
    0x41 ≤ (0x41 : Byte).toNat ∧ (0x41 : Byte).toNat ≤ 0x5A ∧ 0x41 ≤ (0x5A : Byte).toNat ∧
    (0x5A : Byte).toNat ≤ 0x5A := by decide

/-- B64 1.0: e = 1023, f = 0, sign 0, j = 1, class Normal. -/
theorem witness_ClassifyFloatResult :
    let s : State := room 0 0x3FF0000000000000 0 0
    1023 = s.a.toNat / 2 ^ (layoutRow .b64).expLo % 2 ^ (layoutRow .b64).expWidth ∧
    0 = s.a.toNat % 2 ^ (layoutRow .b64).fracWidth ∧ 0 = s.a.toNat / 2 ^ (layoutRow .b64).signBit % 2 := by decide

/-- The clauses at their boundaries: WID 5 and 4, BASE 1 and 37. -/
theorem witness_ParseIntFieldFaults :
    4 < (5 : BitVec 3).toNat ∧ (4 : BitVec 3).toNat ≤ 4 ∧ (1 : BitVec 6).toNat < 2 ∧ 36 < (37 : BitVec 6).toNat := by
  decide

/-- "-128" and then ',': within i8, at the limit; with "129" the same shape is out of range. -/
theorem witness_ParseIntDecodesNumeral :
    let s := holding [0x2D, 0x31, 0x32, 0x38, 0x2C]
    (0 : BitVec 3).toNat ≤ 4 ∧ 2 ≤ (10 : BitVec 6).toNat ∧ (10 : BitVec 6).toNat ≤ 36 ∧
    (s.first.toNat ≤ s.last.toNat ∧ s.spanHazard = none) ∧
    s.spanBytes = [0x2D] ++ [0x31, 0x32, 0x38] ++ [0x2C] ∧ (([0x31, 0x32, 0x38] : List Byte) ≠ []) ∧
    (∀ c ∈ ([0x31, 0x32, 0x38] : List Byte), digitValue c < (10 : BitVec 6).toNat) ∧
    (∀ c ∈ ([0x2C] : List Byte).head?, (10 : BitVec 6).toNat ≤ digitValue c) ∧
    numeralValue 10 [0x31, 0x32, 0x38] ≤ 2 ^ (8 * 2 ^ (0 : BitVec 3).toNat - 1) ∧
    ¬ numeralValue 10 [0x31, 0x32, 0x39] ≤ 2 ^ (8 * 2 ^ (0 : BitVec 3).toNat - 1) := by decide +kernel

/-- "-x". -/
theorem witness_ParseIntWithoutDigits :
    let s := holding [0x2D, 0x78]
    (0 : BitVec 3).toNat ≤ 4 ∧ 2 ≤ (10 : BitVec 6).toNat ∧ (10 : BitVec 6).toNat ≤ 36 ∧
    (s.first.toNat ≤ s.last.toNat ∧ s.spanHazard = none) ∧ s.spanBytes = [0x2D] ++ [0x78] ∧
    (∀ c ∈ ([0x78] : List Byte).head?, (10 : BitVec 6).toNat ≤ digitValue c) := by decide +kernel

/-- -42 as i8 in base 10, and 0 as u8 in base 2. -/
theorem witness_ParseIntRoundTrip :
    (holding [0x2D, 0x34, 0x32]).spanBytes = [0x2D] ++ [0x34, 0x32] ∧ (holding [0x2D, 0x34, 0x32]).spanHazard = none ∧
    (holding [0x2D, 0x34, 0x32]).first.toNat ≤ (holding [0x2D, 0x34, 0x32]).last.toNat ∧
    -(2 : Int) ^ (8 * 2 ^ (0 : BitVec 3).toNat - 1) ≤ -42 ∧
    ([0x34, 0x32] : List Byte).map digitValue = (Nat.digits 10 (-42 : Int).natAbs).reverse ∧
    (holding [0x30]).spanBytes = [] ++ [0x30] ∧ ([0x30] : List Byte).map digitValue = [0] := by
  refine ⟨by decide +kernel, rfl, by decide, by decide, ?_, by decide +kernel, by decide +kernel⟩
  have h : (-42 : Int).natAbs = 42 := rfl
  rw [h]
  norm_num
  decide

theorem witness_AccumulatorStaysWithinLimit : (⟨0, 0, false⟩ : Scan).acc ≤ 255 := by decide

/-- "f" against "F". -/
theorem witness_ParseIntReadsOnlySpanDigits :
    let s := holding [0x66]
    let m : Memory := Memory.writeBytes [] 0x1000 [0x46]
    (digitValue (m.read 0x1000) = digitValue (s.mem.read 0x1000) ∧
      (m.read 0x1000 = 0x2D ↔ s.mem.read 0x1000 = 0x2D) ∧ (m.read 0x1000 = 0x2B ↔ s.mem.read 0x1000 = 0x2B)) ∧
    s.first = 0x1000 ∧ s.last = 0x1001 ∧ (∃ t, exec (.parseInt 0 false 16) s = .next t) :=
  ⟨by decide +kernel, rfl, rfl, ⟨_, rfl⟩⟩

theorem witness_WriteFixedWritesItsText : (room 4 1 0 0).spanReady := ⟨by decide, rfl⟩

/-- Both cases: two digits at P = 0 are rounded (k = 1), one digit is not. -/
theorem witness_FixedTextDenotesItsValue : 1 = ndigits 25 - (0 + 1) ∧ 0 + 2 ≤ ndigits 25 ∧ ¬ 0 + 2 ≤ ndigits 5 := by
  decide +kernel

/-- (1, -3) negative, no precision: "-0.001" needs 6 bytes. -/
theorem witness_FixedLengthDecidesTheOutcome :
    (room 6 1 0xFFFFFFFD 0).spanReady ∧ (room 5 1 0xFFFFFFFD 0).spanReady ∧
    (⟨1, -3, true⟩ : Decomp) = adjustDecomp false 0 false
      { sig := (room 6 1 0xFFFFFFFD 0).a.toNat, ex := (room 6 1 0xFFFFFFFD 0).exp.toInt, neg := true } ∧
    (1 : Int) = (ndigits 1 : Int) :=
  ⟨⟨by decide, rfl⟩, ⟨by decide, rfl⟩, by decide, by decide +kernel⟩

theorem witness_FmtFloatWritesItsText : (room 4 0 0 0).spanReady := ⟨by decide, rfl⟩

/-- A B64 pattern for each route: a NaN, a zero, 1.0 (fixed window), 10^16 (integer window), 2^64 (beyond both). -/
theorem witness_FloatTextRoutes :
    classifyFloat .b64 0x7FF8000000000000 = .quietNaN ∧ classifyFloat .b64 0x8000000000000000 = .zero ∧
    classifyFloat .b64 0x3FF0000000000000 = .normal ∧ nonFinite (classifyFloat .b64 0x3FF0000000000000) = false ∧
    inFixedWindow defaultWindows .b64 0x3FF0000000000000 = true ∧
    windowLegal defaultWindows .b64 = true ∧ inFixedWindow defaultWindows .b64 0x4341C37937E08000 = false ∧
    inIntWindow defaultWindows .b64 0x4341C37937E08000 = true ∧
    inFixedWindow defaultWindows .b64 0x43F0000000000000 = false ∧
    inIntWindow defaultWindows .b64 0x43F0000000000000 = false := by decide +kernel

theorem witness_IntegerWindowIsIntegral :
    windowLegal defaultWindows .b64 = true ∧ inIntWindow defaultWindows .b64 0x4341C37937E08000 = true := by
  decide +kernel

theorem witness_GeneralIsFixedInWindows :
    inFixedWindow (room 8 0x3FF0000000000000 0 0).windows .b64 ((room 8 0x3FF0000000000000 0 0).floatOperand .b64) =
      true := by decide +kernel

theorem witness_FmtFloatDependsOnlyOnOperands :
    let s := room 8 0 0 0
    let s' : State := { s with result := 5, mem := [(0, 1)], exp := 7 }
    s.spanReady ∧ s'.spanReady ∧ s'.a = s.a ∧ s'.prec = s.prec ∧ s'.first = s.first ∧ s'.last = s.last ∧
    s'.windows = s.windows :=
  ⟨⟨by decide, rfl⟩, ⟨by decide, rfl⟩, rfl, rfl, rfl, rfl, rfl⟩

/-- B80 negative zero. -/
theorem witness_HexZeroLiteral :
    (room 8 0x80000000000000000000 0 0).spanReady ∧
    (room 8 0x80000000000000000000 0 0).a.toNat % 2 ^ ((layoutRow .b80).width - 1) = 0 :=
  ⟨⟨by decide, rfl⟩, by decide⟩

/-- B64 negative infinity. -/
theorem witness_NonFiniteTokens :
    let s := room 8 0xFFF0000000000000 0 0
    s.spanReady ∧
    s.a.toNat / 2 ^ (layoutRow .b64).expLo % 2 ^ (layoutRow .b64).expWidth = (layoutRow .b64).emax ∧
    (true = true ↔ s.a.toNat / 2 ^ ((layoutRow .b64).width - 1) % 2 = 1) ∧
    0 = s.a.toNat % 2 ^ (layoutRow .b64).fracWidth :=
  ⟨⟨by decide, rfl⟩, by decide, by decide, by decide⟩

/-- Each clause at a boundary: P = N, and P = N - 1. -/
theorem witness_HexTextDenotesItsValue : (layoutRow .b80).nhex ≤ 16 ∧ 15 < (layoutRow .b80).nhex := by decide

/-- B64 1.99...9 rounded to no fractional digit: the carry makes the leading digit 2 with a fraction of zeros. -/
theorem witness_HexCarryGoesToTheLeadingDigit :
    (⟨2, 0, 0, 0⟩ : HexParts) = hexParts .b64 0x3FFFFFFFFFFFFFFF true 0 := by decide +kernel

/-- B64 1.5 without a precision, and with 14 digits. -/
theorem witness_HexDigitsAreStrippedOrPadded :
    (⟨1, 8, 1, 0⟩ : HexParts) = hexParts .b64 0x3FF8000000000000 false 14 ∧
    (⟨1, 0x8000000000000, 13, 1⟩ : HexParts) = hexParts .b64 0x3FF8000000000000 true 14 := by decide +kernel

/-- B64 1.0: no fractional digit is left after the strip, and the length is 4. -/
theorem witness_HexLengthDecidesTheOutcome :
    let s := room 4 0x3FF0000000000000 0 0
    s.spanReady ∧ classifyFloat .b64 (s.floatOperand .b64) = .normal ∧
    0 = (hexParts .b64 (s.floatOperand .b64) false s.prec.toNat).count
      + (hexParts .b64 (s.floatOperand .b64) false s.prec.toNat).zeros ∧
    4 = (extractFloat .b64 (s.floatOperand .b64)).sign.toNat + 1 + (if 0 < 0 then 1 + 0 else 0) + 1 + 1
      + ndigits (unbiased .b64 (s.floatOperand .b64)).natAbs :=
  ⟨⟨by decide, rfl⟩, by decide +kernel, by decide +kernel, by decide +kernel⟩

/-- B64 10^16, and at the limit of the signed case B128 -2^127. -/
theorem witness_FormatThenParseGivesTheValue :
    let s := room 39 0x4341C37937E08000 0 0
    let u := room 40 0xC07E0000000000000000000000000000 0 0
    s.spanReady ∧ s.windows = defaultWindows ∧ inIntWindow s.windows .b64 (s.floatOperand .b64) = true ∧
    false = (extractFloat .b64 (s.floatOperand .b64)).sign ∧ 39 + false.toNat ≤ s.last.toNat - s.first.toNat ∧
    u.spanReady ∧ u.windows = defaultWindows ∧ inIntWindow u.windows .b128 (u.floatOperand .b128) = true ∧
    true = (extractFloat .b128 (u.floatOperand .b128)).sign ∧ floatMag .b128 (u.floatOperand .b128) ≤ 2 ^ 127 ∧
    39 + true.toNat ≤ u.last.toNat - u.first.toNat := by
  refine ⟨⟨by decide, rfl⟩, rfl, by decide +kernel, by decide +kernel, by decide, ⟨by decide, rfl⟩, rfl, by decide +kernel,
    by decide +kernel, ?_, by decide⟩
  have hs : significand .b128 ((room 40 0xC07E0000000000000000000000000000 0 0).floatOperand .b128) = 2 ^ 112 := by
    decide +kernel
  have he : scale .b128 ((room 40 0xC07E0000000000000000000000000000 0 0).floatOperand .b128) = 15 := by decide +kernel
  rw [floatMag, hs, he]
  norm_num

/-- B64 1.0 denotes 1. -/
theorem floatVal_one : floatVal .b64 0x3FF0000000000000 = 1 := by
  have hs : significand .b64 0x3FF0000000000000 = 2 ^ 52 := by decide +kernel
  have he : scale .b64 0x3FF0000000000000 = -52 := by decide +kernel
  have hg : (extractFloat .b64 0x3FF0000000000000).sign = false := by decide +kernel
  simp only [floatVal, floatMag, hs, he, hg]
  norm_num

/-- The decomposition (1, 0) meets the oracle's contract for B64 1.0. -/
theorem witness_ContractTextParsesBack : decompContract .b64 0x3FF0000000000000 ⟨1, 0, false⟩ := by
  have hv : decompValue ⟨1, 0, false⟩ = 1 := by simp [decompValue]
  refine ⟨by decide +kernel, by decide, by decide, ⟨by decide +kernel, ?_, ?_, ?_⟩, ?_⟩
  · intro y _
    rw [hv, floatVal_one]
    simp
  · intro y _ hne h
    rw [hv, floatVal_one] at h
    rw [floatVal_one] at hne
    simp only [sub_self, abs_zero, abs_eq_zero, sub_eq_zero] at h
    exact absurd h.symm hne
  · rw [hv]
    norm_num [layoutRow]
    exact one_lt_mul_of_lt_of_le (by norm_num) (one_le_pow₀ (by norm_num))
  · intro d' h
    have h1 : ndigits 1 = 1 := by decide +kernel
    have h2 : ndigits d'.sig = 0 := by simpa [h1] using h
    simp [ndigits, dec, decDigits] at h2
    split at h2 <;> simp at h2

/-- B64 1.0, whose magnitude is at the low end of the fixed window; it is finite, so it witnesses the three statements
of the oracle's contract. -/
theorem witness_OracleDecompMeetsItsContract :
    (classifyFloat .b64 0x3FF0000000000000 = .normal ∨ classifyFloat .b64 0x3FF0000000000000 = .subnormal) ∧
    1 ≤ floatMag .b64 0x3FF0000000000000 ∧ nonFinite (classifyFloat .b64 0x3FF0000000000000) = false := by
  refine ⟨by decide +kernel, le_of_eq ?_, by decide +kernel⟩
  have hg : (extractFloat .b64 0x3FF0000000000000).sign = false := by decide +kernel
  have h := floatVal_one
  rw [floatVal, hg, if_neg Bool.false_ne_true] at h
  exact h.symm

theorem witness_OracleShortestMeetsItsContract : nonFinite (classifyFloat .b80 0x3FFF4000000000000000) = false := by
  decide +kernel

theorem witness_GeneralTextParsesBack :
    windowLegal defaultWindows .b32 = true ∧ nonFinite (classifyFloat .b32 0x00000001) = false := by decide +kernel

/-! ### Reading decimals back (46_dispatcher.md R240) -/

/-- Half a last place away from B64 1.0 the even significand wins (ties to even): 1 + 2^-53 parses back to 1.0, not to
the next value; 90_conflicts.md C5: 1.1 parses back to the binary64 value that is not 1.1. -/
theorem test_readsBack :
    readsBack .b64 0x3FF0000000000000 ⟨100000000000000011102230246251565404236316680908203125, -53, false⟩ = true ∧
    readsBack .b64 0x3FF0000000000001 ⟨100000000000000011102230246251565404236316680908203125, -53, false⟩ = false ∧
    readsBack .b64 0x3FF199999999999A ⟨11, -1, false⟩ = true ∧
    readsBack .b64 0x3FF199999999999A ⟨11, -1, true⟩ = false := by decide +kernel

/-- What texts of the usual form say, each with its value, its significant digits and whether it bears an exponent:
"-12.50", "5E-3", "100", "0.0"; "." is none. -/
theorem test_readUsual :
    readUsual [0x2D, 0x31, 0x32, 0x2E, 0x35, 0x30] = some ⟨⟨1250, -2, true⟩, 4, false⟩ ∧
    readUsual [0x35, 0x45, 0x2D, 0x33] = some ⟨⟨5, -3, false⟩, 1, true⟩ ∧
    readUsual [0x31, 0x30, 0x30] = some ⟨⟨100, 0, false⟩, 1, false⟩ ∧
    readUsual [0x30, 0x2E, 0x30] = some ⟨⟨0, -1, false⟩, 2, false⟩ ∧ readUsual [0x2E] = none := by decide +kernel

/-- Of B64 1.5, "1.5" is a shortest text under Fixed and "15e-1" under Scientific; neither is one under the other, and
"1.500" is one under none. -/
theorem test_shortestText :
    shortestTextOk .b64 0x3FF8000000000000 .fixed [0x31, 0x2E, 0x35] = true ∧
    shortestTextOk .b64 0x3FF8000000000000 .scientific [0x31, 0x2E, 0x35] = false ∧
    shortestTextOk .b64 0x3FF8000000000000 .scientific [0x31, 0x35, 0x65, 0x2D, 0x31] = true ∧
    shortestTextOk .b64 0x3FF8000000000000 .fixed [0x31, 0x35, 0x65, 0x2D, 0x31] = false ∧
    shortestTextOk .b64 0x3FF8000000000000 .general [0x31, 0x2E, 0x35, 0x30, 0x30] = false := by decide +kernel

/-- R8, R60: with 16-bit addresses a store may fill the last byte, 0xFFFF, and not run past it; FIRST keeps 16 bits of
what the host writes; and "0" into the span [0xFFFE, 0xFFFF) ends with CURSOR = 0xFFFF. -/
theorem test_addressWidth :
    let s : State 16 := { State.resetAt 16 with first := 0xFFFE, last := 0xFFFF }
    s.hostStore 0xFFFF [1] = .next { s with mem := [(0xFFFF, 1)] } ∧
    s.hostStore 0xFFFF [1, 2] = .fault (.noSuchAddress 0x10000) ∧
    s.hostWrite .first 0x12345 = .next { s with first := 0x2345 } ∧
    s.issue 0x5 = .next { s with cmd := 0x5, cursor := 0xFFFF, status := 0x1, mem := [(0xFFFE, 0x30)] } :=
  ⟨rfl, rfl, rfl, rfl⟩

end Sys2Proof.Tests
end

section
/-! The CURSOR a command leaves (10_state.md R29): the span write, the failed parse and the end of a parse each write it,
inside the span, without reading it first. -/

namespace Sys2Proof.Machine

/-- CURSOR of `t` lies inside the span of `s` (10_state.md R29). -/
def State.cursorInSpan {aw : Nat} (s t : State aw) : Prop :=
  s.first.toNat ≤ t.cursor.toNat ∧ t.cursor.toNat ≤ s.last.toNat

/-! ### The CURSOR before is not read -/

theorem State.writeSpan_setCursor {aw : Nat} (s : State aw) (c : Addr aw) (t : Text) :
    State.writeSpan { s with cursor := c } t = s.writeSpan t := by
  unfold State.writeSpan State.spanSize; split <;> rfl

theorem State.parseEnd_setCursor {aw : Nat} (s : State aw) (c : Addr aw) (width : Nat) (sgn neg : Bool) (start : Nat)
    (w : Scan) : State.parseEnd { s with cursor := c } width sgn neg start w = s.parseEnd width sgn neg start w := by
  unfold State.parseEnd; split <;> [rfl; (split <;> rfl)]

theorem State.parseSpan_setCursor {aw : Nat} (s : State aw) (c : Addr aw) (width : Nat) (sgn : Bool) (b : Nat) :
    State.parseSpan { s with cursor := c } width sgn b = s.parseSpan width sgn b := by
  unfold State.parseSpan
  rw [State.parseEnd_setCursor s c]
  rfl

/-! ### The CURSOR after lies inside the span -/

theorem State.spanValid_iff {aw : Nat} (s : State aw) : s.spanValid = true ↔ s.first.toNat ≤ s.last.toNat := by
  simp [State.spanValid]

/-- An address up to LAST is an address: it loses no bit in CURSOR. -/
theorem State.toNat_ofNat_of_le_last {aw : Nat} {s : State aw} {n : Nat} (h : n ≤ s.last.toNat) :
    (BitVec.ofNat aw n).toNat = n := by
  rw [BitVec.toNat_ofNat, Nat.mod_eq_of_lt (Nat.lt_of_le_of_lt h s.last.isLt)]

theorem State.writeSpan_cursorInSpan {aw : Nat} {s : State aw} (hv : s.spanValid = true) (t : Text) :
    s.cursorInSpan (s.writeSpan t) := by
  have hle := s.spanValid_iff.mp hv
  unfold State.cursorInSpan
  rw [State.writeSpan_cursor]
  split
  · next hfit =>
    unfold State.spanSize at hfit
    rw [State.toNat_ofNat_of_le_last (s := s) (by omega)]
    omega
  · exact ⟨hle, Nat.le_refl _⟩

theorem State.parseInvalid_cursorInSpan {aw : Nat} {s : State aw} (hv : s.spanValid = true) :
    s.cursorInSpan s.parseInvalid :=
  ⟨Nat.le_refl _, s.spanValid_iff.mp hv⟩

/-- A span that is not empty has room for the sign (41_integer_decoder.md R122). -/
theorem State.digitsStart_bounds {aw : Nat} {s : State aw} (hlt : s.first.toNat < s.last.toNat) (sgn : Bool) :
    s.first.toNat ≤ s.digitsStart sgn ∧ s.digitsStart sgn ≤ s.last.toNat := by
  unfold State.digitsStart; split <;> omega

/-- The digit loop of a parse ends inside the span (41_integer_decoder.md R124). -/
theorem State.scanSpan_pos_bounds {aw : Nat} {s : State aw} (hlt : s.first.toNat < s.last.toNat) (width : Nat)
    (sgn : Bool) (b : Nat) :
    s.first.toNat ≤ (s.scanSpan width sgn b).pos ∧ (s.scanSpan width sgn b).pos ≤ s.last.toNat := by
  obtain ⟨hfirst, hlast⟩ := State.digitsStart_bounds hlt sgn
  obtain ⟨hlo, hhi⟩ := scanDigits_pos s.mem (parseLimit width sgn (s.takesMinus sgn)) b
    (s.last.toNat - s.digitsStart sgn) { pos := s.digitsStart sgn, acc := 0, ovf := false }
  dsimp only at hlo hhi
  unfold State.scanSpan
  omega

theorem State.parseEnd_cursorInSpan {aw : Nat} {s : State aw} {w : Scan} (hv : s.spanValid = true)
    (hlo : s.first.toNat ≤ w.pos) (hhi : w.pos ≤ s.last.toNat) (width : Nat) (sgn neg : Bool) (start : Nat) :
    s.cursorInSpan (s.parseEnd width sgn neg start w) := by
  have hpos : s.first.toNat ≤ (BitVec.ofNat aw w.pos).toNat ∧ (BitVec.ofNat aw w.pos).toNat ≤ s.last.toNat := by
    rw [State.toNat_ofNat_of_le_last hhi]; exact ⟨hlo, hhi⟩
  rcases s.parseEnd_cases width sgn neg start w with ⟨_, h⟩ | ⟨_, _, h⟩ | ⟨_, _, h⟩ <;> rw [h]
  · exact State.parseInvalid_cursorInSpan hv
  · exact hpos
  · exact hpos

theorem State.parseSpan_cursorInSpan {aw : Nat} {s : State aw} (hv : s.spanValid = true) (width : Nat) (sgn : Bool)
    (b : Nat) : s.cursorInSpan (s.parseSpan width sgn b) := by
  unfold State.parseSpan
  split
  · exact State.parseInvalid_cursorInSpan hv
  · next hne =>
    split
    · exact State.parseInvalid_cursorInSpan hv
    · have hlt : s.first.toNat < s.last.toNat :=
        Nat.lt_of_le_of_ne (s.spanValid_iff.mp hv) (mt BitVec.eq_of_toNat_eq hne)
      obtain ⟨hlo, hhi⟩ := State.scanSpan_pos_bounds hlt width sgn b
      exact State.parseEnd_cursorInSpan hv hlo hhi ..

/-! ### The commands -/

/-- A command that ends without a fault has passed the span check, which does not read CURSOR: it ends the same way,
whatever CURSOR held. -/
theorem State.onSpan_unfaulted {aw : Nat} {s t u : State aw} (h : s.onSpan t = .next u) (hu : u.faulted = false) :
    s.spanValid = true ∧ u = t ∧ ∀ c : Addr aw, State.onSpan { s with cursor := c } t = .next u := by
  rcases State.onSpan_next_cases h with ⟨hv, hh, rfl⟩ | ⟨_, rfl⟩
  · exact ⟨hv, rfl, fun c => State.onSpan_ready (s := { s with cursor := c }) u hv hh⟩
  · rw [State.raiseFault_faulted] at hu; cases hu

/-- WRITE_FIXED and FMT_FLOAT (45_fixed_writer.md R225, 46_dispatcher.md R250), whatever the text. -/
theorem State.onSpan_writeSpan_cursor {aw : Nat} {s u : State aw} {text : Text}
    (h : s.onSpan (s.writeSpan text) = .next u) (hu : u.faulted = false) :
    s.cursorInSpan u ∧
      ∀ c : Addr aw, State.onSpan { s with cursor := c } (State.writeSpan { s with cursor := c } text) = .next u := by
  obtain ⟨hv, rfl, hc⟩ := State.onSpan_unfaulted h hu
  refine ⟨State.writeSpan_cursorInSpan hv text, fun c => ?_⟩
  rw [State.writeSpan_setCursor]
  exact hc c

/-- PARSE_INT (41_integer_decoder.md R130): BAD_FIELD and BAD_BASE are faults, so only the parse is left. -/
theorem execParseInt_cursor {aw : Nat} {wid : BitVec 3} {sgn : Bool} {base : BitVec 6} {s u : State aw}
    (h : execParseInt wid sgn base s = .next u) (hu : u.faulted = false) :
    s.cursorInSpan u ∧ ∀ c : Addr aw, execParseInt wid sgn base { s with cursor := c } = .next u := by
  unfold execParseInt at h ⊢
  split at h
  · cases h; cases hu
  · next width hw =>
    split at h
    · cases h; cases hu
    · next b hb =>
      obtain ⟨hv, rfl, hc⟩ := State.onSpan_unfaulted h hu
      refine ⟨State.parseSpan_cursorInSpan hv width sgn b, fun c => ?_⟩
      rw [State.parseSpan_setCursor]
      exact hc c

/-- Settles O21, by the command: the three span commands by the span write or the parse, the classify commands because
they keep CURSOR. -/
theorem cursorStaysInSpan : Obligations.CursorStaysInSpan := by
  intro i s t _ h ht
  cases i with
  | fmtFloat l f pv =>
    obtain ⟨⟨hlo, hhi⟩, hc⟩ := State.onSpan_writeSpan_cursor h ht
    exact ⟨hlo, hhi, hc⟩
  | parseInt wid sgn base =>
    obtain ⟨⟨hlo, hhi⟩, hc⟩ := execParseInt_cursor h ht
    exact ⟨hlo, hhi, hc⟩
  | classifyFloat l => cases h; rfl
  | classifyDigit => cases h; rfl
  | writeFixed neg gen pv =>
    obtain ⟨⟨hlo, hhi⟩, hc⟩ := State.onSpan_writeSpan_cursor h ht
    exact ⟨hlo, hhi, hc⟩

end Sys2Proof.Machine
end

section
/-! The span check of the well-formed span commands (20_memory.md R61): WID and BASE are legal, so the span check is the
whole command, and its answer on an inverted span does not depend on the effect behind it. -/

namespace Sys2Proof.Machine

/-! ### PARSE_INT with legal fields -/

/-- WID 0 to 4 names the widths 8, 16, 32, 64 and 128 (30_encoding.md R90). -/
theorem widthOf_of_le {wid : BitVec 3} (h : wid.toNat ≤ 4) : widthOf wid = some (8 * 2 ^ wid.toNat) := by
  revert wid; decide

/-- BASE 2 to 36 names itself (30_encoding.md R91). -/
theorem baseOf_of_bounds {base : BitVec 6} (hlo : 2 ≤ base.toNat) (hhi : base.toNat ≤ 36) :
    baseOf base = some base.toNat :=
  if_pos ⟨hlo, hhi⟩

theorem wellFormed_parseInt_iff {wid : BitVec 3} {sgn : Bool} {base : BitVec 6} :
    (Instr.parseInt wid sgn base).wellFormed = true ↔ wid.toNat ≤ 4 ∧ 2 ≤ base.toNat ∧ base.toNat ≤ 36 := by
  simp [Instr.wellFormed, widLegal, baseLegal]

/-- PARSE_INT with legal fields raises neither BAD_FIELD nor BAD_BASE: the span check and the parse are left
(41_integer_decoder.md R130). -/
theorem execParseInt_of_legal {aw : Nat} {wid : BitVec 3} (sgn : Bool) {base : BitVec 6} (s : State aw)
    (hw : wid.toNat ≤ 4) (hlo : 2 ≤ base.toNat) (hhi : base.toNat ≤ 36) :
    execParseInt wid sgn base s = s.onSpan (s.parseSpan (8 * 2 ^ wid.toNat) sgn base.toNat) := by
  simp only [execParseInt, widthOf_of_le hw, baseOf_of_bounds hlo hhi]

/-! ### The commands -/

/-- A well-formed command that uses the span is the span check in front of its effect (20_memory.md R61). -/
theorem exec_eq_onSpan {i : Instr} (s : State) (hu : usesSpan i = true) (hw : i.wellFormed = true) :
    ∃ t, exec i s = s.onSpan t := by
  cases i with
  | fmtFloat l f pv => exact ⟨_, rfl⟩
  | parseInt wid sgn base =>
    obtain ⟨hwid, hlo, hhi⟩ := wellFormed_parseInt_iff.mp hw
    exact ⟨_, execParseInt_of_legal sgn s hwid hlo hhi⟩
  | classifyFloat l => cases hu
  | classifyDigit => cases hu
  | writeFixed neg gen pv => exact ⟨_, rfl⟩

theorem State.spanValid_eq_false_iff {aw : Nat} (s : State aw) :
    s.spanValid = false ↔ s.last.toNat < s.first.toNat := by
  rw [← Bool.not_eq_true, s.spanValid_iff, Nat.not_le]

/-- Settles O23: the command is the span check, and on an inverted span that is BAD_SPAN, whatever the effect. -/
theorem invertedSpanTakesBadSpan : Obligations.InvertedSpanTakesBadSpan := by
  intro i s hu hw hinv
  obtain ⟨t, ht⟩ := exec_eq_onSpan s hu hw
  rw [ht, State.onSpan_inverted t (s.spanValid_eq_false_iff.mpr hinv)]
  rfl

end Sys2Proof.Machine
end

section
/-! Decoding, field by field (30_encoding.md R81 to R94): the reserved bits of a defined command are fields of the word,
so an accepted word is the concatenation of its command's fields, and each check of R94 is a check of the word as a
number. -/

namespace Sys2Proof

open Sys2Proof.Machine

/-! ### A field of a word -/

/-- The mask of the `n` bits of a word from bit `lo` on. -/
def fieldMask (lo n : Nat) : Word := (BitVec.allOnes n).setWidth 32 <<< lo

theorem and_fieldMask_eq_zero_iff (w : Word) {lo n : Nat} (h : lo + n ≤ 32) :
    w &&& fieldMask lo n = 0 ↔ w.extractLsb' lo n = 0#n := by
  constructor
  · intro hw
    apply BitVec.eq_of_getLsbD_eq
    intro k hk
    have hbit := congrArg (fun v => v.getLsbD (lo + k)) hw
    simpa [fieldMask, hk, show lo + k < 32 by omega] using hbit
  · intro hw
    apply BitVec.eq_of_getLsbD_eq
    intro k hk
    by_cases hin : lo ≤ k ∧ k - lo < n
    · have hbit := congrArg (fun v => v.getLsbD (k - lo)) hw
      have hclear : w.getLsbD k = false := by simpa [hin, Nat.add_sub_cancel' hin.1] using hbit
      simp [hclear]
    · have hout : (fieldMask lo n).getLsbD k = false := by
        simp only [fieldMask, BitVec.getLsbD_shiftLeft, BitVec.getLsbD_setWidth, BitVec.getLsbD_allOnes]
        rcases not_and_or.mp hin with hlo | hhi
        · simp [show k < lo by omega]
        · simp [hhi]
      simp [hout]

theorem extract_toNat (w : Word) (lo n : Nat) : (w.extractLsb' lo n).toNat = w.toNat / 2 ^ lo % 2 ^ n := by
  rw [BitVec.extractLsb'_toNat, Nat.shiftRight_eq_div_pow]

theorem extract_eq_zero_iff (w : Word) (lo n : Nat) : w.extractLsb' lo n = 0#n ↔ w.toNat / 2 ^ lo % 2 ^ n = 0 := by
  rw [← BitVec.toNat_inj, extract_toNat]; simp

/-- The bits from `lo` to the top of the word are 0 when the word is below 2^lo. -/
theorem topField_eq_zero_iff (w : Word) {lo n : Nat} (h : lo + n = 32) :
    w.extractLsb' lo n = 0#n ↔ w.toNat / 2 ^ lo = 0 := by
  have hlt : w.toNat / 2 ^ lo < 2 ^ n := Nat.div_lt_of_lt_mul (by rw [← Nat.pow_add, h]; exact w.isLt)
  rw [extract_eq_zero_iff, Nat.mod_eq_of_lt hlt]

theorem ofBool_getLsbD (w : Word) (k : Nat) : BitVec.ofBool (w.getLsbD k) = w.extractLsb' k 1 := by
  rw [BitVec.getLsbD_eq_extractLsb']
  generalize w.extractLsb' k 1 = b
  revert b; decide

theorem opField_toNat (w : Word) : (opField w).toNat = w.toNat % 16 := by
  simp [opField]

theorem layoutField_layoutOfField (f : BitVec 2) : layoutField (layoutOfField f) = f := by revert f; decide

theorem fmtField_fmtOfField (f : BitVec 2) : fmtField (fmtOfField f) = f := by revert f; decide

/-! ### The reserved bits (30_encoding.md R94) -/

/-- The word has the OP of a command and 0 in every reserved field of that command. -/
def ReservedClear (w : Word) : Prop :=
  (opField w = 1 ∧ w.extractLsb' 9 23 = 0) ∨ (opField w = 2 ∧ w.extractLsb' 14 18 = 0) ∨
  (opField w = 3 ∧ w.extractLsb' 6 26 = 0) ∨ (opField w = 4 ∧ w.extractLsb' 4 28 = 0) ∨
  (opField w = 5 ∧ w.extractLsb' 11 21 = 0 ∧ w.extractLsb' 4 4 = 0)

/-- RESMASK(op) covers exactly the reserved fields. -/
theorem and_reservedMask_eq_zero_iff {w mask : Word} (h : reservedMask (opField w) = some mask) :
    w &&& mask = 0 ↔ ReservedClear w := by
  unfold reservedMask at h
  unfold ReservedClear
  split_ifs at h with h1 h2 h3 h4 h5 <;> cases h
  · exact (and_fieldMask_eq_zero_iff w (lo := 9) (n := 23) (by decide)).trans (by simp [h1])
  · exact (and_fieldMask_eq_zero_iff w (lo := 14) (n := 18) (by decide)).trans (by simp [h2])
  · exact (and_fieldMask_eq_zero_iff w (lo := 6) (n := 26) (by decide)).trans (by simp [h3])
  · exact (and_fieldMask_eq_zero_iff w (lo := 4) (n := 28) (by decide)).trans (by simp [h4])
  · have hmask : (0xFFFFF8F0 : Word) = fieldMask 11 21 ||| fieldMask 4 4 := by decide
    have hhigh := and_fieldMask_eq_zero_iff w (show 11 + 21 ≤ 32 by decide)
    have hmid := and_fieldMask_eq_zero_iff w (show 4 + 4 ≤ 32 by decide)
    rw [hmask, BitVec.and_or_distrib_left, BitVec.ofNat_eq_ofNat, BitVec.or_eq_zero_iff]
    simpa [h5] using and_congr hhigh hmid

theorem reservedMask_eq_none_iff (op : BitVec 4) : reservedMask op = none ↔ op.toNat = 0 ∨ 6 ≤ op.toNat := by
  revert op; decide

/-! ### What decoding answers -/

theorem decode_undefined {w : Word} (h : w.toNat % 16 = 0 ∨ 6 ≤ w.toNat % 16) : decode w = .error .badOpcode := by
  rw [← opField_toNat, ← reservedMask_eq_none_iff] at h
  simp [decode, h]

/-- A word with a defined OP decodes to its fields when its reserved bits are 0, and else not at all. -/
theorem decode_defined {w : Word} (h : ¬ (w.toNat % 16 = 0 ∨ 6 ≤ w.toNat % 16)) :
    (ReservedClear w ∧ decode w = .ok (fieldsOf w)) ∨ (¬ ReservedClear w ∧ decode w = .error .badField) := by
  rw [← opField_toNat, ← reservedMask_eq_none_iff] at h
  obtain ⟨mask, hmask⟩ := Option.ne_none_iff_exists'.mp h
  by_cases hw : w &&& mask = 0
  · exact Or.inl ⟨(and_reservedMask_eq_zero_iff hmask).mp hw, by simp [decode, hmask, hw]⟩
  · exact Or.inr ⟨mt (and_reservedMask_eq_zero_iff hmask).mpr hw, by simp only [decode, hmask, if_neg hw]⟩

/-! ### The command of an OP (30_encoding.md R83 to R87) -/

theorem fieldsOf_fmtFloat {w : Word} (h : opField w = 1) :
    fieldsOf w = .fmtFloat (layoutOfField (w.extractLsb' 4 2)) (fmtOfField (w.extractLsb' 6 2)) (w.getLsbD 8) := by
  rw [fieldsOf, h]; rfl

theorem fieldsOf_parseInt {w : Word} (h : opField w = 2) :
    fieldsOf w = .parseInt (w.extractLsb' 4 3) (w.getLsbD 7) (w.extractLsb' 8 6) := by
  rw [fieldsOf, h]; rfl

theorem fieldsOf_classifyFloat {w : Word} (h : opField w = 3) :
    fieldsOf w = .classifyFloat (layoutOfField (w.extractLsb' 4 2)) := by
  rw [fieldsOf, h]; rfl

theorem fieldsOf_classifyDigit {w : Word} (h : opField w = 4) : fieldsOf w = .classifyDigit := by
  rw [fieldsOf, h]; rfl

theorem fieldsOf_writeFixed {w : Word} (h : opField w = 5) :
    fieldsOf w = .writeFixed (w.getLsbD 10) (w.getLsbD 9) (w.getLsbD 8) := by
  rw [fieldsOf, h]; rfl

/-- A word with clear reserved bits is the concatenation of its fields. -/
theorem encode_fieldsOf {w : Word} (h : ReservedClear w) : encode (fieldsOf w) = w := by
  rcases h with ⟨hop, hres⟩ | ⟨hop, hres⟩ | ⟨hop, hres⟩ | ⟨hop, hres⟩ | ⟨hop, hhigh, hmid⟩
  · rw [fieldsOf_fmtFloat hop, encode, layoutField_layoutOfField, fmtField_fmtOfField, ofBool_getLsbD, ← hres, ← hop,
      opField]
    iterate 4 rw [BitVec.extractLsb'_append_extractLsb'_eq_extractLsb' (by rfl)]
    exact BitVec.extractLsb'_eq_self
  · rw [fieldsOf_parseInt hop, encode, ofBool_getLsbD, ← hres, ← hop, opField]
    iterate 4 rw [BitVec.extractLsb'_append_extractLsb'_eq_extractLsb' (by rfl)]
    exact BitVec.extractLsb'_eq_self
  · rw [fieldsOf_classifyFloat hop, encode, layoutField_layoutOfField, ← hres, ← hop, opField]
    iterate 2 rw [BitVec.extractLsb'_append_extractLsb'_eq_extractLsb' (by rfl)]
    exact BitVec.extractLsb'_eq_self
  · rw [fieldsOf_classifyDigit hop, encode, ← hres, ← hop, opField,
      BitVec.extractLsb'_append_extractLsb'_eq_extractLsb' (by rfl)]
    exact BitVec.extractLsb'_eq_self
  · rw [fieldsOf_writeFixed hop, encode, ofBool_getLsbD, ofBool_getLsbD, ofBool_getLsbD, ← hhigh, ← hmid, ← hop, opField]
    iterate 5 rw [BitVec.extractLsb'_append_extractLsb'_eq_extractLsb' (by rfl)]
    exact BitVec.extractLsb'_eq_self

/-! ### The same in numbers -/

theorem opField_eq_iff (w : Word) {k : Nat} (hk : k < 16) : opField w = BitVec.ofNat 4 k ↔ w.toNat % 16 = k := by
  rw [← BitVec.toNat_inj, opField_toNat, BitVec.toNat_ofNat, Nat.mod_eq_of_lt hk]

/-- The reserved bits of a defined OP that are 1, read off the word as a number (30_encoding.md R94). -/
theorem not_reservedClear_iff {w : Word} (h : ¬ (w.toNat % 16 = 0 ∨ 6 ≤ w.toNat % 16)) :
    ¬ ReservedClear w ↔
      (w.toNat % 16 = 1 ∧ w.toNat / 2 ^ 9 ≠ 0) ∨ (w.toNat % 16 = 2 ∧ w.toNat / 2 ^ 14 ≠ 0) ∨
      (w.toNat % 16 = 3 ∧ w.toNat / 2 ^ 6 ≠ 0) ∨ (w.toNat % 16 = 4 ∧ w.toNat / 2 ^ 4 ≠ 0) ∨
      (w.toNat % 16 = 5 ∧ (w.toNat / 2 ^ 11 ≠ 0 ∨ w.toNat / 2 ^ 4 % 2 ^ 4 ≠ 0)) := by
  unfold ReservedClear
  rw [← opField_toNat] at h ⊢
  have hop : opField w = 1 ∨ opField w = 2 ∨ opField w = 3 ∨ opField w = 4 ∨ opField w = 5 := by
    revert h; generalize opField w = op; revert op; decide
  rcases hop with hop | hop | hop | hop | hop
  · simp [hop, topField_eq_zero_iff w (show 9 + 23 = 32 from rfl)]
  · simp [hop, topField_eq_zero_iff w (show 14 + 18 = 32 from rfl)]
  · simp [hop, topField_eq_zero_iff w (show 6 + 26 = 32 from rfl)]
  · simp [hop, topField_eq_zero_iff w (show 4 + 28 = 32 from rfl)]
  · simp [hop, topField_eq_zero_iff w (show 11 + 21 = 32 from rfl), extract_eq_zero_iff, -not_and,
      not_and_or]

theorem usesSpan_fieldsOf {w : Word} (h : ReservedClear w) :
    usesSpan (fieldsOf w) = true ↔ w.toNat % 16 = 1 ∨ w.toNat % 16 = 2 ∨ w.toNat % 16 = 5 := by
  rw [← opField_toNat]
  rcases h with ⟨hop, _⟩ | ⟨hop, _⟩ | ⟨hop, _⟩ | ⟨hop, _⟩ | ⟨hop, _, _⟩
  · simp [fieldsOf_fmtFloat, usesSpan, hop]
  · simp [fieldsOf_parseInt, usesSpan, hop]
  · simp [fieldsOf_classifyFloat, usesSpan, hop]
  · simp [fieldsOf_classifyDigit, usesSpan, hop]
  · simp [fieldsOf_writeFixed, usesSpan, hop]

end Sys2Proof
end

section
/-! Issuing a word (30_encoding.md R94): each check of the chain, as a number, decides the answer on its own. -/

namespace Sys2Proof.Machine

/-! ### The checks of PARSE_INT's fields -/

theorem widthOf_eq_none {wid : BitVec 3} (h : 4 < wid.toNat) : widthOf wid = none := by
  revert wid; decide

theorem execParseInt_badField {aw : Nat} {wid : BitVec 3} (sgn : Bool) (base : BitVec 6) (s : State aw)
    (hw : 4 < wid.toNat) : execParseInt wid sgn base s = .next (s.raiseFault .badField) := by
  rw [execParseInt, widthOf_eq_none hw]

theorem execParseInt_badBase {aw : Nat} {wid : BitVec 3} (sgn : Bool) {base : BitVec 6} (s : State aw)
    (hw : wid.toNat ≤ 4) (hb : ¬ (2 ≤ base.toNat ∧ base.toNat ≤ 36)) :
    execParseInt wid sgn base s = .next (s.raiseFault .badBase) := by
  simp only [execParseInt, widthOf_of_le hw, baseOf, if_neg hb]

/-! ### What a written word does -/

theorem State.issue_faulted {aw : Nat} {s : State aw} (w : Word) (hf : s.faulted = true) :
    s.issue w = .next { s with cmd := w } :=
  if_pos hf

theorem State.issue_rejected {aw : Nat} {s : State aw} {w : Word} {e : Reject} (hf : ¬ s.faulted = true)
    (hd : decode w = .error e) : s.issue w = .next (State.raiseFault { s with cmd := w } (rejectCause e)) := by
  rw [State.issue, if_neg hf, hd]

/-- A word of OP 2 with clear reserved bits runs PARSE_INT with its fields read as numbers (30_encoding.md R84). -/
theorem State.issue_parseInt {s : State} {w : Word} (hd : s.issue w = exec (fieldsOf w) { s with cmd := w })
    (hop : w.toNat % 16 = 2) :
    ∃ wid sgn base, s.issue w = execParseInt wid sgn base { s with cmd := w } ∧
      wid.toNat = w.toNat / 2 ^ 4 % 2 ^ 3 ∧ base.toNat = w.toNat / 2 ^ 8 % 2 ^ 6 := by
  have hcmd := fieldsOf_parseInt ((opField_eq_iff w (k := 2) (by decide)).mpr hop)
  exact ⟨_, _, _, by rw [hd, hcmd]; rfl, extract_toNat .., extract_toNat ..⟩

/-- Only PARSE_INT has fields that can be illegal (30_encoding.md R90, R91). -/
theorem wellFormed_fieldsOf {w : Word} (h : ReservedClear w) :
    (fieldsOf w).wellFormed = true ↔ (w.toNat % 16 = 2 → w.toNat / 2 ^ 4 % 2 ^ 3 ≤ 4 ∧
      2 ≤ w.toNat / 2 ^ 8 % 2 ^ 6 ∧ w.toNat / 2 ^ 8 % 2 ^ 6 ≤ 36) := by
  rw [← opField_toNat, ← extract_toNat, ← extract_toNat]
  rcases h with ⟨hop, _⟩ | ⟨hop, _⟩ | ⟨hop, _⟩ | ⟨hop, _⟩ | ⟨hop, _, _⟩
  · simp [fieldsOf_fmtFloat hop, hop, Instr.wellFormed]
  · rw [fieldsOf_parseInt hop, wellFormed_parseInt_iff, hop]
    exact ⟨fun hw _ => hw, fun hw => hw rfl⟩
  · simp [fieldsOf_classifyFloat hop, hop, Instr.wellFormed]
  · simp [fieldsOf_classifyDigit hop, hop, Instr.wellFormed]
  · simp [fieldsOf_writeFixed hop, hop, Instr.wellFormed]

/-- Settles O4, check by check: the first two are decoding's, the next two PARSE_INT's, the fifth the span check of a
well-formed command (`invertedSpanTakesBadSpan`); a word that passes is the encoding of its fields. -/
theorem issueChecksInOrder : Obligations.IssueChecksInOrder := by
  intro s w
  split_ifs with hf hop hres hwid hbase hspan
  · exact State.issue_faulted w hf
  · exact State.issue_rejected hf (decode_undefined hop)
  · rcases decode_defined hop with ⟨hclear, _⟩ | ⟨_, hd⟩
    · exact absurd hclear ((not_reservedClear_iff hop).mpr hres)
    · exact State.issue_rejected hf hd
  all_goals
    have hclear : ReservedClear w := by
      by_contra hset
      exact hres ((not_reservedClear_iff hop).mp hset)
    have hrun : s.issue w = exec (fieldsOf w) { s with cmd := w } := by
      rcases decode_defined hop with ⟨_, hd⟩ | ⟨hset, _⟩
      · exact State.issue_decoded (by simpa using hf) hd
      · exact absurd hclear hset
  · obtain ⟨wid, sgn, base, hparse, hw, _⟩ := State.issue_parseInt hrun hwid.1
    rw [hparse, execParseInt_badField sgn base _ (by omega)]; rfl
  · obtain ⟨wid, sgn, base, hparse, hw, hb⟩ := State.issue_parseInt hrun hbase.1
    rw [hparse, execParseInt_badBase sgn _ (by omega) (by omega)]; rfl
  · have hwf : (fieldsOf w).wellFormed = true := (wellFormed_fieldsOf hclear).mpr (by omega)
    exact hrun.trans (invertedSpanTakesBadSpan _ _ ((usesSpan_fieldsOf hclear).mpr hspan.1) hwf hspan.2)
  · exact ⟨fieldsOf w, encode_fieldsOf hclear, (wellFormed_fieldsOf hclear).mpr (by omega), hrun⟩

end Sys2Proof.Machine
end

section
/-! What a command reads (30_encoding.md R92): the operands are functions of the bits it lists, and the shared operations
write the same values in any two states that agree on the span, memory and the declared ranges. -/

namespace Sys2Proof.Machine

/-! ### The operands -/

/-- The floating operand is A modulo 2^W(L) (10_state.md R25). -/
theorem State.floatOperand_toNat {aw : Nat} (s : State aw) (l : Layout) :
    (s.floatOperand l).toNat = s.a.toNat % 2 ^ (layoutRow l).width := by
  have hlt : 2 ^ (layoutRow l).width - 1 < 2 ^ 128 := by cases l <;> decide
  rw [State.floatOperand, BitVec.toNat_and, BitVec.toNat_ofNat, Nat.mod_eq_of_lt hlt, Nat.and_two_pow_sub_one_eq_mod]

theorem State.floatOperand_congr {aw : Nat} {s s' : State aw} {l : Layout}
    (h : s'.a.toNat % 2 ^ (layoutRow l).width = s.a.toNat % 2 ^ (layoutRow l).width) :
    s'.floatOperand l = s.floatOperand l :=
  BitVec.eq_of_toNat_eq (by rw [State.floatOperand_toNat, State.floatOperand_toNat, h])

theorem State.charOperand_congr {aw : Nat} {s s' : State aw} (h : s'.a.toNat % 2 ^ 8 = s.a.toNat % 2 ^ 8) :
    s'.charOperand = s.charOperand :=
  BitVec.eq_of_toNat_eq (by simpa [State.charOperand] using h)

/-- PREC is an operand only with PV (10_state.md R26). -/
theorem State.precOperand_congr {aw : Nat} {s s' : State aw} {pv : Bool} (h : pv = true → s'.prec = s.prec) :
    s'.precOperand pv = s.precOperand pv := by
  cases pv with
  | false => rfl
  | true => exact h rfl

/-! ### What a command writes, laid over another state -/

/-- The state `s'` after the writes the command `i` ended with in `t`: STATUS and memory; FAULTED and CAUSE when it
faulted, CURSOR when it used the span and did not; `r` and `r2` in RESULT and RESULT2. -/
def State.withWrites {aw : Nat} (s' : State aw) (i : Instr) (t : State aw) (r r2 : Quad) : State aw :=
  { s' with
    status := t.status
    mem := t.mem
    faulted := if t.status = 0xF then true else s'.faulted
    cause := if t.status = 0xF then t.cause else s'.cause
    cursor := if usesSpan i = true ∧ t.status ≠ 0xF then t.cursor else s'.cursor
    result := r
    result2 := r2 }

theorem State.withWrites_raiseFault {aw : Nat} {s s' : State aw} (hmem : s'.mem = s.mem) (i : Instr) (c : Cause) :
    s'.withWrites i (s.raiseFault c) s'.result s'.result2 = s'.raiseFault c := by
  simp [State.withWrites, State.raiseFault, statusCode, hmem]

theorem State.withWrites_unfaulted {aw : Nat} (s' : State aw) (i : Instr) {t : State aw} (h : t.status ≠ 0xF)
    (r r2 : Quad) :
    s'.withWrites i t r r2 = { s' with
      status := t.status, mem := t.mem, cursor := if usesSpan i = true then t.cursor else s'.cursor
      result := r, result2 := r2 } := by
  have hne : ¬ t.status = 15#4 := h
  simp [State.withWrites, hne]

/-! ### The span -/

/-- All that a span command reads beside its operands. -/
structure State.SameSpan {aw : Nat} (s s' : State aw) : Prop where
  first : s'.first = s.first
  last : s'.last = s.last
  mem : s'.mem = s.mem
  regions : s'.regions = s.regions

/-- The span check answers alike in both states (20_memory.md R61, R68, R72). -/
theorem State.SameSpan.onSpan_next {aw : Nat} {s s' : State aw} (h : s.SameSpan s') {t u : State aw} (t' : State aw)
    (hu : s.onSpan t = .next u) :
    (u = t ∧ s'.onSpan t' = .next t') ∨
      (u = s.raiseFault .badSpan ∧ s'.onSpan t' = .next (s'.raiseFault .badSpan)) := by
  have hvalid : s'.spanValid = s.spanValid := by rw [State.spanValid, State.spanValid, h.first, h.last]
  have hhazard : s'.spanHazard = s.spanHazard := by
    rw [State.spanHazard, State.spanHazard, h.first, h.last, h.regions]
  rcases State.onSpan_next_cases hu with ⟨hv, hh, rfl⟩ | ⟨hv, rfl⟩
  · exact Or.inl ⟨rfl, State.onSpan_ready t' (hvalid.trans hv) (hhazard.trans hh)⟩
  · exact Or.inr ⟨rfl, State.onSpan_inverted t' (hvalid.trans hv)⟩

/-- A span write ends in OK or VALUE_TOO_LARGE and writes the same in both states (20_memory.md R63). -/
theorem State.SameSpan.writeSpan {aw : Nat} {s s' : State aw} (h : s.SameSpan s') (text : Text) {i : Instr}
    (hi : usesSpan i = true) :
    s'.writeSpan text = s'.withWrites i (s.writeSpan text) s'.result s'.result2 := by
  have hstatus : (s.writeSpan text).status ≠ 0xF := by rw [State.writeSpan_status]; split <;> decide
  rw [State.withWrites_unfaulted s' i hstatus, if_pos hi, State.writeSpan_status, State.writeSpan_cursor,
    State.writeSpan_mem]
  unfold State.writeSpan State.spanSize
  rw [h.first, h.last, h.mem]
  split <;> rfl

/-! ### The parse -/

/-- A parse writes RESULT only when it ends in OK (41_integer_decoder.md R126 to R128). -/
def State.withParse {aw : Nat} (s' : State aw) (i : Instr) (t : State aw) : State aw :=
  s'.withWrites i t (if t.status = 0x1 then t.result else s'.result) s'.result2

theorem State.SameSpan.parseInvalid {aw : Nat} {s s' : State aw} (h : s.SameSpan s') {i : Instr}
    (hi : usesSpan i = true) : s'.parseInvalid = s'.withParse i s.parseInvalid := by
  simp [State.withParse, State.withWrites, State.parseInvalid, State.endWith, statusCode, hi, h.first, ← h.mem]

theorem State.SameSpan.parseEnd {aw : Nat} {s s' : State aw} (h : s.SameSpan s') {i : Instr} (hi : usesSpan i = true)
    (width : Nat) (sgn neg : Bool) (start : Nat) (w : Scan) :
    s'.parseEnd width sgn neg start w = s'.withParse i (s.parseEnd width sgn neg start w) := by
  unfold State.parseEnd
  split
  · exact h.parseInvalid hi
  split
  · simp [State.withParse, State.withWrites, State.endWith, statusCode, hi, ← h.mem]
  · simp [State.withParse, State.withWrites, State.endWith, statusCode, hi, ← h.mem]

theorem State.SameSpan.digitsStart {aw : Nat} {s s' : State aw} (h : s.SameSpan s') (sgn : Bool) :
    s'.digitsStart sgn = s.digitsStart sgn := by
  rw [State.digitsStart, State.digitsStart, State.takesSign, State.takesSign, h.first, h.mem]

theorem State.SameSpan.takesMinus {aw : Nat} {s s' : State aw} (h : s.SameSpan s') (sgn : Bool) :
    s'.takesMinus sgn = s.takesMinus sgn := by
  rw [State.takesMinus, State.takesMinus, h.first, h.mem]

theorem State.SameSpan.scanSpan {aw : Nat} {s s' : State aw} (h : s.SameSpan s') (width : Nat) (sgn : Bool) (b : Nat) :
    s'.scanSpan width sgn b = s.scanSpan width sgn b := by
  rw [State.scanSpan, State.scanSpan, h.mem, h.last, h.takesMinus, h.digitsStart]

/-- A parse reads the span's bytes and writes the same in both states (41_integer_decoder.md R130). -/
theorem State.SameSpan.parseSpan {aw : Nat} {s s' : State aw} (h : s.SameSpan s') {i : Instr} (hi : usesSpan i = true)
    (width : Nat) (sgn : Bool) (b : Nat) :
    s'.parseSpan width sgn b = s'.withParse i (s.parseSpan width sgn b) := by
  unfold State.parseSpan
  rw [h.first, h.last, h.digitsStart, h.takesMinus, h.scanSpan]
  split
  · exact h.parseInvalid hi
  split
  · exact h.parseInvalid hi
  · exact h.parseEnd hi ..

theorem State.withParse_raiseFault {aw : Nat} {s s' : State aw} (hmem : s'.mem = s.mem) (i : Instr) (c : Cause) :
    s'.withParse i (s.raiseFault c) = s'.raiseFault c :=
  State.withWrites_raiseFault hmem i c

/-! ### The commands -/

/-- WRITE_FIXED and FMT_FLOAT, whatever the text (45_fixed_writer.md R225, 46_dispatcher.md R250). -/
theorem State.SameSpan.onSpan_writeSpan {aw : Nat} {s s' t : State aw} (h : s.SameSpan s') {text : Text} {i : Instr}
    (hi : usesSpan i = true) (ht : s.onSpan (s.writeSpan text) = .next t) :
    s'.onSpan (s'.writeSpan text) = .next (s'.withWrites i t s'.result s'.result2) := by
  rcases h.onSpan_next (s'.writeSpan text) ht with ⟨rfl, hrun⟩ | ⟨rfl, hrun⟩
  · rw [hrun, ← h.writeSpan text hi]
  · rw [hrun, State.withWrites_raiseFault h.mem]

/-- PARSE_INT: its two field checks read no register (41_integer_decoder.md R130). -/
theorem State.SameSpan.execParseInt {aw : Nat} {s s' t : State aw} (h : s.SameSpan s') {i : Instr}
    (hi : usesSpan i = true) {wid : BitVec 3} {sgn : Bool} {base : BitVec 6}
    (ht : execParseInt wid sgn base s = .next t) : execParseInt wid sgn base s' = .next (s'.withParse i t) := by
  unfold Machine.execParseInt at ht ⊢
  split at ht
  · cases ht; rw [State.withParse_raiseFault h.mem]
  split at ht
  · cases ht; rw [State.withParse_raiseFault h.mem]
  · next width _ _ b _ =>
    rcases h.onSpan_next (s'.parseSpan width sgn b) ht with ⟨rfl, hrun⟩ | ⟨rfl, hrun⟩
    · rw [hrun, ← h.parseSpan hi]
    · rw [hrun, State.withParse_raiseFault h.mem]

/-- Settles O22, by the command: its operands are the same in both states, so the span write, the parse or the
classification writes the same values. -/
theorem commandsReadOnlyTheirOperands : Obligations.CommandsReadOnlyTheirOperands := by
  intro i s s' t hmem hwindows hregions hspan hops ht
  have hsame (hi : usesSpan i = true) : s.SameSpan s' := by
    obtain ⟨hfirst, hlast⟩ := hspan hi
    exact ⟨hfirst, hlast, hmem, hregions⟩
  cases i with
  | fmtFloat l f pv =>
    obtain ⟨ha, hprec⟩ := hops
    show execFmtFloat l f pv s' = .next (s'.withWrites (.fmtFloat l f pv) t s'.result s'.result2)
    rw [execFmtFloat, hwindows, State.floatOperand_congr ha, State.precOperand_congr hprec]
    exact (hsame rfl).onSpan_writeSpan rfl ht
  | parseInt wid sgn base =>
    exact (hsame rfl).execParseInt (i := .parseInt wid sgn base) rfl ht
  | classifyFloat l =>
    cases ht
    show execClassifyFloat l s' = .next (s'.withWrites (.classifyFloat l) _ _ _)
    rw [execClassifyFloat, State.floatOperand_congr hops]
    simp [State.withWrites, State.endWith, statusCode, usesSpan, ← hmem]
  | classifyDigit =>
    cases ht
    show execClassifyDigit s' = .next (s'.withWrites .classifyDigit _ _ _)
    rw [execClassifyDigit, State.charOperand_congr hops]
    simp [State.withWrites, State.endWith, statusCode, usesSpan, ← hmem]
  | writeFixed neg gen pv =>
    obtain ⟨ha, hexp, hprec⟩ := hops
    show execWriteFixed neg gen pv s' = .next (s'.withWrites (.writeFixed neg gen pv) t s'.result s'.result2)
    rw [execWriteFixed, State.sigOperand, State.exOperand, ha, hexp, State.precOperand_congr hprec]
    exact (hsame rfl).onSpan_writeSpan rfl ht

end Sys2Proof.Machine
end

section
/-! PARSE_INT where no digit follows the sign (41_integer_decoder.md R126): the bytes of the span say where the digit
loop starts, and there it stops at once. -/

namespace Sys2Proof.Machine

/-! ### The bytes of the span -/

theorem State.spanBytes_length {aw : Nat} (s : State aw) : s.spanBytes.length = s.spanSize :=
  Memory.readBytes_length ..

/-- The byte of the span after its prefix `xs` is the one at FIRST + |xs| (20_memory.md R60). -/
theorem State.read_of_spanBytes {aw : Nat} {s : State aw} {xs ys : List Byte} {c : Byte}
    (h : s.spanBytes = xs ++ c :: ys) : s.mem.read (s.first.toNat + xs.length) = c := by
  have hlt : xs.length < s.spanSize := by rw [← s.spanBytes_length, h]; simp
  have hget := Memory.readBytes_getElem? s.mem s.spanSize s.first.toNat xs.length hlt
  rw [← State.spanBytes, h, List.getElem?_append_right (Nat.le_refl _)] at hget
  simpa using hget.symm

/-! ### Where the digit loop starts -/

/-- The bytes that are no sign (41_integer_decoder.md R122). -/
theorem isSign_eq_false_iff (c : Byte) : isSign c = false ↔ c ≠ 0x2D ∧ c ≠ 0x2B :=
  Bool.or_eq_false_iff.trans (and_congr decide_eq_false_iff_not decide_eq_false_iff_not)

theorem State.digitsStart_of_isSign {aw : Nat} {s : State aw} (h : isSign (s.mem.read s.first.toNat) = true) :
    s.digitsStart true = s.first.toNat + 1 := by
  simp [State.digitsStart, State.takesSign, h]

theorem State.digitsStart_of_not_isSign {aw : Nat} {s : State aw} {sgn : Bool}
    (h : sgn = true → isSign (s.mem.read s.first.toNat) = false) : s.digitsStart sgn = s.first.toNat := by
  have htakes : s.takesSign sgn = false := by simpa [State.takesSign] using h
  rw [State.digitsStart, htakes]
  rfl

/-- The digit loop starts after the sign (41_integer_decoder.md R122, R124). The span is not empty: `digitsStart` looks
at the byte at FIRST in any case, and on an empty span that byte is not the span's. -/
theorem State.digitsStart_of_spanBytes {aw : Nat} {s : State aw} {sgn : Bool} {sign rest : List Byte}
    (hspan : s.spanBytes = sign ++ rest) (hne : sign ++ rest ≠ [])
    (hsign : sign = [] ∨ (sgn = true ∧ (sign = [chMinus] ∨ sign = [chPlus])))
    (hrest : sgn = true → sign = [] → ∀ c ∈ rest.head?, isSign c = false) :
    s.digitsStart sgn = s.first.toNat + sign.length := by
  rcases hsign with rfl | ⟨rfl, hsign⟩
  · cases rest with
    | nil => exact absurd rfl hne
    | cons c cs =>
      have hread : s.mem.read s.first.toNat = c := State.read_of_spanBytes (xs := []) hspan
      exact State.digitsStart_of_not_isSign fun hs => hread ▸ hrest hs rfl c rfl
  · obtain ⟨c, rfl, hc⟩ : ∃ c, sign = [c] ∧ isSign c = true := by
      rcases hsign with rfl | rfl <;> exact ⟨_, rfl, by decide⟩
    have hread : s.mem.read s.first.toNat = c := State.read_of_spanBytes (xs := []) hspan
    exact State.digitsStart_of_isSign (hread ▸ hc)

theorem State.first_le_digitsStart {aw : Nat} (s : State aw) (sgn : Bool) :
    s.first.toNat ≤ s.digitsStart sgn := by
  unfold State.digitsStart; split <;> omega

/-! ### A digit loop that consumes nothing -/

/-- With no byte to read, or on a byte that is no digit, the digit loop stops at once (41_integer_decoder.md R124). -/
theorem scanDigits_of_no_digit {m : Memory} {b n : Nat} {w : Scan} (lim : Nat)
    (h : 0 < n → b ≤ digitValue (m.read w.pos)) : scanDigits m lim b n w = w := by
  cases n with
  | zero => rfl
  | succ n => exact if_neg (Nat.not_lt.mpr (h n.succ_pos))

/-- A parse that finds LAST or no digit where its digit loop starts is invalid (41_integer_decoder.md R121, R122,
R126). -/
theorem State.parseSpan_of_no_digit {aw : Nat} {s : State aw} {sgn : Bool} {b : Nat} (width : Nat)
    (h : s.digitsStart sgn < s.last.toNat → b ≤ digitValue (s.mem.read (s.digitsStart sgn))) :
    s.parseSpan width sgn b = s.parseInvalid := by
  have hscan : s.scanSpan width sgn b = { pos := s.digitsStart sgn, acc := 0, ovf := false } :=
    scanDigits_of_no_digit _ fun hroom => h (Nat.lt_of_sub_pos hroom)
  unfold State.parseSpan
  split
  · rfl
  split
  · rfl
  · rw [hscan]; exact if_pos rfl

/-- Settles O31, by what stands after the sign: nothing, so the digit loop starts at LAST (or the span is empty), or a
byte that is no digit, at which the digit loop starts. -/
theorem parseIntWithoutDigits : Obligations.ParseIntWithoutDigits := by
  intro wid sgn base s sign tail hwid hlo hhi ⟨hle, hhazard⟩ hspan hsign htail
  have hstart (hne : sign ++ tail ≠ []) : s.digitsStart sgn = s.first.toNat + sign.length :=
    State.digitsStart_of_spanBytes hspan hne hsign fun hs hnil c hc =>
      (isSign_eq_false_iff c).mpr ((htail c hc).2 hs hnil)
  have hinvalid : s.parseSpan (8 * 2 ^ wid.toNat) sgn base.toNat = s.parseInvalid := by
    refine State.parseSpan_of_no_digit _ fun hroom => ?_
    cases tail with
    | nil =>
      have hsize : s.last.toNat - s.first.toNat = sign.length := by
        simpa [State.spanSize, hspan] using s.spanBytes_length.symm
      have hfirst := s.first_le_digitsStart sgn
      cases sign with
      | nil => simp only [List.length_nil] at hsize; omega
      | cons c cs => have := hstart (by simp); omega
    | cons c cs =>
      rw [hstart (by simp), State.read_of_spanBytes hspan]
      exact (htail c rfl).1
  calc exec (.parseInt wid sgn base) s
      = s.onSpan (s.parseSpan (8 * 2 ^ wid.toNat) sgn base.toNat) := execParseInt_of_legal sgn s hwid hlo hhi
    _ = .next s.parseInvalid := by rw [hinvalid, State.onSpan_ready _ (s.spanValid_iff.mpr hle) hhazard]

end Sys2Proof.Machine
end

section
/-! The layout table (42_float_layout.md R150). -/

namespace Sys2Proof.Machine

/-- Settles O56, row by row: each is the branch of `layoutRow` at its layout. -/
theorem layoutTableHoldsTheSpecValues : Obligations.LayoutTableHoldsTheSpecValues := by
  unfold Obligations.LayoutTableHoldsTheSpecValues
  refine ⟨?b32, ?b64, ?b80, ?b128⟩
  case b32 => rfl
  case b64 => rfl
  case b80 => rfl
  case b128 => rfl

end Sys2Proof.Machine
end

section
/-! The length of a hex text (44_hex_writer.md R189), and how it decides the outcome of FMT_FLOAT (20_memory.md R63). -/

namespace Sys2Proof.Machine

/-! ### The length, part by part (44_hex_writer.md R181, R189) -/

@[simp] theorem signText_length (neg : Bool) : textLength (signText neg) = neg.toNat := by
  cases neg <;> rfl

/-- The point is counted only when a digit follows it. -/
theorem hexFractionText_length (h : HexParts) :
    textLength (hexFractionText h) = if 0 < h.count + h.zeros then 1 + (h.count + h.zeros) else 0 := by
  unfold hexFractionText
  split
  · next hnone => rw [hnone]; rfl
  · next hsome => rw [if_pos (Nat.pos_of_ne_zero hsome)]; simp [textLength, pieceLength]

theorem hexExponentText_length (e : Int) : textLength (hexExponentText e) = 1 + 1 + ndigits e.natAbs := by
  rw [Nat.add_assoc]; rfl

/-- R189: the formula counts the text of R190. -/
theorem hexText_length {l : Layout} {x : Quad} {pv : Bool} {p nf : Nat}
    (hnf : nf = (hexParts l x pv p).count + (hexParts l x pv p).zeros) :
    textLength (hexText l x pv p) = (extractFloat l x).sign.toNat + 1 + (if 0 < nf then 1 + nf else 0) + 1 + 1
      + ndigits (unbiased l x).natAbs := by
  have hlead (v : Nat) : textLength [.bytes [hexdig v]] = 1 := rfl
  simp only [hexText, textLength_append, signText_length, hlead, hexFractionText_length, ← hnf, hexExponentText_length,
    Nat.add_assoc]

/-! ### The outcome of a span write -/

/-- `WriteSpan` on a valid span (20_memory.md R63): the length alone decides the outcome. -/
theorem State.writeSpan_outcome {aw : Nat} {s : State aw} (hle : s.first.toNat ≤ s.last.toNat) (t : Text) :
    if textLength t ≤ s.spanSize then
      (s.writeSpan t).status = 0x1 ∧ (s.writeSpan t).cursor.toNat = s.first.toNat + textLength t
    else (s.writeSpan t).status = 0x2 ∧ (s.writeSpan t).cursor = s.last ∧ s.sameMemory (s.writeSpan t) := by
  rcases s.writeSpan_cases t with ⟨hfit, hw⟩ | ⟨hlong, hw⟩ <;> rw [hw]
  · have hend : s.first.toNat + textLength t ≤ s.last.toNat := (Nat.le_sub_iff_add_le' hle).mp hfit
    rw [if_pos hfit]
    exact ⟨rfl, State.toNat_ofNat_of_le_last hend⟩
  · rw [if_neg (Nat.not_le.mpr hlong)]
    exact ⟨rfl, rfl, fun _ => rfl⟩

/-! ### The text FMT_FLOAT writes -/

/-- Row 3 of 46_dispatcher.md R248: a Normal or Subnormal operand under Hex goes to the hex writer. -/
theorem floatText_hex {l : Layout} {x : Quad} (hc : classifyFloat l x = .normal ∨ classifyFloat l x = .subnormal)
    (w : WindowConfig) (pv : Bool) (p : Word) : floatText w l x .hex pv p = hexText l x pv p.toNat := by
  rcases hc with hc | hc <;> simp [floatText, hexFormatText, nonFinite, hc]

/-- Without a precision the hex text does not depend on PREC, and with one it is written at PREC (10_state.md R26). -/
theorem hexText_precOperand {aw : Nat} (s : State aw) (l : Layout) (x : Quad) (pv : Bool) :
    hexText l x pv (s.precOperand pv).toNat = hexText l x pv s.prec.toNat := by
  cases pv <;> rfl

/-- FMT_FLOAT under Hex of a Normal or Subnormal operand writes the hex text into the span (46_dispatcher.md R250). -/
theorem exec_fmtFloat_hex {s : State} {l : Layout} (hs : s.spanReady)
    (hc : classifyFloat l (s.floatOperand l) = .normal ∨ classifyFloat l (s.floatOperand l) = .subnormal) (pv : Bool) :
    exec (.fmtFloat l .hex pv) s = .next (s.writeSpan (hexText l (s.floatOperand l) pv s.prec.toNat)) := by
  obtain ⟨hle, hhazard⟩ := hs
  calc exec (.fmtFloat l .hex pv) s
      = s.onSpan (s.writeSpan (floatText s.windows l (s.floatOperand l) .hex pv (s.precOperand pv))) := rfl
    _ = s.onSpan (s.writeSpan (hexText l (s.floatOperand l) pv s.prec.toNat)) := by
        rw [floatText_hex hc, hexText_precOperand]
    _ = .next _ := State.onSpan_ready _ (s.spanValid_iff.mpr hle) hhazard

/-- Settles O52: the command is the span write of the hex text, and R189's formula is that text's length. -/
theorem hexLengthDecidesTheOutcome : Obligations.HexLengthDecidesTheOutcome := by
  rintro l pv s x nf len hs rfl hclass hnf rfl
  refine ⟨_, exec_fmtFloat_hex hs hclass pv, ?_⟩
  rw [← hexText_length hnf]
  exact State.writeSpan_outcome hs.1 _

end Sys2Proof.Machine
end

section
/-! The bytes of the fixed writer's text (45_fixed_writer.md R217): the sign, then decimal digits with at most one point
among them. -/

namespace Sys2Proof.Machine

/-! ### Decimal digits as bytes -/

/-- The byte is a decimal digit (00_scope.md R14). -/
def IsDecDigit (c : Byte) : Prop := 0x30 ≤ c.toNat ∧ c.toNat ≤ 0x39

theorem isDecDigit_digitByte : ∀ d < 10, IsDecDigit (digitByte d) := by
  unfold IsDecDigit
  decide

theorem isDecDigit_chZero : IsDecDigit chZero := isDecDigit_digitByte 0 (by decide)

theorem not_isDecDigit_chPoint : ¬ IsDecDigit chPoint := by
  unfold IsDecDigit
  decide

theorem isDecDigit_of_mem_dec {n : Nat} {c : Byte} (hc : c ∈ dec n) : IsDecDigit c := by
  rw [dec_eq] at hc
  obtain ⟨d, hd, rfl⟩ := List.mem_map.mp hc
  exact isDecDigit_digitByte d (decDigits_lt _ n d hd)

theorem isDecDigit_of_mem_zeros {k : Nat} {c : Byte} (hc : c ∈ List.replicate k chZero) : IsDecDigit c :=
  List.eq_of_mem_replicate hc ▸ isDecDigit_chZero

/-! ### Digits around at most one point -/

/-- Decimal digits with at most one point among them. -/
def PlainDigits (bs : List Byte) : Prop :=
  ∃ whole point frac, bs = whole ++ point ++ frac ∧ (point = [] ∨ point = [chPoint]) ∧
    ∀ c ∈ whole ++ frac, IsDecDigit c

theorem PlainDigits.of_digits {bs : List Byte} (h : ∀ c ∈ bs, IsDecDigit c) : PlainDigits bs :=
  ⟨bs, [], [], by simp, Or.inl rfl, by simpa using h⟩

theorem PlainDigits.of_point {whole frac : List Byte} (h : ∀ c ∈ whole ++ frac, IsDecDigit c) :
    PlainDigits (whole ++ chPoint :: frac) :=
  ⟨whole, [chPoint], frac, by simp, Or.inr rfl, h⟩

theorem PlainDigits.digit_or_point {bs : List Byte} (h : PlainDigits bs) {c : Byte} (hc : c ∈ bs) :
    IsDecDigit c ∨ c = chPoint := by
  obtain ⟨whole, point, frac, rfl, hpoint, hdigits⟩ := h
  rcases hpoint with rfl | rfl
  · exact Or.inl (hdigits c (by simpa using hc))
  · by_cases hcp : c = chPoint
    · exact Or.inr hcp
    · exact Or.inl (hdigits c (by simpa [hcp] using hc))

/-- Only the point itself counts, since a point is no digit. -/
theorem PlainDigits.count_point_le_one {bs : List Byte} (h : PlainDigits bs) : bs.count chPoint ≤ 1 := by
  obtain ⟨whole, point, frac, rfl, hpoint, hdigits⟩ := h
  have hnone : (whole ++ frac).count chPoint = 0 :=
    List.count_eq_zero.mpr fun hmem => not_isDecDigit_chPoint (hdigits chPoint hmem)
  rw [List.count_append] at hnone
  rw [List.count_append, List.count_append]
  rcases hpoint with rfl | rfl <;> simp <;> omega

/-! ### The parts of the text (45_fixed_writer.md R215, R216, R222) -/

theorem signText_bytes (neg : Bool) : textBytes (signText neg) = [] ∨ textBytes (signText neg) = [chMinus] := by
  cases neg
  case false => exact Or.inl rfl
  case true => exact Or.inr rfl

/-- Each of the four forms of `Body` is digits, or digits around one point. -/
theorem fixedBody_plainDigits (sig : Nat) (ex : Int) : PlainDigits (textBytes (fixedBody sig ex)) := by
  unfold fixedBody
  dsimp only
  split_ifs
  · exact .of_digits (by simpa [textBytes, pieceBytes] using isDecDigit_chZero)
  · refine .of_digits fun c hc => ?_
    have hc : c ∈ dec sig ∨ c ∈ List.replicate ex.toNat chZero := by simpa [textBytes, pieceBytes] using hc
    exact hc.elim isDecDigit_of_mem_dec isDecDigit_of_mem_zeros
  · generalize ((ndigits sig : Int) + ex).toNat = k
    have h : PlainDigits ((dec sig).take k ++ chPoint :: (dec sig).drop k) :=
      .of_point fun c hc => isDecDigit_of_mem_dec ((dec sig).take_append_drop k ▸ hc)
    simpa [textBytes, pieceBytes] using h
  · generalize (-ex - (ndigits sig : Int)).toNat = k
    have h : PlainDigits ([chZero] ++ chPoint :: (List.replicate k chZero ++ dec sig)) := by
      refine .of_point fun c hc => ?_
      simp only [List.mem_append, List.mem_singleton] at hc
      rcases hc with rfl | hzeros | hdec
      · exact isDecDigit_chZero
      · exact isDecDigit_of_mem_zeros hzeros
      · exact isDecDigit_of_mem_dec hdec
    simpa [textBytes, pieceBytes] using h

/-- Settles O38: the text is the sign and the body, whatever decomposition is left to write. -/
theorem fixedTextIsPlainDecimal : Obligations.FixedTextIsPlainDecimal := by
  intro d pv p gen
  have hbody := fixedBody_plainDigits (adjustDecomp pv p gen d).sig (adjustDecomp pv p gen d).ex
  exact ⟨_, _, textBytes_append _ _, signText_bytes _, fun _ hc => hbody.digit_or_point hc, hbody.count_point_le_one⟩

end Sys2Proof.Machine
end

section
/-! The general-mode strip (45_fixed_writer.md R214): what it leaves of the rounded decomposition. -/

namespace Sys2Proof.Machine

/-! ### The sign through the rounding (45_fixed_writer.md R212, R213) -/

@[simp] theorem coarseCut_neg (fuel p : Nat) (d : Decomp) : (coarseCut fuel p d).neg = d.neg := by
  induction fuel generalizing d with
  | zero => rfl
  | succ fuel ih =>
    rw [coarseCut]
    split
    · exact ih (dropDigit d)
    · rfl

@[simp] theorem roundBoundary_neg (p : Nat) (d : Decomp) : (roundBoundary p d).neg = d.neg := by
  unfold roundBoundary
  split <;> [(split <;> rfl); rfl]

/-! ### What the strip leaves -/

/-- A number with k zeros at its end has more than k digits, so the strip's fuel does not run out (log 20). -/
theorem lt_ndigits_mul_ten_pow {m : Nat} (hm : 0 < m) (k : Nat) : k < ndigits (m * 10 ^ k) :=
  (Nat.pow_lt_pow_iff_right (by decide)).mp <|
    calc 10 ^ k ≤ m * 10 ^ k := Nat.le_mul_of_pos_left _ hm
      _ < 10 ^ ndigits (m * 10 ^ k) := lt_ten_pow_ndigits _

/-- All the zeros go, each adding 1 to the exponent; a significand of 0 stays as it is. -/
theorem stripZeros_cases (d : Decomp) :
    (d.sig = 0 ∧ stripZeros (ndigits d.sig) d = d) ∨
    ∃ m k : Nat, m % 10 ≠ 0 ∧ d.sig = m * 10 ^ k ∧ stripZeros (ndigits d.sig) d = ⟨m, d.ex + k, d.neg⟩ := by
  obtain ⟨sig, ex, neg⟩ := d
  by_cases hzero : sig = 0
  · subst hzero
    exact Or.inl ⟨rfl, rfl⟩
  · obtain ⟨k, m, hm, rfl⟩ := Nat.exists_eq_pow_mul_and_not_dvd hzero 10 (by decide)
    have hm : m % 10 ≠ 0 := mt Nat.dvd_of_mod_eq_zero hm
    have hfuel : k < ndigits (m * 10 ^ k) := lt_ndigits_mul_ten_pow (by omega) k
    rw [Nat.mul_comm]
    exact Or.inr ⟨m, k, hm, rfl, stripZeros_mul _ m k ex neg hfuel.le hm⟩

theorem stripZeros_neg (d : Decomp) : (stripZeros (ndigits d.sig) d).neg = d.neg := by
  rcases stripZeros_cases d with ⟨-, hstrip⟩ | ⟨m, k, -, -, hstrip⟩ <;> rw [hstrip]

theorem stripZeros_sig (d : Decomp) :
    (stripZeros (ndigits d.sig) d).sig = 0 ∨ (stripZeros (ndigits d.sig) d).sig % 10 ≠ 0 := by
  rcases stripZeros_cases d with ⟨hzero, hstrip⟩ | ⟨m, k, hm, -, hstrip⟩ <;> rw [hstrip]
  · exact Or.inl hzero
  · exact Or.inr hm

/-- Zeros at the end of the significand are worth their number in the exponent. -/
theorem stripZeros_value (d : Decomp) : decompValue (stripZeros (ndigits d.sig) d) = decompValue d := by
  rcases stripZeros_cases d with ⟨-, hstrip⟩ | ⟨m, k, -, hsig, hstrip⟩ <;> rw [hstrip]
  have hpow : (m : ℚ) * (10 : ℚ) ^ (d.ex + (k : Int)) = (d.sig : ℚ) * (10 : ℚ) ^ d.ex := by
    rw [hsig, zpow_add₀ (by norm_num)]
    push_cast
    rw [zpow_natCast]
    ring
  rw [decompValue_eq, decompValue_eq, hpow]

/-! ### Step 1 of the writer -/

/-- Without a precision the decomposition is written as it stands (45_fixed_writer.md R214). -/
theorem adjustDecomp_exact (p : Nat) (gen : Bool) (d : Decomp) : adjustDecomp false p gen d = d := rfl

/-- With a precision, general mode differs from fixed mode by the strip alone. -/
theorem adjustDecomp_general (p : Nat) (d : Decomp) :
    adjustDecomp true p true d = stripZeros (ndigits (adjustDecomp true p false d).sig) (adjustDecomp true p false d) := by
  simp [adjustDecomp]

theorem adjustDecomp_fixed_neg (p : Nat) (d : Decomp) : (adjustDecomp true p false d).neg = d.neg := by
  simp [adjustDecomp]

/-- Settles O39: general mode is the strip of the rounded decomposition, which loses neither value nor sign. -/
theorem generalStripKeepsTheValue : Obligations.GeneralStripKeepsTheValue := by
  intro d p
  rw [adjustDecomp_general]
  exact ⟨stripZeros_value _, (stripZeros_neg _).trans (adjustDecomp_fixed_neg p d), stripZeros_sig _,
    fun gen => adjustDecomp_exact p gen d⟩

end Sys2Proof.Machine
end

section
/-! The window tests (46_dispatcher.md R243 to R245): the scaled comparison of naturals is that of the rationals. -/

namespace Sys2Proof.Machine

/-- The classes the windows are about, by name (46_dispatcher.md R243, R244). -/
theorem nonzeroFinite_iff (c : FloatClass) : nonzeroFinite c = true ↔ c = .normal ∨ c = .subnormal := by
  simp [nonzeroFinite]

/-- Each branch of the test leaves out the power of two whose exponent is not positive, which is 1. -/
theorem magAtLeast_iff_scaled {l : Layout} {x : Quad} {n : Nat} :
    magAtLeast l x n = true ↔ decimalSide n 0 (scale l x) ≤ binarySide (significand l x) 0 (scale l x) := by
  unfold magAtLeast
  split
  · next h => simp [decimalSide, binarySide, Int.toNat_of_nonpos (Int.neg_nonpos_of_nonneg h)]
  · next h => simp [decimalSide, binarySide, Int.toNat_of_nonpos (le_of_not_ge h)]

theorem magAtLeast_iff {l : Layout} {x : Quad} {n : Nat} : magAtLeast l x n = true ↔ (n : ℚ) ≤ floatMag l x := by
  rw [magAtLeast_iff_scaled, decimalSide_le, zpow_zero, mul_one, floatMag]

theorem not_magAtLeast_iff {l : Layout} {x : Quad} {n : Nat} :
    (!magAtLeast l x n) = true ↔ floatMag l x < (n : ℚ) := by
  rw [Bool.not_eq_true', Bool.eq_false_iff, ne_eq, magAtLeast_iff, not_le]

theorem inFixedWindow_iff {w : WindowConfig} {l : Layout} {x : Quad} :
    inFixedWindow w l x = true ↔ (classifyFloat l x = .normal ∨ classifyFloat l x = .subnormal) ∧
      1 ≤ floatMag l x ∧ floatMag l x < ((windowOf w l).maxFrac : ℚ) := by
  rw [inFixedWindow, Bool.and_eq_true, Bool.and_eq_true, nonzeroFinite_iff, magAtLeast_iff, not_magAtLeast_iff,
    Nat.cast_one, and_assoc]

theorem inIntWindow_iff {w : WindowConfig} {l : Layout} {x : Quad} :
    inIntWindow w l x = true ↔ (classifyFloat l x = .normal ∨ classifyFloat l x = .subnormal) ∧
      ((windowOf w l).maxFrac : ℚ) ≤ floatMag l x ∧ floatMag l x < ((windowOf w l).maxInt : ℚ) := by
  rw [inIntWindow, Bool.and_eq_true, Bool.and_eq_true, nonzeroFinite_iff, magAtLeast_iff, not_magAtLeast_iff, and_assoc]

/-- Settles O43: both windows are a class test and two comparisons with the magnitude, each of them exact. -/
theorem windowTestsAreExact : Obligations.WindowTestsAreExact :=
  fun _ _ _ => ⟨inFixedWindow_iff, inIntWindow_iff⟩

end Sys2Proof.Machine
end

section
/-! The text of FMT_FLOAT, one equation per row of 46_dispatcher.md R248. -/

namespace Sys2Proof.Machine

/-- The bytes of a sign (44_hex_writer.md R190, 45_fixed_writer.md R222). -/
theorem signText_bytes_eq (neg : Bool) : textBytes (signText neg) = if neg = true then [0x2D] else [] := by
  cases neg
  case false => rfl
  case true => rfl

/-! ### The rows that are no decimal (rows 1 and 2; row 3 is `floatText_hex`) -/

/-- The non-finite classes, by name (42_float_layout.md R155). -/
theorem nonFinite_iff (c : FloatClass) :
    nonFinite c = true ↔ c = .infinite ∨ c = .quietNaN ∨ c = .signalingNaN := by
  cases c <;> simp [nonFinite]

/-- Row 1: a non-finite operand is its token, whatever the format and the precision. -/
theorem floatText_nonFinite {l : Layout} {x : Quad} (h : nonFinite (classifyFloat l x) = true) (w : WindowConfig)
    (f : Fmt) (pv : Bool) (p : Word) :
    textBytes (floatText w l x f pv p) = nfToken (classifyFloat l x) (extractFloat l x).sign := by
  have htext : floatText w l x f pv p = nfText (classifyFloat l x) (extractFloat l x).sign := if_pos h
  rw [htext]
  exact List.append_nil _

/-- Row 2: a zero under Hex is the zero literal. -/
theorem floatText_hexZero {l : Layout} {x : Quad} (h : classifyFloat l x = .zero) (w : WindowConfig) (pv : Bool)
    (p : Word) : floatText w l x .hex pv p = hexZeroText (extractFloat l x).sign := by
  simp [floatText, hexFormatText, nonFinite, h]

theorem hexZeroText_bytes (sign : Bool) :
    textBytes (hexZeroText sign) = (if sign = true then [0x2D] else []) ++ [0x30, 0x70, 0x2B, 0x30] := by
  rw [hexZeroText, textBytes_append, signText_bytes_eq]
  rfl

/-! ### The decimal formats (rows 4 to 8) -/

/-- A finite operand under a decimal format is written in the oracle's representation of the same name. -/
theorem floatText_decimal {l : Layout} {x : Quad} {f : Fmt} {df : DecFmt} (h : nonFinite (classifyFloat l x) = false)
    (hf : (f, df) = (.fixed, .fixed) ∨ (f, df) = (.scientific, .scientific) ∨ (f, df) = (.general, .general))
    (w : WindowConfig) (pv : Bool) (p : Word) : floatText w l x f pv p = decimalText w l x df pv p := by
  have hfinite : ¬ nonFinite (classifyFloat l x) = true := by simp [h]
  rcases hf with hf | hf | hf
  all_goals
    obtain ⟨rfl, rfl⟩ := Prod.mk.inj hf
    exact if_neg hfinite

/-- Row 4: Scientific without a precision has no window. -/
theorem decimalText_scientific (w : WindowConfig) (l : Layout) (x : Quad) (p : Word) :
    decimalText w l x .scientific false p = oracleShortest l x .scientific := rfl

/-- Rows 5 to 7 are those of Fixed and General without a precision. -/
theorem decimalText_window {f : DecFmt} (hf : f ≠ .scientific) (w : WindowConfig) (l : Layout) (x : Quad) (p : Word) :
    decimalText w l x f false p = windowText w l x f := by
  simp [decimalText, hf]

/-- Row 5. -/
theorem windowText_fixedWindow {w : WindowConfig} {l : Layout} {x : Quad} (h : inFixedWindow w l x = true)
    (f : DecFmt) : windowText w l x f = fixedText (oracleDecomp l x) false 0 (f = .general) := if_pos h

/-- Row 6, which comes after row 5. -/
theorem windowText_intWindow {w : WindowConfig} {l : Layout} {x : Quad} (hfixed : inFixedWindow w l x = false)
    (hint : inIntWindow w l x = true) (f : DecFmt) : windowText w l x f = plainIntText l x := by
  simp [windowText, hfixed, hint]

theorem plainIntText_bytes (l : Layout) (x : Quad) :
    textBytes (plainIntText l x) = (if (extractFloat l x).sign = true then [0x2D] else []) ++ dec (magInt l x) := by
  rw [plainIntText, textBytes_append, signText_bytes_eq]
  exact congrArg _ (List.append_nil _)

/-- Row 7: outside both windows. -/
theorem windowText_outside {w : WindowConfig} {l : Layout} {x : Quad} (hfixed : inFixedWindow w l x = false)
    (hint : inIntWindow w l x = false) (f : DecFmt) : windowText w l x f = oracleShortest l x f := by
  simp [windowText, hfixed, hint]

/-- Row 8 with the switch of R249: General in the fixed window is asked for as Fixed. -/
theorem decimalText_switched {w : WindowConfig} {l : Layout} {x : Quad} (h : inFixedWindow w l x = true) (p : Word) :
    decimalText w l x .general true p = oraclePrec l x .fixed (Config.adjPrec p (!magAtLeast l x 1) true) := by
  simp [decimalText, precisionText, h]

/-- Row 8 without the switch: the oracle is asked for the format itself. -/
theorem decimalText_unswitched {w : WindowConfig} {l : Layout} {x : Quad} {f : DecFmt}
    (h : ¬ (f = .general ∧ inFixedWindow w l x = true)) (p : Word) :
    decimalText w l x f true p = oraclePrec l x f (Config.adjPrec p (!magAtLeast l x 1) false) := by
  have hswitch : (decide (f = .general) && inFixedWindow w l x) = false := by simpa using h
  simp [decimalText, precisionText, hswitch]

/-! ### The routing -/

/-- Settles O42, row by row in the order of R248. -/
theorem floatTextRoutes : Obligations.FloatTextRoutes := by
  rintro w l x f df pv p _ _ rfl rfl
  refine ⟨fun hclass => floatText_nonFinite ((nonFinite_iff _).mpr hclass) w f pv p, fun hzero => ?hexZero,
    fun hclass => floatText_hex hclass w pv p, fun hfinite => ?scientific, fun hfinite hf => ?windows,
    fun hfinite hf => ?precision⟩
  case hexZero => rw [floatText_hexZero hzero, hexZeroText_bytes]
  case scientific => rw [floatText_decimal hfinite (.inr (.inl rfl)), decimalText_scientific]
  case windows =>
    have hdf : df ≠ .scientific := by rcases hf with h | h <;> cases h <;> decide
    have htext : floatText w l x f false p = windowText w l x df := by
      rw [floatText_decimal hfinite (hf.imp_right .inr), decimalText_window hdf]
    rw [htext]
    refine ⟨fun hfixed => windowText_fixedWindow hfixed df, fun _ hfixed hint => ?_,
      fun hfixed hint => windowText_outside hfixed hint df⟩
    rw [windowText_intWindow hfixed hint, plainIntText_bytes]
  case precision =>
    rw [floatText_decimal hfinite hf]
    refine ⟨?_, fun hno => decimalText_unswitched hno p⟩
    rintro ⟨rfl, hfixed⟩
    exact decimalText_switched hfixed p

end Sys2Proof.Machine
end

section
/-! The fault state (60_exceptions.md R270 to R276): a command either takes a fault or keeps FAULTED and CAUSE, and in the
fault state only reset writes FAULTED, STATUS or CAUSE. -/

namespace Sys2Proof.Machine

/-! ### Taking a fault, or keeping the fault state as it is -/

/-- The four causes of 60_exceptions.md R270. -/
theorem causeCode_mem (c : Cause) : causeCode c ∈ ([1, 2, 3, 4] : List (BitVec 4)) := by
  cases c <;> decide

theorem execAt_raises_or_keeps {aw : Nat} {i : Instr} {s t : State aw} (h : execAt i s = .next t) :
    (∃ c, t = s.raiseFault c) ∨ (t.faulted = s.faulted ∧ t.cause = s.cause) := by
  rcases execAt_next_cases h with hfault | ⟨text, _, _, rfl⟩ | ⟨width, sgn, b, _, _, rfl⟩ | ⟨r, r2, rfl⟩
  · exact .inl hfault
  · exact .inr ⟨s.writeSpan_faulted text, s.writeSpan_cause text⟩
  · exact .inr ⟨s.parseSpan_faulted width sgn b, s.parseSpan_cause width sgn b⟩
  · exact .inr ⟨rfl, rfl⟩

/-- The fault state is entered from outside only by `raiseFault`, on the state that holds the word in CMD: by the
decoder's checks or by the command itself. -/
theorem State.issue_enters_fault {aw : Nat} {s t : State aw} {w : Word} (hs : s.faulted = false)
    (h : s.issue w = .next t) (ht : t.faulted = true) : ∃ c, t = State.raiseFault { s with cmd := w } c := by
  rcases State.issue_next_cases h with ⟨hf, _⟩ | ⟨_, i, _, hi⟩ | ⟨_, e, _, rfl⟩
  · simp [hs] at hf
  · rcases execAt_raises_or_keeps hi with hfault | ⟨hkept, _⟩
    · exact hfault
    · rw [hkept] at ht
      simp [hs] at ht
  · exact ⟨_, rfl⟩

/-! ### The fault state -/

/-- Settles O7: the action is a write of CMD, and in the fault state that only stores the word. -/
theorem faultedCommandIsIgnored : Obligations.FaultedCommandIsIgnored := by
  intro s v rest hf hp
  refine ⟨{ s with pending := rest, cmd := v.setWidth 32 }, ?_, rfl, ?_, rfl⟩
  · rw [step, State.advance, hp]
    exact State.issue_faulted (s := { s with pending := rest }) _ hf
  · simp [State.hostRead, hf, statusCode]

/-- Settles O8, by the action the step takes: a write of CMD is ignored, and of the others only reset writes FAULTED,
STATUS or CAUSE. -/
theorem onlyResetLeavesFaultState : Obligations.OnlyResetLeavesFaultState := by
  intro s t hf h
  rcases step_next_cases h with ⟨hp, rfl⟩ | ⟨v, rest, hp, hissue⟩ | ⟨r, v, rest, _, hp, f, l, a, e, p, rfl⟩ |
    ⟨addr, text, rest, hp, _, rfl⟩ | ⟨rest, hp, rfl⟩ | ⟨rs, rest, hp, rfl⟩
  · exact .inr ⟨by simp [hp], hf, rfl, rfl⟩
  · rw [State.issue_faulted (s := { s with pending := rest }) _ hf] at hissue
    cases hissue
    exact .inr ⟨by simp [hp], hf, rfl, rfl⟩
  · exact .inr ⟨by simp [hp], hf, rfl, rfl⟩
  · exact .inr ⟨by simp [hp], hf, rfl, rfl⟩
  · exact .inl ⟨rest, hp, rfl, rfl, rfl⟩
  · exact .inr ⟨by simp [hp], hf, rfl, rfl⟩

/-- Settles O9: the fault raised is one of the four causes, on the state with the word in CMD. -/
theorem faultEntryIsPrecise : Obligations.FaultEntryIsPrecise := by
  intro s t w hs h ht
  obtain ⟨c, rfl⟩ := State.issue_enters_fault hs h ht
  exact ⟨causeCode c, causeCode_mem c, rfl⟩

/-- Settles O10: a fault would have left FAULT in STATUS, so the command kept FAULTED and CAUSE, and outside the fault
state a word that decodes is executed. -/
theorem statusesAreNotFaults : Obligations.StatusesAreNotFaults := by
  intro i s t hs h hstatus
  rcases execAt_raises_or_keeps ((execAt_eq_exec i s).trans h) with ⟨c, rfl⟩ | ⟨hfaulted, hcause⟩
  · simp [statusCode] at hstatus
  · have ht : t.faulted = false := hfaulted.trans hs
    exact ⟨ht, hcause, fun w j hd => State.issue_decoded ht hd⟩

end Sys2Proof.Machine
end

section
/-! Decoding and encoding are inverse (30_encoding.md R83 to R94): each field of an encoded command is read back where
the format puts it. -/

namespace Sys2Proof

theorem layoutOfField_layoutField (l : Layout) : layoutOfField (layoutField l) = l := by cases l <;> rfl

theorem fmtOfField_fmtField (f : Fmt) : fmtOfField (fmtField f) = f := by cases f <;> rfl

/-- A field above `y` is read off what stands above `y`. -/
theorem extract_append_of_le {hi lo start len : Nat} {x : BitVec hi} {y : BitVec lo} {f : BitVec len} (h : lo ≤ start)
    (hx : x.extractLsb' (start - lo) len = f) : (x ++ y).extractLsb' start len = f :=
  (BitVec.extractLsb'_append_eq_of_le h).trans hx

/-- A one-bit field holds the flag it was made from. -/
theorem getLsbD_of_extract {w : Word} {k : Nat} {b : Bool} (h : w.extractLsb' k 1 = BitVec.ofBool b) :
    w.getLsbD k = b := by
  rw [← ofBool_getLsbD] at h
  exact BitVec.ofBool_eq_iff_eq.mp h

theorem encode_fmtFloat_fields (l : Layout) (f : Fmt) (pv : Bool) :
    (encode (.fmtFloat l f pv)).extractLsb' 4 2 = layoutField l ∧
    (encode (.fmtFloat l f pv)).extractLsb' 6 2 = fmtField f ∧
    (encode (.fmtFloat l f pv)).extractLsb' 8 1 = BitVec.ofBool pv := by
  refine ⟨?layout, ?fmt, ?pv⟩
  case layout => exact extract_append_of_le (by decide) BitVec.extractLsb'_append_eq_right
  case fmt => iterate 2 refine extract_append_of_le (by decide) ?_
              exact BitVec.extractLsb'_append_eq_right
  case pv => iterate 3 refine extract_append_of_le (by decide) ?_
             exact BitVec.extractLsb'_append_eq_right

theorem encode_parseInt_fields (wid : BitVec 3) (sgn : Bool) (base : BitVec 6) :
    (encode (.parseInt wid sgn base)).extractLsb' 4 3 = wid ∧
    (encode (.parseInt wid sgn base)).extractLsb' 7 1 = BitVec.ofBool sgn ∧
    (encode (.parseInt wid sgn base)).extractLsb' 8 6 = base := by
  refine ⟨?wid, ?sgn, ?base⟩
  case wid => exact extract_append_of_le (by decide) BitVec.extractLsb'_append_eq_right
  case sgn => iterate 2 refine extract_append_of_le (by decide) ?_
              exact BitVec.extractLsb'_append_eq_right
  case base => iterate 3 refine extract_append_of_le (by decide) ?_
               exact BitVec.extractLsb'_append_eq_right

theorem encode_classifyFloat_field (l : Layout) : (encode (.classifyFloat l)).extractLsb' 4 2 = layoutField l :=
  extract_append_of_le (by decide) BitVec.extractLsb'_append_eq_right

theorem encode_writeFixed_fields (neg gen pv : Bool) :
    (encode (.writeFixed neg gen pv)).extractLsb' 10 1 = BitVec.ofBool neg ∧
    (encode (.writeFixed neg gen pv)).extractLsb' 9 1 = BitVec.ofBool gen ∧
    (encode (.writeFixed neg gen pv)).extractLsb' 8 1 = BitVec.ofBool pv := by
  refine ⟨?neg, ?gen, ?pv⟩
  case neg => iterate 4 refine extract_append_of_le (by decide) ?_
              exact BitVec.extractLsb'_append_eq_right
  case gen => iterate 3 refine extract_append_of_le (by decide) ?_
              exact BitVec.extractLsb'_append_eq_right
  case pv => iterate 2 refine extract_append_of_le (by decide) ?_
             exact BitVec.extractLsb'_append_eq_right

theorem encode_opcode (i : Instr) : Laws.EncodesOpcode.Statement i := by
  cases i with
  | fmtFloat l f pv => exact Laws.EncodesOpcode.fmtFloat l f pv
  | parseInt wid sgn base => exact Laws.EncodesOpcode.parseInt wid sgn base
  | classifyFloat l => exact Laws.EncodesOpcode.classifyFloat l
  | classifyDigit => exact Laws.EncodesOpcode.classifyDigit
  | writeFixed neg gen pv => exact Laws.EncodesOpcode.writeFixed neg gen pv

/-- The fields of an encoded command make the command again. -/
theorem fieldsOf_encode (i : Instr) : fieldsOf (encode i) = i := by
  have hop := (encode_opcode i).1
  cases i with
  | fmtFloat l f pv =>
    obtain ⟨hlayout, hfmt, hpv⟩ := encode_fmtFloat_fields l f pv
    rw [fieldsOf_fmtFloat hop, hlayout, hfmt, getLsbD_of_extract hpv, layoutOfField_layoutField, fmtOfField_fmtField]
  | parseInt wid sgn base =>
    obtain ⟨hwid, hsgn, hbase⟩ := encode_parseInt_fields wid sgn base
    rw [fieldsOf_parseInt hop, hwid, getLsbD_of_extract hsgn, hbase]
  | classifyFloat l =>
    rw [fieldsOf_classifyFloat hop, encode_classifyFloat_field, layoutOfField_layoutField]
  | classifyDigit => exact fieldsOf_classifyDigit hop
  | writeFixed neg gen pv =>
    obtain ⟨hneg, hgen, hpv⟩ := encode_writeFixed_fields neg gen pv
    rw [fieldsOf_writeFixed hop, getLsbD_of_extract hneg, getLsbD_of_extract hgen, getLsbD_of_extract hpv]

/-- Settles O1: the word has the OP of its command and no reserved bit, so it decodes to its fields, which are the
command's. -/
theorem decodeOfEncode : Obligations.DecodeOfEncode := by
  intro i
  obtain ⟨-, mask, hmask, hclear⟩ := encode_opcode i
  rw [decode, hmask]
  simp only [hclear, if_true, fieldsOf_encode]

/-- Settles O2: an accepted word has clear reserved bits, so it is the concatenation of its command's fields. -/
theorem encodeOfDecode : Obligations.EncodeOfDecode := by
  intro w i h
  by_cases hop : w.toNat % 16 = 0 ∨ 6 ≤ w.toNat % 16
  · rw [decode_undefined hop] at h
    cases h
  · rcases decode_defined hop with ⟨hclear, hd⟩ | ⟨-, hd⟩ <;> rw [hd] at h <;> cases h
    exact encode_fieldsOf hclear

/-- Settles O3: each of the spec's words evaluates to its command. -/
theorem specWordsDecode : Obligations.SpecWordsDecode := by
  unfold Obligations.SpecWordsDecode
  decide

end Sys2Proof
end

section
/-! One step by the action it takes (log 1), and the invariant of the machine. -/

namespace Sys2Proof.Machine

/-! ### The action a step takes -/

/-- A step performs the first action of the list on the state whose list is the rest (log 1). -/
theorem step_of_pending {s : State} {action : HostAction} {rest : List HostAction} (h : s.pending = action :: rest) :
    step s = State.act { s with pending := rest } action := by
  rw [step, State.advance, h]

/-- Settles O5: the action is a write of CMD, outside the fault state and with a word that decodes. -/
theorem stepRunsDecodedCommand : Obligations.StepRunsDecodedCommand := by
  intro s v rest i hf hp hd
  rw [step_of_pending hp]
  exact State.issue_decoded (s := { s with pending := rest }) hf hd

/-- Settles O6: the action put before the list is a write of CMD whose low 32 bits are the word. -/
theorem withFetchWordIssuesTheWord : Obligations.WithFetchWordIssuesTheWord := by
  intro s w hw
  have hword : (BitVec.ofNat 128 (w % 2 ^ 32 % 2 ^ 32)).setWidth 32 = BitVec.ofNat 32 w := by
    apply BitVec.eq_of_toNat_eq
    simp
  rw [step_of_pending (s := s.withFetchWord 32 w) rfl, State.act, State.hostWrite, hword]
  rfl

/-- Settles O11: `hostWrite` has no effect on each of the five. -/
theorem readOnlyWritesAreIgnored : Obligations.ReadOnlyWritesAreIgnored := by
  intro s r v rest hr hp
  rw [step_of_pending hp]
  simp only [List.mem_cons, List.not_mem_nil, or_false] at hr
  rcases hr with rfl | rfl | rfl | rfl | rfl <;> rfl

/-- Settles O14: reset sets the registers and keeps memory, WINDOW_CONFIG and the actions to come. -/
theorem resetKeepsMemoryAndWindows : Obligations.ResetKeepsMemoryAndWindows := by
  intro s rest hp
  exact ⟨State.platformReset { s with pending := rest }, step_of_pending hp, rfl, rfl, rfl, rfl, rfl, rfl, rfl⟩

/-- Settles O15: the fields of the reset state as `State.resetAt` gives them. -/
theorem resetStateHoldsSpecValues : Obligations.ResetStateHoldsSpecValues :=
  ⟨rfl, rfl, rfl, rfl, rfl, rfl, rfl, rfl⟩

/-! ### The operand registers -/

/-- A narrow register reads the low bits of the value written. -/
theorem toNat_setWidth_setWidth {n : Nat} (v : Quad) (h : n ≤ 128) :
    ((v.setWidth n).setWidth 128).toNat = v.toNat % 2 ^ n := by
  rw [BitVec.toNat_setWidth, BitVec.toNat_setWidth]
  exact Nat.mod_eq_of_lt (Nat.lt_of_lt_of_le (Nat.mod_lt _ (Nat.two_pow_pos n)) (Nat.pow_le_pow_right (by decide) h))

/-- Settles O12: each write changes the one field that the register is read from. -/
theorem operandWritesAreReadBack : Obligations.OperandWritesAreReadBack := by
  intro s r width v rest hr hp
  rw [step_of_pending hp]
  simp only [List.mem_cons, List.not_mem_nil, or_false, Prod.mk.injEq] at hr
  rcases hr with ⟨rfl, rfl⟩ | ⟨rfl, rfl⟩ | ⟨rfl, rfl⟩ | ⟨rfl, rfl⟩ | ⟨rfl, rfl⟩
  case inr.inr.inl => exact ⟨_, rfl, rfl, (Nat.mod_eq_of_lt v.isLt).symm, fun q hq => by cases q <;> trivial, rfl, rfl⟩
  all_goals
    refine ⟨_, rfl, rfl, toNat_setWidth_setWidth v (by decide), fun q hq => ?_, rfl, rfl⟩
    cases q <;> trivial

/-! ### The host store -/

/-- A region has an address in common with a range exactly when the larger start is below the smaller end. -/
theorem regionMeets_iff {r : Region} {lo hi : Nat} :
    regionMeets r lo hi = true ↔ ∃ a, r.base ≤ a ∧ a < r.base + r.size ∧ lo ≤ a ∧ a < hi := by
  rw [regionMeets, decide_eq_true_iff]
  constructor
  · intro h
    exact ⟨max r.base lo, by omega⟩
  · rintro ⟨a, hbase, hend, hlo, hhi⟩
    omega

/-- The model's test of a range against the declared regions with side effects (20_memory.md R68). -/
theorem State.meetsSideEffects_iff {aw : Nat} (s : State aw) (lo hi : Nat) :
    s.meetsSideEffects lo hi ↔ (s.regions.any fun r => r.kind = .sideEffects && regionMeets r lo hi) = true := by
  simp only [State.meetsSideEffects, List.any_eq_true, Bool.and_eq_true, decide_eq_true_iff, regionMeets_iff]

theorem State.hostStore_outside {aw : Nat} (s : State aw) {addr : Addr aw} {text : List Byte}
    (h : memorySize aw < addr.toNat + text.length) :
    s.hostStore addr text = .fault (.noSuchAddress (memorySize aw)) :=
  if_pos h

theorem State.hostStore_sideEffects {aw : Nat} {s : State aw} {addr : Addr aw} {text : List Byte}
    (hfit : addr.toNat + text.length ≤ memorySize aw)
    (h : s.meetsSideEffects addr.toNat (addr.toNat + text.length)) :
    s.hostStore addr text = .refused .storeSideEffects := by
  rw [State.hostStore, if_neg (Nat.not_lt.mpr hfit), if_pos ((s.meetsSideEffects_iff ..).mp h)]

theorem State.hostStore_stores {aw : Nat} {s : State aw} {addr : Addr aw} {text : List Byte}
    (hfit : addr.toNat + text.length ≤ memorySize aw)
    (h : ¬ s.meetsSideEffects addr.toNat (addr.toNat + text.length)) :
    s.hostStore addr text = .next { s with mem := s.mem.writeBytes addr.toNat text } := by
  rw [State.hostStore, if_neg (Nat.not_lt.mpr hfit), if_neg (mt (s.meetsSideEffects_iff ..).mpr h)]

/-- Settles O13, by the two checks of the store: the end of memory and the ranges with side effects. -/
theorem hostStoreWritesItsBytes : Obligations.HostStoreWritesItsBytes := by
  intro s addr text rest hp
  have hstep : step s = State.hostStore { s with pending := rest } addr text := step_of_pending hp
  refine ⟨fun hlong => hstep.trans (State.hostStore_outside _ hlong),
    fun hfit hmeets => hstep.trans (State.hostStore_sideEffects hfit hmeets), fun hfit hclear => ?_⟩
  exact ⟨_, hstep.trans (State.hostStore_stores hfit hclear), rfl, Memory.readBytes_writeBytes text s.mem _,
    fun _ hout => Memory.read_writeBytes_outside text s.mem hout⟩

/-! ### The invariant -/

/-- A command, a host action or a reset keeps WINDOW_CONFIG. -/
theorem execAt_sameInputs {aw : Nat} {i : Instr} {s t : State aw} (h : execAt i s = .next t) : s.sameInputs t := by
  rcases execAt_next_cases h with ⟨c, rfl⟩ | ⟨text, _, _, rfl⟩ | ⟨width, sgn, b, _, _, rfl⟩ | ⟨r, r2, rfl⟩ <;>
    simp [State.sameInputs]

/-- Settles O19: a fault, a span write, a parse and a classification write none of these fields. -/
theorem commandsKeepTheirInputs : Obligations.CommandsKeepTheirInputs := fun i s _ h =>
  execAt_sameInputs ((execAt_eq_exec i s).trans h)

theorem execAt_windows {aw : Nat} {i : Instr} {s t : State aw} (h : execAt i s = .next t) : t.windows = s.windows := by
  obtain ⟨-, -, -, -, -, -, hwindows, -, -⟩ := execAt_sameInputs h
  exact hwindows

theorem State.issue_windows {aw : Nat} {s t : State aw} {w : Word} (h : s.issue w = .next t) :
    t.windows = s.windows := by
  rcases State.issue_next_cases h with ⟨_, rfl⟩ | ⟨_, i, _, hi⟩ | ⟨_, e, _, rfl⟩
  · rfl
  · exact (execAt_windows hi).trans rfl
  · rfl

/-- Settles O18, by the action the step takes. -/
theorem windowConfigNeverChanges : Obligations.WindowConfigNeverChanges := by
  intro s t h
  rcases step_next_cases h with ⟨_, rfl⟩ | ⟨v, rest, _, hissue⟩ | ⟨r, v, rest, _, _, f, l, a, e, p, rfl⟩ |
    ⟨addr, text, rest, _, _, rfl⟩ | ⟨rest, _, rfl⟩ | ⟨rs, rest, _, rfl⟩
  case inr.inl => exact (State.issue_windows hissue).trans rfl
  all_goals rfl

/-- Settles O16. -/
theorem resetMeetsInvariant : Obligations.ResetMeetsInvariant :=
  ⟨State.reset_mem_wf, by decide, rfl, by decide⟩

/-- Outside the fault state the fault state stays consistent where FAULTED and CAUSE are kept and STATUS is no reserved
code. -/
theorem State.faultStateOk.keep {aw : Nat} {s t : State aw} (h : s.faultStateOk) (hs : s.faulted = false)
    (hfaulted : t.faulted = s.faulted) (hcause : t.cause = s.cause) (hstatus : t.status.toNat ≤ 4) :
    t.faultStateOk := by
  simp only [State.faultStateOk, hfaulted, hcause, hs] at h ⊢
  exact ⟨h.1, hstatus⟩

theorem State.raiseFault_faultStateOk {aw : Nat} (s : State aw) (c : Cause) : (s.raiseFault c).faultStateOk := by
  cases c <;> simp [State.faultStateOk, statusCode, causeCode]

/-- Everything a parse can do: an outcome, with CURSOR, and with RESULT when that is OK (41_integer_decoder.md R130). -/
theorem State.parseSpan_cases {aw : Nat} (s : State aw) (width : Nat) (sgn : Bool) (b : Nat) :
    s.parseSpan width sgn b = s.parseInvalid ∨
    (∃ c, s.parseSpan width sgn b = { s with cursor := c, status := statusCode .outOfRange }) ∨
    (∃ c r, s.parseSpan width sgn b = { s with cursor := c, result := r, status := statusCode .ok }) := by
  unfold State.parseSpan
  split
  · exact .inl rfl
  split
  · exact .inl rfl
  rcases s.parseEnd_cases width sgn (s.takesMinus sgn) (s.digitsStart sgn) (s.scanSpan width sgn b) with
    ⟨_, h⟩ | ⟨_, _, h⟩ | ⟨_, _, h⟩
  · exact .inl h
  · exact .inr (.inl ⟨_, h⟩)
  · exact .inr (.inr ⟨_, _, h⟩)

/-- A span write stays inside memory, since LAST is an address (20_memory.md R60). -/
theorem State.writeSpan_mem_wf {aw : Nat} {s : State aw} (hv : s.spanValid = true) (hm : s.mem.wf aw = true)
    (text : Text) : (s.writeSpan text).mem.wf aw = true := by
  have hle := s.spanValid_iff.mp hv
  have hlast : s.last.toNat < memorySize aw := s.last.isLt
  rw [State.writeSpan_mem]
  split
  · next hfit =>
    unfold State.spanSize at hfit
    exact Memory.wf_writeBytes _ (by rw [textBytes_length]; omega) hm
  · exact hm

/-- No command ends with a reserved code in STATUS (10_state.md R27). -/
theorem State.writeSpan_status_le {aw : Nat} (s : State aw) (text : Text) : (s.writeSpan text).status.toNat ≤ 4 := by
  rw [State.writeSpan_status]
  split <;> decide

theorem State.parseSpan_status_le {aw : Nat} (s : State aw) (width : Nat) (sgn : Bool) (b : Nat) :
    (s.parseSpan width sgn b).status.toNat ≤ 4 := by
  rcases s.parseSpan_cases width sgn b with h | ⟨c, h⟩ | ⟨c, r, h⟩ <;> rw [h]
  · exact (by decide : (statusCode .invalidArgument).toNat ≤ 4)
  · exact (by decide : (statusCode .outOfRange).toNat ≤ 4)
  · exact (by decide : (statusCode .ok).toNat ≤ 4)

/-- A command issued outside the fault state keeps the invariant. -/
theorem execAt_keeps_inv {aw : Nat} {i : Instr} {s t : State aw} (hs : s.Inv) (hf : s.faulted = false)
    (h : execAt i s = .next t) : t.Inv := by
  obtain ⟨hmem, hwindows, hfault⟩ := hs
  refine ⟨?_, execAt_windows h ▸ hwindows, ?_⟩ <;>
    rcases execAt_next_cases h with ⟨c, rfl⟩ | ⟨text, hv, _, rfl⟩ | ⟨width, sgn, b, _, _, rfl⟩ | ⟨r, r2, rfl⟩
  · exact hmem
  · exact State.writeSpan_mem_wf hv hmem text
  · rw [State.parseSpan_mem]; exact hmem
  · exact hmem
  · exact s.raiseFault_faultStateOk c
  · exact hfault.keep hf (s.writeSpan_faulted text) (s.writeSpan_cause text) (s.writeSpan_status_le text)
  · exact hfault.keep hf (s.parseSpan_faulted width sgn b) (s.parseSpan_cause width sgn b)
      (s.parseSpan_status_le width sgn b)
  · exact hfault.keep hf rfl rfl (by decide : (statusCode .ok).toNat ≤ 4)

/-- A write of CMD keeps the invariant. -/
theorem State.issue_keeps_inv {aw : Nat} {s t : State aw} {w : Word} (hs : s.Inv) (h : s.issue w = .next t) :
    t.Inv := by
  rcases State.issue_next_cases h with ⟨_, rfl⟩ | ⟨hf, i, _, hi⟩ | ⟨_, e, _, rfl⟩
  · exact hs
  · exact execAt_keeps_inv (s := { s with cmd := w }) hs hf hi
  · obtain ⟨hmem, hwindows, _⟩ := hs
    exact ⟨hmem, hwindows, State.raiseFault_faultStateOk { s with cmd := w } _⟩

/-- Settles O17, by the action the step takes: only a command, a host store and a reset write what the invariant speaks
of. -/
theorem stepKeepsInvariant : Obligations.StepKeepsInvariant := by
  intro s t hs h
  rcases step_next_cases h with ⟨_, rfl⟩ | ⟨v, rest, _, hissue⟩ | ⟨r, v, rest, _, _, f, l, a, e, p, rfl⟩ |
    ⟨addr, text, rest, _, hend, rfl⟩ | ⟨rest, _, rfl⟩ | ⟨rs, rest, _, rfl⟩
  · exact hs
  · exact State.issue_keeps_inv (s := { s with pending := rest }) hs hissue
  · exact hs
  · obtain ⟨hmem, hwindows, hfault⟩ := hs
    exact ⟨Memory.wf_writeBytes text hend hmem, hwindows, hfault⟩
  · obtain ⟨hmem, hwindows, _⟩ := hs
    exact ⟨hmem, hwindows, rfl, Nat.zero_le 4⟩
  · exact hs

end Sys2Proof.Machine
end

section
/-! What each command writes (10_state.md R41), and the spans that hold no text or are no place for a command
(20_memory.md R68, R72, R77). -/

namespace Sys2Proof.Machine

/-! ### The commands by what they end in -/

/-- PARSE_INT faults or ends in a parse (41_integer_decoder.md R130). -/
theorem execParseInt_next_cases {aw : Nat} {wid : BitVec 3} {sgn : Bool} {base : BitVec 6} {s t : State aw}
    (h : execParseInt wid sgn base s = .next t) :
    (∃ c, t = s.raiseFault c) ∨ ∃ width b, t = s.parseSpan width sgn b := by
  unfold execParseInt at h
  split at h
  · cases h; exact .inl ⟨_, rfl⟩
  split at h
  · cases h; exact .inl ⟨_, rfl⟩
  rcases State.onSpan_next_cases h with ⟨_, _, rfl⟩ | ⟨_, rfl⟩
  · exact .inr ⟨_, _, rfl⟩
  · exact .inl ⟨_, rfl⟩

/-- A command that faults writes FAULTED, STATUS and CAUSE and nothing else (60_exceptions.md R273). -/
theorem State.raiseFault_eq {aw : Nat} (s : State aw) (c : Cause) :
    s.raiseFault c = { s with faulted := true, status := 0xF, cause := (s.raiseFault c).cause } := rfl

/-- What a span write leaves of memory (20_memory.md R63, R64): with OK all but the bytes from FIRST to CURSOR, with
VALUE_TOO_LARGE everything. -/
theorem State.writeSpan_memory {aw : Nat} {s : State aw} (hv : s.spanValid = true) (text : Text) :
    ((s.writeSpan text).status = 0x1 ∧ ∀ a, a < s.first.toNat ∨ (s.writeSpan text).cursor.toNat ≤ a →
      (s.writeSpan text).mem.read a = s.mem.read a) ∨
    ((s.writeSpan text).status = 0x2 ∧ s.sameMemory (s.writeSpan text)) := by
  have hle := s.spanValid_iff.mp hv
  rcases s.writeSpan_cases text with ⟨hfit, hw⟩ | ⟨_, hw⟩ <;> rw [hw]
  · have hend : s.first.toNat + textLength text ≤ s.last.toNat := (Nat.le_sub_iff_add_le' hle).mp hfit
    refine .inl ⟨rfl, fun a ha => Memory.read_writeBytes_outside _ _ ?_⟩
    rwa [State.toNat_ofNat_of_le_last hend, ← textBytes_length] at ha
  · exact .inr ⟨rfl, fun _ => rfl⟩

/-- A writer (45_fixed_writer.md R225, 46_dispatcher.md R250) faults or writes STATUS, CURSOR and memory. -/
theorem State.onSpan_writeSpan_writes {aw : Nat} {s t : State aw} {text : Text}
    (h : s.onSpan (s.writeSpan text) = .next t) :
    (∃ c, t = s.raiseFault c) ∨
    (t.faulted = s.faulted ∧ t.result = s.result ∧ t.result2 = s.result2 ∧
      ((t.status = 0x1 ∧ ∀ a, a < s.first.toNat ∨ t.cursor.toNat ≤ a → t.mem.read a = s.mem.read a) ∨
        (t.status = 0x2 ∧ s.sameMemory t))) := by
  rcases State.onSpan_next_cases h with ⟨hv, _, rfl⟩ | ⟨_, rfl⟩
  · exact .inr ⟨s.writeSpan_faulted text, s.writeSpan_result text, s.writeSpan_result2 text,
      State.writeSpan_memory hv text⟩
  · exact .inl ⟨_, rfl⟩

/-- A parse writes RESULT only with OK (41_integer_decoder.md R131). -/
theorem State.parseSpan_result {aw : Nat} (s : State aw) (width : Nat) (sgn : Bool) (b : Nat) :
    (s.parseSpan width sgn b).status = 0x1 ∨
    (((s.parseSpan width sgn b).status = 0x3 ∨ (s.parseSpan width sgn b).status = 0x4) ∧
      (s.parseSpan width sgn b).result = s.result) := by
  rcases s.parseSpan_cases width sgn b with h | ⟨c, h⟩ | ⟨c, r, h⟩ <;> rw [h]
  · exact .inr ⟨.inl rfl, rfl⟩
  · exact .inr ⟨.inr rfl, rfl⟩
  · exact .inl rfl

/-- Settles O20, by the command: a fault, a span write, a parse or a classification. -/
theorem writesPerCommand : Obligations.WritesPerCommand := by
  intro i s t hf h
  have hinputs := commandsKeepTheirInputs i s t h
  rcases execAt_raises_or_keeps ((execAt_eq_exec i s).trans h) with ⟨c, rfl⟩ | ⟨hfaulted, hcause⟩
  · exact (if_pos rfl).mpr (s.raiseFault_eq c)
  have hok : ¬ t.faulted = true := by simp [hfaulted, hf]
  have hno (c : Cause) : t ≠ s.raiseFault c := fun ht => hok (ht ▸ rfl)
  rw [if_neg hok]
  refine ⟨hcause, hinputs, ?_⟩
  cases i with
  | fmtFloat l f pv =>
    rcases State.onSpan_writeSpan_writes h with ⟨c, ht⟩ | ⟨_, hwrites⟩
    · exact absurd ht (hno c)
    · exact hwrites
  | parseInt wid sgn base =>
    rcases execParseInt_next_cases h with ⟨c, ht⟩ | ⟨width, b, rfl⟩
    · exact absurd ht (hno c)
    · exact ⟨s.parseSpan_result2 width sgn b, s.parseSpan_mem width sgn b, s.parseSpan_result width sgn b⟩
  | classifyFloat l => cases h; exact ⟨rfl, rfl, rfl⟩
  | classifyDigit => cases h; exact ⟨rfl, rfl, rfl, rfl⟩
  | writeFixed neg gen pv =>
    rcases State.onSpan_writeSpan_writes h with ⟨c, ht⟩ | ⟨_, hwrites⟩
    · exact absurd ht (hno c)
    · exact hwrites

/-! ### Every text has a byte (20_memory.md R77) -/

theorem dec_length_pos (n : Nat) : 0 < (dec n).length := ndigits_pos n

theorem nfText_length_pos {c : FloatClass} (h : nonFinite c = true) (sign : Bool) : 0 < textLength (nfText c sign) := by
  rcases (nonFinite_iff c).mp h with rfl | rfl | rfl <;> cases sign <;> decide

theorem fixedBody_length_pos (sig : Nat) (ex : Int) : 0 < textLength (fixedBody sig ex) := by
  have hdec := dec_length_pos sig
  unfold fixedBody
  dsimp only
  split_ifs <;>
    simp only [textLength, pieceLength, List.length_cons, List.length_nil, List.length_take, List.length_drop] <;> omega

theorem fixedText_length_pos (d : Decomp) (pv : Bool) (p : Nat) (gen : Bool) :
    0 < textLength (fixedText d pv p gen) := by
  have hbody := fixedBody_length_pos (adjustDecomp pv p gen d).sig (adjustDecomp pv p gen d).ex
  rw [fixedText, decompText, textLength_append]
  omega

theorem hexText_length_pos (l : Layout) (x : Quad) (pv : Bool) (p : Nat) : 0 < textLength (hexText l x pv p) := by
  rw [hexText_length rfl]
  omega

theorem plainIntText_length_pos (l : Layout) (x : Quad) : 0 < textLength (plainIntText l x) := by
  have hdec := dec_length_pos (magInt l x)
  simp only [plainIntText, textLength_append, textLength, pieceLength]
  omega

theorem oracleText_length_pos (l : Layout) (x : Quad) (f : DecFmt) (ok : List Byte → Bool) (raw : Byte × List Byte) :
    0 < textLength (oracleText l x f ok raw) := by
  simp only [oracleText, nonemptyText, textLength, pieceLength, List.length_cons]
  omega

theorem decimalText_length_pos (w : WindowConfig) (l : Layout) (x : Quad) (f : DecFmt) (pv : Bool) (p : Word) :
    0 < textLength (decimalText w l x f pv p) := by
  unfold decimalText windowText
  split_ifs
  · exact oracleText_length_pos ..
  · exact oracleText_length_pos ..
  · exact fixedText_length_pos ..
  · exact plainIntText_length_pos ..
  · exact oracleText_length_pos ..

theorem floatText_length_pos (w : WindowConfig) (l : Layout) (x : Quad) (f : Fmt) (pv : Bool) (p : Word) :
    0 < textLength (floatText w l x f pv p) := by
  unfold floatText
  split
  · next h => exact nfText_length_pos h _
  cases f with
  | hex =>
    show 0 < textLength (hexFormatText l x pv p)
    unfold hexFormatText
    split
    · cases (extractFloat l x).sign <;> decide
    · exact hexText_length_pos ..
  | fixed => exact decimalText_length_pos ..
  | scientific => exact decimalText_length_pos ..
  | general => exact decimalText_length_pos ..

/-! ### The empty span -/

/-- An empty span is valid, has no byte and meets no region (20_memory.md R77, log 18). -/
theorem State.empty_span {aw : Nat} {s : State aw} (h : s.first = s.last) :
    s.spanValid = true ∧ s.spanSize = 0 ∧ s.spanHazard = none := by
  have hmeets (r : Region) : regionMeets r s.first.toNat s.last.toNat = false := by
    rw [← Bool.not_eq_true, regionMeets_iff, h]
    rintro ⟨a, _, _, hlo, hhi⟩
    omega
  refine ⟨s.spanValid_iff.mpr (h ▸ Nat.le_refl _), ?_, ?_⟩
  · rw [State.spanSize, h, Nat.sub_self]
  · simp [State.spanHazard, hmeets]

theorem State.onSpan_empty {aw : Nat} {s : State aw} (h : s.first = s.last) (t : State aw) : s.onSpan t = .next t :=
  have ⟨hv, _, hh⟩ := State.empty_span h
  State.onSpan_ready t hv hh

theorem State.writeSpan_empty {aw : Nat} {s : State aw} (h : s.first = s.last) {text : Text}
    (ht : 0 < textLength text) : s.writeSpan text = { s with cursor := s.first, status := 0x2 } := by
  obtain ⟨_, hsize, _⟩ := State.empty_span h
  rw [State.writeSpan, if_neg (by omega), h]
  rfl

/-- A writer on an empty span (20_memory.md R77). -/
theorem State.onSpan_writeSpan_empty {aw : Nat} {s : State aw} (h : s.first = s.last) {text : Text}
    (ht : 0 < textLength text) :
    s.onSpan (s.writeSpan text) = .next { s with cursor := s.first, status := 0x2 } := by
  rw [State.onSpan_empty h, State.writeSpan_empty h ht]

/-- Settles O24: the span check passes, no text fits, and a parse of nothing is invalid. -/
theorem emptySpanHoldsNoText : Obligations.EmptySpanHoldsNoText := by
  intro i s hu hw h
  cases i with
  | fmtFloat l f pv => exact State.onSpan_writeSpan_empty h (floatText_length_pos ..)
  | parseInt wid sgn base =>
    obtain ⟨hwid, hlo, hhi⟩ := wellFormed_parseInt_iff.mp hw
    have hparse : s.parseSpan (8 * 2 ^ wid.toNat) sgn base.toNat = s.parseInvalid := if_pos h
    exact (execParseInt_of_legal sgn s hwid hlo hhi).trans ((State.onSpan_empty h _).trans (congrArg _ hparse))
  | classifyFloat l => cases hu
  | classifyDigit => cases hu
  | writeFixed neg gen pv => exact State.onSpan_writeSpan_empty h (fixedText_length_pos ..)

/-! ### Spans over declared regions -/

/-- The hazard of a span that meets a region of either kind (log 18). -/
theorem State.spanHazard_sideEffects {aw : Nat} {s : State aw} (h : s.meetsSideEffects s.first.toNat s.last.toNat) :
    s.spanHazard = some .spanSideEffects :=
  if_pos ((s.meetsSideEffects_iff ..).mp h)

@[inherit_doc State.spanHazard_sideEffects]
theorem State.spanHazard_contended {aw : Nat} {s : State aw} (h : ¬ s.meetsSideEffects s.first.toNat s.last.toNat)
    {r : Region} (hr : r ∈ s.regions) (hk : r.kind = .contended)
    (hm : regionMeets r s.first.toNat s.last.toNat = true) : s.spanHazard = some .spanContended := by
  rw [State.spanHazard, if_neg (mt (s.meetsSideEffects_iff ..).mpr h), if_pos]
  exact List.any_eq_true.mpr ⟨r, hr, by simp [hk, hm]⟩

theorem State.onSpan_hazard {aw : Nat} {s : State aw} {r : Refusal} (hv : s.spanValid = true)
    (hh : s.spanHazard = some r) (t : State aw) : s.onSpan t = .refused r := by
  rw [State.onSpan, if_pos hv, hh]

/-- Settles O25: the command is the span check, and the region met decides which refusal that is. -/
theorem spansOverRegionsAreRefused : Obligations.SpansOverRegionsAreRefused := by
  intro i s r a hu hw hr hlo hhi hbase hend
  obtain ⟨t, ht⟩ := exec_eq_onSpan s hu hw
  have hv : s.spanValid = true := s.spanValid_iff.mpr (by omega)
  cases hk : r.kind with
  | sideEffects =>
    have hmeets : s.meetsSideEffects s.first.toNat s.last.toNat := ⟨r, hr, hk, a, hbase, hend, hlo, hhi⟩
    exact ht.trans (State.onSpan_hazard hv (State.spanHazard_sideEffects hmeets) t)
  | contended =>
    have hm : regionMeets r s.first.toNat s.last.toNat = true := regionMeets_iff.mpr ⟨a, hbase, hend, hlo, hhi⟩
    exact ⟨fun h => ht.trans (State.onSpan_hazard hv (State.spanHazard_sideEffects h) t),
      fun h => ht.trans (State.onSpan_hazard hv (State.spanHazard_contended h hr hk hm) t)⟩

end Sys2Proof.Machine
end

section
/-! CLASSIFY_DIGIT and CLASSIFY_FLOAT with A read off as a number (40_digit_classifier.md, 42_float_layout.md), and the
field checks of PARSE_INT (30_encoding.md R94). -/

namespace Sys2Proof.Machine

/-! ### PARSE_INT's fields -/

/-- Settles O29: WID is checked first, then BASE. -/
theorem parseIntFieldFaults : Obligations.ParseIntFieldFaults := by
  intro wid sgn base s
  exact ⟨execParseInt_badField sgn base s, fun hw hb => execParseInt_badBase sgn s hw (by omega)⟩

/-! ### The digit classifier -/

/-- DIGIT_TABLE as numbers (40_digit_classifier.md R110). -/
theorem digitTable_toNat (c : Byte) : (digitTable c).toNat =
    if 0x30 ≤ c.toNat ∧ c.toNat ≤ 0x39 then c.toNat - 0x30
    else if 0x41 ≤ c.toNat ∧ c.toNat ≤ 0x5A then c.toNat - 0x41 + 10
    else if 0x61 ≤ c.toNat ∧ c.toNat ≤ 0x7A then c.toNat - 0x61 + 10
    else 0xFF := by
  revert c
  decide

theorem State.charOperand_toNat {aw : Nat} (s : State aw) : s.charOperand.toNat = s.a.toNat % 2 ^ 8 := by
  simp [State.charOperand]

/-- A byte in a 128-bit register is its number. -/
theorem setWidth_eq_ofNat (b : Byte) : b.setWidth 128 = BitVec.ofNat 128 b.toNat := by
  apply BitVec.eq_of_toNat_eq
  rw [BitVec.toNat_setWidth, BitVec.toNat_ofNat]

/-- Settles O26: the table's entry for the low byte of A. -/
theorem classifyDigitResult : Obligations.ClassifyDigitResult := by
  intro s
  rw [← s.charOperand_toNat, ← digitTable_toNat, ← setWidth_eq_ofNat]
  rfl

/-- Settles O27: the 26 letters, and three numerals. -/
theorem lettersAreCaseInsensitive : Obligations.LettersAreCaseInsensitive := by
  unfold Obligations.LettersAreCaseInsensitive
  decide

/-! ### The fields of the floating operand -/

/-- A number below 2^128 is its 128-bit value. -/
theorem State.floatOperand_eq {aw : Nat} (s : State aw) (l : Layout) :
    s.floatOperand l = BitVec.ofNat 128 (s.a.toNat % 2 ^ (layoutRow l).width) := by
  apply BitVec.eq_of_toNat_eq
  have hlt := Nat.lt_of_le_of_lt (Nat.mod_le s.a.toNat (2 ^ (layoutRow l).width)) s.a.isLt
  rw [State.floatOperand_toNat, BitVec.toNat_ofNat, Nat.mod_eq_of_lt hlt]

/-- A field inside the low `w` bits of a number is read off those bits. -/
theorem mod_div_mod {w lo k : Nat} (n : Nat) (h : lo + k ≤ w) : n % 2 ^ w / 2 ^ lo % 2 ^ k = n / 2 ^ lo % 2 ^ k := by
  obtain ⟨d, rfl⟩ := Nat.exists_eq_add_of_le h
  rw [Nat.add_assoc, Nat.pow_add, Nat.mod_mul_right_div_self,
    Nat.mod_mod_of_dvd _ (Nat.pow_dvd_pow 2 (Nat.le_add_right k d))]

theorem State.floatOperand_field {aw : Nat} (s : State aw) {l : Layout} {lo k : Nat}
    (h : lo + k ≤ (layoutRow l).width) :
    ((s.floatOperand l).extractLsb' lo k).toNat = s.a.toNat / 2 ^ lo % 2 ^ k := by
  rw [BitVec.extractLsb'_toNat, Nat.shiftRight_eq_div_pow, State.floatOperand_toNat, mod_div_mod _ h]

theorem State.floatOperand_bit {aw : Nat} (s : State aw) {l : Layout} {b : Nat} (h : b < (layoutRow l).width) :
    (s.floatOperand l).getLsbD b = decide (s.a.toNat / 2 ^ b % 2 = 1) := by
  have hbit := mod_div_mod s.a.toNat (lo := b) (k := 1) h
  rw [BitVec.getLsbD, State.floatOperand_toNat, Nat.testBit_eq_decide_div_mod_eq]
  simpa using congrArg (fun n => decide (n = 1)) hbit

/-- Every field of a layout lies inside its width (42_float_layout.md R150). -/
theorem layout_fields_inside (l : Layout) :
    (layoutRow l).expLo + (layoutRow l).expWidth ≤ (layoutRow l).width ∧
    (layoutRow l).fracWidth ≤ (layoutRow l).width ∧ (layoutRow l).signBit + 1 = (layoutRow l).width ∧
    (layoutRow l).quietBit + 1 = (layoutRow l).fracWidth ∧ (layoutRow l).expWidth ≤ 15 := by
  cases l <;> decide

theorem State.floatOperand_exponent {aw : Nat} (s : State aw) (l : Layout) :
    (extractFloat l (s.floatOperand l)).exponent = s.a.toNat / 2 ^ (layoutRow l).expLo % 2 ^ (layoutRow l).expWidth :=
  s.floatOperand_field (layout_fields_inside l).1

theorem State.floatOperand_fraction {aw : Nat} (s : State aw) (l : Layout) :
    (extractFloat l (s.floatOperand l)).fraction = s.a.toNat % 2 ^ (layoutRow l).fracWidth := by
  obtain ⟨_, hfrac, _⟩ := layout_fields_inside l
  exact (s.floatOperand_field (lo := 0) (by omega)).trans (by rw [Nat.pow_zero, Nat.div_one])

theorem State.floatOperand_sign {aw : Nat} (s : State aw) (l : Layout) :
    (extractFloat l (s.floatOperand l)).sign = decide (s.a.toNat / 2 ^ (layoutRow l).signBit % 2 = 1) := by
  obtain ⟨_, _, hsign, _⟩ := layout_fields_inside l
  exact s.floatOperand_bit (by omega)

theorem State.floatOperand_quiet {aw : Nat} (s : State aw) (l : Layout) :
    (s.floatOperand l).getLsbD (layoutRow l).quietBit = decide (s.a.toNat / 2 ^ (layoutRow l).quietBit % 2 = 1) := by
  obtain ⟨_, hfrac, _, hquiet, _⟩ := layout_fields_inside l
  exact s.floatOperand_bit (by omega)

/-- Only B80 stores the integer bit; elsewhere it is 1 when E is not 0 (42_float_layout.md R151). -/
theorem extractFloat_intBit (l : Layout) (x : Quad) :
    (extractFloat l x).intBit = if l = .b80 then x.getLsbD 63 else decide ((extractFloat l x).exponent ≠ 0) := by
  have hne (n : Nat) : (n != 0) = decide (n ≠ 0) := by
    rw [Bool.eq_iff_iff]; simp
  cases l with
  | b80 => rfl
  | b32 => exact hne _
  | b64 => exact hne _
  | b128 => exact hne _

theorem State.floatOperand_intBit {aw : Nat} (s : State aw) (l : Layout) :
    (extractFloat l (s.floatOperand l)).intBit =
      if l = .b80 then decide (s.a.toNat / 2 ^ 63 % 2 = 1)
      else decide (s.a.toNat / 2 ^ (layoutRow l).expLo % 2 ^ (layoutRow l).expWidth ≠ 0) := by
  rw [extractFloat_intBit, s.floatOperand_exponent]
  split
  · next h => subst h; exact s.floatOperand_bit (l := .b80) (by decide)
  · rfl

/-! ### CLASSIFY_FLOAT -/

theorem toNat_append_add {m n : Nat} (x : BitVec m) (y : BitVec n) : (x ++ y).toNat = x.toNat * 2 ^ n + y.toNat := by
  rw [BitVec.toNat_append, ← Nat.shiftLeft_add_eq_or_of_lt y.isLt, Nat.shiftLeft_eq]

/-- The packed RESULT as a number (42_float_layout.md R158). -/
theorem packClass_eq (f : FloatFields) (c : FloatClass) (he : f.exponent < 2 ^ 15) :
    packClass f c = BitVec.ofNat 128
      ((classCode c).toNat + 8 * f.sign.toNat + 16 * f.exponent + 2 ^ 19 * f.intBit.toNat) := by
  apply BitVec.eq_of_toNat_eq
  rw [packClass, BitVec.toNat_setWidth, toNat_append_add, toNat_append_add, toNat_append_add, BitVec.toNat_ofNat,
    BitVec.toNat_ofNat, BitVec.toNat_ofBool, BitVec.toNat_ofBool, Nat.mod_eq_of_lt he]
  congr 1
  ring

/-- The class code from the fields (42_float_layout.md R152, R157). -/
theorem classCode_classifyFloat (l : Layout) (x : Quad) :
    (classCode (classifyFloat l x)).toNat =
      if (extractFloat l x).exponent = 0 then
        (if (extractFloat l x).intBit = false ∧ (extractFloat l x).fraction = 0 then 0 else 2)
      else if (extractFloat l x).exponent = (layoutRow l).emax then
        (if (extractFloat l x).fraction = 0 then 3 else if x.getLsbD (layoutRow l).quietBit then 4 else 5)
      else 1 := by
  unfold classifyFloat
  dsimp only
  split_ifs <;> rfl

/-- A bit of a number as a number. -/
theorem toNat_decide_mod_two (n : Nat) : (decide (n % 2 = 1)).toNat = n % 2 := by
  rcases Nat.mod_two_eq_zero_or_one n with h | h <;> simp [h]

/-- Settles O28: each field of the operand is that of A, and the packing adds them up. -/
theorem classifyFloatResult : Obligations.ClassifyFloatResult := by
  rintro l s e f sg j c he hf hsg hj hc
  have hexp := s.floatOperand_exponent l
  have hfrac := s.floatOperand_fraction l
  have hsign : (extractFloat l (s.floatOperand l)).sign.toNat = sg := by
    rw [s.floatOperand_sign, toNat_decide_mod_two, hsg]
  have hint : (extractFloat l (s.floatOperand l)).intBit.toNat = j := by
    rw [s.floatOperand_intBit, hj, ← he]
    split
    · exact toNat_decide_mod_two _
    · by_cases h : e = 0 <;> simp [h]
  rw [← he] at hexp
  rw [← hf] at hfrac
  have hlt : e < 2 ^ 15 := by
    obtain ⟨_, _, _, _, hwidth⟩ := layout_fields_inside l
    rw [he]
    exact Nat.lt_of_lt_of_le (Nat.mod_lt _ (Nat.two_pow_pos _)) (Nat.pow_le_pow_right (by decide) hwidth)
  have hclass : (classCode (classifyFloat l (s.floatOperand l))).toNat = c := by
    have hj0 : (extractFloat l (s.floatOperand l)).intBit = false ↔ j = 0 := by
      rw [← hint]; cases (extractFloat l (s.floatOperand l)).intBit <;> simp
    simp only [classCode_classifyFloat, hexp, hfrac, hj0, s.floatOperand_quiet, decide_eq_true_iff, hc]
  have hpack := packClass_eq (extractFloat l (s.floatOperand l)) (classifyFloat l (s.floatOperand l)) (hexp ▸ hlt)
  rw [hclass, hsign, hint, hexp] at hpack
  show Host.Outcome.next (State.endWith { s with result := _, result2 := _ } .ok) = _
  rw [hpack, hfrac]
  rfl

end Sys2Proof.Machine
end

section
/-! The numerals PARSE_INT reads (41_integer_decoder.md R122 to R128, R134, R135): the digit loop as a fold over the
bytes of the span, its overflow test as a comparison with the limit, and the result as a number. -/

namespace Sys2Proof.Machine

/-! ### One digit (41_integer_decoder.md R125) -/

/-- The test before the multiplication is the comparison of the result with the limit. -/
theorem overflow_test_iff {lim b acc d : Nat} (hd : d < b) :
    lim / b < acc ∨ (acc = lim / b ∧ lim % b < d) ↔ lim < acc * b + d := by
  have hlim := Nat.div_add_mod lim b
  have hmod : lim % b < b := Nat.mod_lt _ (by omega)
  rw [Nat.mul_comm] at hlim
  rcases Nat.lt_trichotomy (lim / b) acc with hlt | rfl | hgt
  · have hmul : (lim / b + 1) * b ≤ acc * b := Nat.mul_le_mul_right b hlt
    rw [Nat.add_mul] at hmul
    constructor <;> intro _ <;> omega
  · constructor <;> intro _ <;> omega
  · have hmul : (acc + 1) * b ≤ lim / b * b := Nat.mul_le_mul_right b hgt
    rw [Nat.add_mul] at hmul
    constructor <;> intro _ <;> omega

/-- A digit that keeps the accumulator within the limit is taken up; another marks the overflow. -/
theorem consumeDigit_eq {lim b d : Nat} {w : Scan} (hd : d < b) (hw : w.ovf = false) :
    consumeDigit lim b d w =
      if w.acc * b + d ≤ lim then { pos := w.pos + 1, acc := w.acc * b + d, ovf := false }
      else { pos := w.pos + 1, acc := w.acc, ovf := true } := by
  have hrun : ¬ w.ovf = true := by simp [hw]
  rw [consumeDigit, if_neg hrun]
  split
  · next hover => rw [if_neg (Nat.not_le.mpr ((overflow_test_iff hd).mp hover))]
  · next hfit => rw [if_pos (Nat.not_lt.mp (mt (overflow_test_iff hd).mpr hfit)), hw]

/-- After the mark only the position moves. -/
theorem consumeDigit_ovf {lim b d : Nat} {w : Scan} (hw : w.ovf = true) :
    consumeDigit lim b d w = { w with pos := w.pos + 1 } := by
  simp [consumeDigit, hw]

theorem consumeDigit_acc_le {lim b d : Nat} {w : Scan} (hd : d < b) (hw : w.acc ≤ lim) :
    (consumeDigit lim b d w).acc ≤ lim := by
  cases hovf : w.ovf with
  | true => rw [consumeDigit_ovf hovf]; exact hw
  | false =>
    rw [consumeDigit_eq hd hovf]
    split
    · next h => exact h
    · exact hw

/-- Settles O33, by induction on the bytes the loop may read. -/
theorem accumulatorStaysWithinLimit : Obligations.AccumulatorStaysWithinLimit := by
  intro m lim b n
  induction n with
  | zero => exact fun w hw => hw
  | succ n ih =>
    intro w hw
    unfold scanDigits
    split
    · next hd => exact ih _ (consumeDigit_acc_le hd hw)
    · exact hw

/-! ### A numeral -/

/-- The value of digits in base b put after `acc` (41_integer_decoder.md R125). -/
def numeralFrom (b acc : Nat) (ds : List Byte) : Nat := ds.foldl (fun acc c => acc * b + digitValue c) acc

theorem numeralValue_eq (b : Nat) (ds : List Byte) : numeralValue b ds = numeralFrom b 0 ds := rfl

theorem numeralFrom_cons (b acc : Nat) (c : Byte) (ds : List Byte) :
    numeralFrom b acc (c :: ds) = numeralFrom b (acc * b + digitValue c) ds := rfl

/-- Digits never make the value smaller. -/
theorem le_numeralFrom {b : Nat} (hb : 0 < b) (ds : List Byte) : ∀ acc, acc ≤ numeralFrom b acc ds := by
  induction ds with
  | nil => exact fun acc => Nat.le_refl _
  | cons c ds ih =>
    intro acc
    have hmul : acc ≤ acc * b := Nat.le_mul_of_pos_right acc hb
    have hrest := ih (acc * b + digitValue c)
    rw [numeralFrom_cons]
    omega

/-- The working state after a numeral (41_integer_decoder.md R124, R125). -/
def consumeAll (lim b : Nat) (ds : List Byte) (w : Scan) : Scan :=
  ds.foldl (fun w c => consumeDigit lim b (digitValue c) w) w

theorem consumeAll_cons (lim b : Nat) (c : Byte) (ds : List Byte) (w : Scan) :
    consumeAll lim b (c :: ds) w = consumeAll lim b ds (consumeDigit lim b (digitValue c) w) := rfl

@[simp] theorem consumeAll_pos (lim b : Nat) (ds : List Byte) :
    ∀ w, (consumeAll lim b ds w).pos = w.pos + ds.length := by
  induction ds with
  | nil => exact fun w => rfl
  | cons c ds ih =>
    intro w
    rw [consumeAll_cons, ih, consumeDigit_pos, List.length_cons]
    omega

theorem consumeAll_ovf (lim b : Nat) (ds : List Byte) :
    ∀ w : Scan, w.ovf = true → (consumeAll lim b ds w).ovf = true := by
  induction ds with
  | nil => exact fun w hw => hw
  | cons c ds ih =>
    intro w hw
    rw [consumeAll_cons]
    exact ih _ (by rw [consumeDigit_ovf hw]; exact hw)

/-- The overflow mark is set exactly when the numeral is above the limit; else the accumulator is its value. -/
theorem consumeAll_spec {lim b : Nat} (hb : 0 < b) (ds : List Byte) : ∀ w : Scan, w.ovf = false → w.acc ≤ lim →
    (∀ c ∈ ds, digitValue c < b) →
    (numeralFrom b w.acc ds ≤ lim →
      (consumeAll lim b ds w).ovf = false ∧ (consumeAll lim b ds w).acc = numeralFrom b w.acc ds) ∧
    (lim < numeralFrom b w.acc ds → (consumeAll lim b ds w).ovf = true) := by
  induction ds with
  | nil => exact fun w hw hacc _ => ⟨fun _ => ⟨hw, rfl⟩, fun h => absurd hacc (Nat.not_le.mpr h)⟩
  | cons c ds ih =>
    intro w hw hacc hds
    have hc : digitValue c < b := hds c (List.mem_cons_self ..)
    rw [consumeAll_cons, numeralFrom_cons, consumeDigit_eq hc hw]
    split
    · next hfit =>
      exact ih { pos := w.pos + 1, acc := w.acc * b + digitValue c, ovf := false } rfl hfit
        fun d hd => hds d (List.mem_cons_of_mem _ hd)
    · next hover =>
      have hgrow := le_numeralFrom hb ds (w.acc * b + digitValue c)
      exact ⟨fun h => by omega, fun _ => consumeAll_ovf lim b ds _ rfl⟩

/-! ### The digit loop over the bytes of memory -/

/-- The loop takes the digits that stand in memory and stops behind them (41_integer_decoder.md R124). -/
theorem scanDigits_eq_consumeAll {m : Memory} {lim b : Nat} (ds tail : List Byte) : ∀ n (w : Scan),
    m.readBytes w.pos n = ds ++ tail → (∀ c ∈ ds, digitValue c < b) → (∀ c ∈ tail.head?, b ≤ digitValue c) →
    scanDigits m lim b n w = consumeAll lim b ds w := by
  induction ds with
  | nil =>
    intro n w hread _ htail
    refine scanDigits_of_no_digit _ fun hn => htail _ ?_
    obtain ⟨k, rfl⟩ := Nat.exists_eq_succ_of_ne_zero hn.ne'
    rw [List.nil_append, Memory.readBytes] at hread
    rw [← hread]
    rfl
  | cons c ds ih =>
    intro n w hread hds htail
    cases n with
    | zero => cases hread
    | succ n =>
      obtain ⟨hc, hrest⟩ := List.cons.inj hread
      have hdigit : digitValue (m.read w.pos) < b := hc ▸ hds c (List.mem_cons_self ..)
      rw [scanDigits, if_pos hdigit, consumeAll_cons, hc]
      refine ih n _ ?_ (fun d hd => hds d (List.mem_cons_of_mem _ hd)) htail
      rw [consumeDigit_pos]
      exact hrest

theorem Memory.readBytes_add (m : Memory) (k n : Nat) :
    ∀ a, m.readBytes a (k + n) = m.readBytes a k ++ m.readBytes (a + k) n := by
  induction k with
  | zero => intro a; rw [Nat.zero_add]; rfl
  | succ k ih =>
    intro a
    rw [Nat.succ_add, Memory.readBytes, Memory.readBytes, ih, List.cons_append, Nat.add_assoc, Nat.add_comm 1 k]

/-- What stands in the span behind its first bytes. -/
theorem State.readBytes_of_spanBytes {aw : Nat} {s : State aw} {xs ys : List Byte} (h : s.spanBytes = xs ++ ys) :
    s.mem.readBytes (s.first.toNat + xs.length) (s.spanSize - xs.length) = ys := by
  have hsize : s.spanSize = xs.length + ys.length := by rw [← s.spanBytes_length, h, List.length_append]
  rw [State.spanBytes, hsize, Memory.readBytes_add] at h
  rw [hsize, Nat.add_sub_cancel_left]
  exact (List.append_inj h (Memory.readBytes_length ..)).2

/-! ### The result as a number (41_integer_decoder.md R128) -/

/-- A value of a two's-complement type is extended to 128 bits as itself. -/
theorem signExtend_ofInt {width : Nat} {v : Int} (hpos : 0 < width) (hle : width ≤ 128)
    (hlo : -(2 : Int) ^ (width - 1) ≤ v) (hhi : v < (2 : Int) ^ (width - 1)) :
    (BitVec.ofInt width v).signExtend 128 = BitVec.ofInt 128 v := by
  have hpow : (2 : Int) ^ (width - 1) ≤ 2 ^ 127 := pow_le_pow_right₀ (by decide) (by omega)
  apply BitVec.eq_of_toInt_eq
  rw [BitVec.toInt_signExtend_of_le hle, BitVec.toInt_ofInt_eq_self hpos hlo hhi,
    BitVec.toInt_ofInt_eq_self (by decide) (by norm_num; omega) (by norm_num; omega)]

/-- An unsigned value is extended to 128 bits as itself. -/
theorem setWidth_ofInt {width n : Nat} (hn : n < 2 ^ width) :
    (BitVec.ofInt width (n : Int)).setWidth 128 = BitVec.ofInt 128 (n : Int) := by
  apply BitVec.eq_of_toNat_eq
  rw [BitVec.ofInt_natCast, BitVec.ofInt_natCast, BitVec.toNat_setWidth, BitVec.toNat_ofNat, BitVec.toNat_ofNat,
    Nat.mod_eq_of_lt hn]

/-- The signed value of a magnitude. -/
def signedInt (neg : Bool) (n : Nat) : Int := if neg then -(n : Int) else (n : Int)

/-- A magnitude within the limit of its sign is a value of the target type (41_integer_decoder.md R123, R128). -/
theorem parseResult_eq {width n : Nat} {sgn neg : Bool} (hpos : 0 < width) (hle : width ≤ 128)
    (hneg : neg = true → sgn = true) (hn : n ≤ parseLimit width sgn neg) :
    parseResult width sgn neg n = BitVec.ofInt 128 (signedInt neg n) := by
  have hhalf : 0 < 2 ^ (width - 1) := Nat.two_pow_pos _
  have hfull : 0 < 2 ^ width := Nat.two_pow_pos _
  have hcast : (2 : Int) ^ (width - 1) = ((2 ^ (width - 1) : Nat) : Int) := by push_cast; rfl
  cases sgn with
  | true =>
    have hfits : -(2 : Int) ^ (width - 1) ≤ signedInt neg n ∧ signedInt neg n < (2 : Int) ^ (width - 1) := by
      rw [hcast]
      cases neg <;> simp only [parseLimit, signedInt, if_true, Bool.false_eq_true, if_false] at hn ⊢ <;> omega
    exact signExtend_ofInt hpos hle hfits.1 hfits.2
  | false =>
    obtain rfl : neg = false := by simpa using hneg
    exact setWidth_ofInt (by simp only [parseLimit, Bool.false_eq_true, if_false] at hn; omega)

/-! ### The parse of a numeral -/

/-- No digit of a base is a sign (41_integer_decoder.md R122). -/
theorem digitValue_sign {c : Byte} (h : isSign c = true) : digitValue c = 0xFF := by
  rcases (Bool.or_eq_true _ _).mp h with hc | hc <;> rw [of_decide_eq_true hc] <;> decide

theorem isSign_of_digit {c : Byte} (h : digitValue c < 0xFF) : isSign c = false := by
  rw [← Bool.not_eq_true]
  intro hsign
  have := digitValue_sign hsign
  omega

theorem chMinus_isSign : isSign chMinus = true := by decide

/-- The sign read is the one that stands before the digits (41_integer_decoder.md R122). -/
theorem State.takesMinus_of_spanBytes {aw : Nat} {s : State aw} {sgn : Bool} {sign rest : List Byte} {c : Byte}
    (hspan : s.spanBytes = sign ++ c :: rest) (hsign : sign = [] ∨ (sgn = true ∧ (sign = [chMinus] ∨ sign = [chPlus])))
    (hc : isSign c = false) : s.takesMinus sgn = decide (sign = [chMinus]) := by
  rcases hsign with rfl | ⟨rfl, hsign⟩
  · have hread : s.mem.read s.first.toNat = c := State.read_of_spanBytes (xs := []) hspan
    have hne : c ≠ chMinus := fun h => by rw [h, chMinus_isSign] at hc; cases hc
    simp [State.takesMinus, hread, hne]
  · obtain ⟨d, rfl⟩ : ∃ d, sign = [d] := by rcases hsign with rfl | rfl <;> exact ⟨_, rfl⟩
    have hread : s.mem.read s.first.toNat = d := State.read_of_spanBytes (xs := []) hspan
    simp [State.takesMinus, hread]

/-- The span holds a numeral in base b: a sign of a signed type or none, digits, and LAST or a byte that is no digit. -/
structure State.HoldsNumeral {aw : Nat} (s : State aw) (sgn : Bool) (b : Nat) (sign ds tail : List Byte) : Prop where
  span : s.spanBytes = sign ++ (ds ++ tail)
  sign_eq : sign = [] ∨ (sgn = true ∧ (sign = [chMinus] ∨ sign = [chPlus]))
  digits_ne : ds ≠ []
  digits : ∀ c ∈ ds, digitValue c < b
  stop : ∀ c ∈ tail.head?, b ≤ digitValue c
  base_le : b ≤ 36

section
variable {aw : Nat} {s : State aw} {sgn : Bool} {b : Nat} {sign ds tail : List Byte}

theorem State.HoldsNumeral.spanSize (h : s.HoldsNumeral sgn b sign ds tail) :
    s.spanSize = sign.length + ds.length + tail.length := by
  rw [← s.spanBytes_length, h.span, List.length_append, List.length_append, Nat.add_assoc]

theorem State.HoldsNumeral.digits_pos (h : s.HoldsNumeral sgn b sign ds tail) : 0 < ds.length :=
  List.length_pos_iff.mpr h.digits_ne

theorem State.HoldsNumeral.base_pos (h : s.HoldsNumeral sgn b sign ds tail) : 0 < b := by
  obtain ⟨c, hc⟩ := List.exists_mem_of_ne_nil ds h.digits_ne
  exact Nat.zero_lt_of_lt (h.digits c hc)

theorem State.HoldsNumeral.not_isSign (h : s.HoldsNumeral sgn b sign ds tail) {c : Byte} (hc : c ∈ ds) :
    isSign c = false := by
  have hlt := h.digits c hc
  have hle := h.base_le
  exact isSign_of_digit (by omega)

theorem State.HoldsNumeral.last (h : s.HoldsNumeral sgn b sign ds tail) :
    s.last.toNat = s.first.toNat + s.spanSize := by
  have hsize := h.spanSize
  have hdigits := h.digits_pos
  unfold State.spanSize at hsize ⊢
  omega

theorem State.HoldsNumeral.digitsStart (h : s.HoldsNumeral sgn b sign ds tail) :
    s.digitsStart sgn = s.first.toNat + sign.length := by
  refine State.digitsStart_of_spanBytes h.span (by simp [h.digits_ne]) h.sign_eq fun _ _ c hc => ?_
  rw [List.head?_append_of_ne_nil _ h.digits_ne] at hc
  exact h.not_isSign (List.mem_of_mem_head? hc)

theorem State.HoldsNumeral.takesMinus (h : s.HoldsNumeral sgn b sign ds tail) :
    s.takesMinus sgn = decide (sign = [chMinus]) := by
  obtain ⟨c, cs, rfl⟩ := List.exists_cons_of_ne_nil h.digits_ne
  exact State.takesMinus_of_spanBytes h.span h.sign_eq (h.not_isSign (List.mem_cons_self ..))

/-- The digit loop takes the digits and stops behind them. -/
theorem State.HoldsNumeral.scanSpan (h : s.HoldsNumeral sgn b sign ds tail) (width : Nat) :
    s.scanSpan width sgn b = consumeAll (parseLimit width sgn (decide (sign = [chMinus]))) b ds
      { pos := s.first.toNat + sign.length, acc := 0, ovf := false } := by
  have hroom : s.last.toNat - (s.first.toNat + sign.length) = s.spanSize - sign.length := by
    have hlast := h.last
    omega
  unfold State.scanSpan
  rw [h.takesMinus, h.digitsStart, hroom]
  exact scanDigits_eq_consumeAll ds tail _ _ (State.readBytes_of_spanBytes h.span) h.digits h.stop

/-- The parse is the end of the parse, with CURSOR just past the last digit. -/
theorem State.HoldsNumeral.parseSpan_eq (h : s.HoldsNumeral sgn b sign ds tail) (width : Nat) :
    s.parseSpan width sgn b = s.parseEnd width sgn (decide (sign = [chMinus])) (s.first.toNat + sign.length)
      (s.scanSpan width sgn b) := by
  have hlast := h.last
  have hsize := h.spanSize
  have hdigits := h.digits_pos
  have hnonempty : s.first ≠ s.last := fun he => by rw [he] at hlast; omega
  rw [State.parseSpan, if_neg hnonempty, h.takesMinus, h.digitsStart, if_neg (by omega)]

/-- A numeral within the target type gives its value, another OUT_OF_RANGE (41_integer_decoder.md R126 to R128). -/
theorem State.HoldsNumeral.parseSpan (h : s.HoldsNumeral sgn b sign ds tail) {width : Nat} (hpos : 0 < width)
    (hle : width ≤ 128) :
    s.parseSpan width sgn b =
      if numeralValue b ds ≤ parseLimit width sgn (decide (sign = [chMinus])) then
        { s with
          status := 0x1
          cursor := BitVec.ofNat aw (s.first.toNat + sign.length + ds.length)
          result := BitVec.ofInt 128 (signedInt (decide (sign = [chMinus])) (numeralValue b ds)) }
      else
        { s with status := 0x4, cursor := BitVec.ofNat aw (s.first.toNat + sign.length + ds.length) } := by
  have hneg : decide (sign = [chMinus]) = true → sgn = true := fun hm =>
    h.sign_eq.elim (fun hnil => by simp [hnil] at hm) And.left
  obtain ⟨hfit, hover⟩ := consumeAll_spec (lim := parseLimit width sgn (decide (sign = [chMinus]))) h.base_pos ds
    { pos := s.first.toNat + sign.length, acc := 0, ovf := false } rfl (Nat.zero_le _) h.digits
  have hmoved : s.first.toNat + sign.length + ds.length ≠ s.first.toNat + sign.length := by
    have hdigits := h.digits_pos
    omega
  rw [h.parseSpan_eq, h.scanSpan, State.parseEnd, consumeAll_pos, if_neg hmoved]
  split
  · next hout =>
    have hlt : ¬ numeralValue b ds ≤ parseLimit width sgn (decide (sign = [chMinus])) := fun hle => by
      rw [(hfit hle).1] at hout; cases hout
    rw [if_neg hlt]
    rfl
  · next hin =>
    have hle' : numeralValue b ds ≤ parseLimit width sgn (decide (sign = [chMinus])) :=
      Nat.not_lt.mp fun hlt => hin (hover hlt)
    rw [if_pos hle', (hfit hle').2, ← numeralValue_eq, parseResult_eq hpos hle hneg hle']
    rfl

end

/-- The five widths (30_encoding.md R90). -/
theorem width_bounds {k : Nat} (h : k ≤ 4) : 0 < 8 * 2 ^ k ∧ 8 * 2 ^ k ≤ 128 :=
  ⟨by positivity, Nat.mul_le_mul_left 8 (Nat.pow_le_pow_right (by decide) h)⟩

/-- Settles O30: the span holds the numeral, and its limit is that of the target type. -/
theorem parseIntDecodesNumeral : Obligations.ParseIntDecodesNumeral := by
  rintro wid sgn base s sign ds tail width v lim hwid hlo hhi ⟨hle, hhazard⟩ hspan hsign hne hds htail rfl rfl hlim
  have hnum : s.HoldsNumeral sgn base.toNat sign ds tail :=
    ⟨hspan.trans (List.append_assoc ..), hsign, hne, hds, htail, hhi⟩
  obtain ⟨hpos, hmax⟩ := width_bounds hwid
  have hlim : parseLimit (8 * 2 ^ wid.toNat) sgn (decide (sign = [chMinus])) = lim := by
    rw [hlim]
    cases sgn <;> simp only [parseLimit, decide_eq_true_eq] <;> rfl
  have hint : signedInt (decide (sign = [chMinus])) (numeralValue base.toNat ds) =
      if sign = [0x2D] then -(numeralValue base.toNat ds : Int) else (numeralValue base.toNat ds : Int) := by
    simp only [signedInt, decide_eq_true_eq]
    rfl
  rw [← hint, ← hlim]
  refine (execParseInt_of_legal sgn s hwid hlo hhi).trans ?_
  rw [State.onSpan_ready _ (s.spanValid_iff.mpr hle) hhazard, hnum.parseSpan hpos hmax]

/-! ### The round trip (41_integer_decoder.md R134) -/

/-- The value of a numeral is that of its digit values, least significant first. -/
theorem numeralValue_eq_ofDigits (b : Nat) (ds : List Byte) :
    numeralValue b ds = Nat.ofDigits b (ds.map digitValue).reverse := by
  rw [Nat.ofDigits_eq_foldr, List.foldr_reverse, List.foldl_map, numeralValue]
  simp only [Nat.cast_id, Nat.mul_comm, Nat.add_comm]

/-- Digits of a number, as a numeral writes them. -/
theorem numeral_of_digits {b n : Nat} (hb : 1 < b) {ds : List Byte}
    (h : ds.map digitValue = if n = 0 then [0] else (Nat.digits b n).reverse) :
    ds ≠ [] ∧ (∀ c ∈ ds, digitValue c < b) ∧ numeralValue b ds = n := by
  have hmem : ∀ c ∈ ds, digitValue c ∈ (if n = 0 then [0] else (Nat.digits b n).reverse) := fun c hc =>
    h ▸ List.mem_map_of_mem hc
  split at h
  · next hzero =>
    subst hzero
    refine ⟨(by rintro rfl; cases h), fun c hc => ?_, ?_⟩
    · have := hmem c hc; simp at this; omega
    · rw [numeralValue_eq_ofDigits, h]; simp
  · next hn =>
    refine ⟨?_, fun c hc => ?_, ?_⟩
    · rintro rfl
      have hdigits : Nat.digits b n ≠ [] := Nat.digits_ne_nil_iff_ne_zero.mpr hn
      exact hdigits (List.reverse_eq_nil_iff.mp h.symm)
    · have := hmem c hc
      rw [if_neg hn, List.mem_reverse] at this
      exact Nat.digits_lt_base hb this
    · rw [numeralValue_eq_ofDigits, h, List.reverse_reverse, Nat.ofDigits_digits]

/-- The sign a numeral of `v` is written with. -/
def minusOf (v : Int) : List Byte := if v < 0 then [0x2D] else []

theorem minusOf_eq_minus_iff (v : Int) : minusOf v = [0x2D] ↔ v < 0 := by
  unfold minusOf
  split
  · next h => exact iff_of_true rfl h
  · next h => exact iff_of_false (by decide) h

/-- A value of the target type is within the limit of its sign (41_integer_decoder.md R123). -/
theorem natAbs_le_limit {v : Int} {sgn : Bool} {width : Nat}
    (h : if sgn = true then -(2 : Int) ^ (width - 1) ≤ v ∧ v < (2 : Int) ^ (width - 1)
      else 0 ≤ v ∧ v < (2 : Int) ^ width) :
    v.natAbs ≤ (if sgn = false then 2 ^ width - 1
      else if minusOf v = [0x2D] then 2 ^ (width - 1) else 2 ^ (width - 1) - 1) := by
  have hhalf : (2 : Int) ^ (width - 1) = ((2 ^ (width - 1) : Nat) : Int) := by push_cast; rfl
  have hfull : (2 : Int) ^ width = ((2 ^ width : Nat) : Int) := by push_cast; rfl
  rw [hhalf, hfull] at h
  simp only [minusOf_eq_minus_iff]
  generalize 2 ^ (width - 1) = half at h ⊢
  generalize 2 ^ width = full at h ⊢
  cases sgn
  case false => simp only [Bool.false_eq_true, if_false, if_true] at h ⊢; omega
  case true => simp only [if_true, Bool.true_eq_false, if_false] at h ⊢; split <;> omega

/-- Settles O32: the numeral of a value of the type is within its limit, and fills the span. -/
theorem parseIntRoundTrip : Obligations.ParseIntRoundTrip := by
  rintro wid sgn base s v ds _ hwid hlo hhi hready rfl hrange hdigits hspan
  simp only [← Int.natAbs_eq_zero (a := v)] at hdigits
  obtain ⟨hne, hds, hval⟩ := numeral_of_digits (b := base.toNat) (by omega) hdigits
  have hsign : minusOf v = [] ∨ (sgn = true ∧ (minusOf v = [0x2D] ∨ minusOf v = [0x2B])) := by
    by_cases hneg : v < 0
    · refine .inr ⟨?_, .inl ((minusOf_eq_minus_iff v).mpr hneg)⟩
      by_contra hs
      rw [if_neg hs] at hrange
      omega
    · exact .inl (if_neg hneg)
  have hspan : s.spanBytes = minusOf v ++ ds := hspan
  have hlast : s.first.toNat + (minusOf v).length + ds.length = s.last.toNat := by
    have hsize := s.spanBytes_length
    have hpos := List.length_pos_iff.mpr hne
    rw [hspan, List.length_append, State.spanSize] at hsize
    omega
  have hint : (if minusOf v = [0x2D] then -(v.natAbs : Int) else (v.natAbs : Int)) = v := by
    simp only [minusOf_eq_minus_iff]
    split <;> omega
  have hrun := parseIntDecodesNumeral wid sgn base s (minusOf v) ds [] _ _ _ hwid hlo hhi hready
    (by rw [hspan, List.append_nil]) hsign hne hds (by simp) rfl rfl rfl
  rw [hval, if_pos (natAbs_le_limit hrange), hint, hlast, BitVec.ofNat_toNat, BitVec.setWidth_eq] at hrun
  exact hrun

/-! ### What a parse depends on (41_integer_decoder.md R135) -/

/-- The byte counts alike in a parse: the same digit value, and a sign where the other is the same sign. -/
def SameDigit (c c' : Byte) : Prop :=
  digitValue c' = digitValue c ∧ (c' = chMinus ↔ c = chMinus) ∧ (c' = chPlus ↔ c = chPlus)

theorem SameDigit.isSign {c c' : Byte} (h : SameDigit c c') : isSign c' = isSign c := by
  obtain ⟨_, hminus, hplus⟩ := h
  simp only [Machine.isSign, hminus, hplus]

/-- The digit loop looks at the digit values alone. -/
theorem scanDigits_sameDigit {m m' : Memory} (lim b n : Nat) : ∀ w : Scan,
    (∀ a, w.pos ≤ a → a < w.pos + n → SameDigit (m.read a) (m'.read a)) →
    scanDigits m' lim b n w = scanDigits m lim b n w := by
  induction n with
  | zero => exact fun w _ => rfl
  | succ n ih =>
    intro w h
    obtain ⟨hdigit, _⟩ := h w.pos (Nat.le_refl _) (by omega)
    rw [scanDigits, scanDigits, hdigit]
    split
    · exact ih _ fun a hlo hhi => h a (by rw [consumeDigit_pos] at hlo; omega) (by rw [consumeDigit_pos] at hhi; omega)
    · rfl

/-- Every byte of the span counts alike in both memories. -/
def State.SameNumeral {aw : Nat} (s : State aw) (m : Memory) : Prop :=
  ∀ a, s.first.toNat ≤ a → a < s.last.toNat → SameDigit (s.mem.read a) (m.read a)

theorem State.parseEnd_setMem {aw : Nat} (s : State aw) (m : Memory) (width : Nat) (sgn neg : Bool) (start : Nat)
    (w : Scan) : State.parseEnd { s with mem := m } width sgn neg start w =
      { s.parseEnd width sgn neg start w with mem := m } := by
  unfold State.parseEnd
  split <;> [rfl; (split <;> rfl)]

/-- The parse of a valid span ends alike on both memories, memory itself aside. -/
theorem State.SameNumeral.parseSpan {aw : Nat} {s : State aw} {m : Memory} (h : s.SameNumeral m)
    (hv : s.spanValid = true) (width : Nat) (sgn : Bool) (b : Nat) :
    State.parseSpan { s with mem := m } width sgn b = { s.parseSpan width sgn b with mem := m } := by
  unfold State.parseSpan
  split
  · rfl
  next hne =>
    have hlt : s.first.toNat < s.last.toNat :=
      Nat.lt_of_le_of_ne (s.spanValid_iff.mp hv) (mt BitVec.eq_of_toNat_eq hne)
    have hfirst := h s.first.toNat (Nat.le_refl _) hlt
    have hstart : State.digitsStart { s with mem := m } sgn = s.digitsStart sgn := by
      rw [State.digitsStart, State.digitsStart, State.takesSign, State.takesSign, hfirst.isSign]
    have hminus : State.takesMinus { s with mem := m } sgn = s.takesMinus sgn := by
      simp only [State.takesMinus, hfirst.2.1]
    have hscan : State.scanSpan { s with mem := m } width sgn b = s.scanSpan width sgn b := by
      unfold State.scanSpan
      rw [hstart, hminus]
      refine scanDigits_sameDigit _ _ _ _ fun a hlo hhi => h a ?_ ?_
      · exact Nat.le_trans (s.first_le_digitsStart sgn) hlo
      · dsimp only at hlo hhi; omega
    rw [hstart, hminus, hscan]
    split
    · rfl
    · exact State.parseEnd_setMem ..

theorem State.onSpan_setMem {aw : Nat} {s t u : State aw} {m : Memory} (h : s.onSpan t = .next u) (t' : State aw)
    (ht : s.spanValid = true → t' = { t with mem := m }) :
    State.onSpan { s with mem := m } t' = .next { u with mem := m } := by
  rcases State.onSpan_next_cases h with ⟨hv, hh, rfl⟩ | ⟨hv, rfl⟩
  · rw [State.onSpan_ready (s := { s with mem := m }) t' hv hh, ht hv]
  · exact State.onSpan_inverted (s := { s with mem := m }) t' hv

/-- Settles O34: the field checks read no memory, and the parse counts the bytes alike. -/
theorem parseIntReadsOnlySpanDigits : Obligations.ParseIntReadsOnlySpanDigits := by
  intro wid sgn base s t m h ht
  have hsame : s.SameNumeral m := h
  have ht : execParseInt wid sgn base s = .next t := ht
  show execParseInt wid sgn base { s with mem := m } = _
  unfold execParseInt at ht ⊢
  split at ht
  · cases ht; rfl
  split at ht
  · cases ht; rfl
  · exact State.onSpan_setMem ht _ fun hv => hsame.parseSpan hv ..

end Sys2Proof.Machine
end

section
/-! The writers' outcomes (20_memory.md R63): WRITE_FIXED and FMT_FLOAT are the span write of one text, and the fixed
length, the zero literal and the non-finite tokens say what that text is. -/

namespace Sys2Proof.Machine

/-! ### dec as digits -/

theorem decDigits_eq_digits (fuel : Nat) : ∀ n, 0 < n → n < 10 ^ (fuel + 1) →
    decDigits (fuel + 1) n = (Nat.digits 10 n).reverse := by
  induction fuel with
  | zero =>
    intro n hpos hlt
    have h10 : n < 10 := by simpa using hlt
    simp [decDigits, h10, Nat.digits_of_lt 10 n hpos.ne' h10]
  | succ f ih =>
    intro n hpos hlt
    rw [decDigits, Nat.digits_def' (by decide) hpos, List.reverse_cons]
    split
    · next h10 => simp [Nat.div_eq_of_lt h10, Nat.mod_eq_of_lt h10]
    · next h10 => rw [ih (n / 10) (by omega) (by rw [pow_succ] at hlt; omega)]

/-- Settles O40: `dec` has digits enough to build them all. -/
theorem decWritesDecimalDigits : Obligations.DecWritesDecimalDigits := by
  intro n
  refine ⟨?_, rfl⟩
  split
  · next h => subst h; decide
  · next h =>
    have hlt : n < 10 ^ (Nat.log2 n + 1) := Nat.lt_log2_self.trans_le (Nat.pow_le_pow_left (by decide) _)
    rw [dec, decDigits_eq_digits _ n (Nat.pos_of_ne_zero h) hlt]

/-! ### The span write -/

/-- `WriteSpan` does what Safety.lean says of it (20_memory.md R63, R64). -/
theorem State.wroteSpan_writeSpan {aw : Nat} {s : State aw} (hle : s.first.toNat ≤ s.last.toNat) (text : Text) :
    s.wroteSpan (s.writeSpan text) (textBytes text) := by
  refine ⟨by simp [State.sameInputs], s.writeSpan_faulted text, s.writeSpan_cause text, s.writeSpan_result text,
    s.writeSpan_result2 text, ?_⟩
  have hout := State.writeSpan_outcome hle text
  rw [textBytes_length]
  split
  · next hfit =>
    have hfit : textLength text ≤ s.spanSize := hfit
    rw [if_pos hfit] at hout
    have hmem : (s.writeSpan text).mem = s.mem.writeBytes s.first.toNat (textBytes text) := by
      rw [State.writeSpan_mem, if_pos hfit]
    rw [hmem, ← textBytes_length]
    exact ⟨hout.1, by rw [textBytes_length]; exact hout.2, Memory.readBytes_writeBytes _ _ _,
      fun a ha => Memory.read_writeBytes_outside _ _ ha⟩
  · next hlong =>
    have hlong : ¬ textLength text ≤ s.spanSize := hlong
    rw [if_neg hlong] at hout
    exact hout

/-- A span command on a span that is a place for it takes its effect. -/
theorem State.spanReady.onSpan {aw : Nat} {s : State aw} (h : s.spanReady) (t : State aw) : s.onSpan t = .next t :=
  State.onSpan_ready t (s.spanValid_iff.mpr h.1) h.2

/-- WRITE_FIXED on such a span (45_fixed_writer.md R225). -/
theorem exec_writeFixed {s : State} (h : s.spanReady) (neg gen pv : Bool) :
    exec (.writeFixed neg gen pv) s = .next (s.writeSpan
      (fixedText { sig := s.a.toNat, ex := s.exp.toInt, neg := neg } pv
        (if pv = true then s.prec.toNat else 0) gen)) := by
  have hprec : (s.precOperand pv).toNat = if pv = true then s.prec.toNat else 0 := by cases pv <;> rfl
  rw [← hprec]
  exact h.onSpan _

/-- FMT_FLOAT on such a span (46_dispatcher.md R250). -/
theorem exec_fmtFloat {s : State} (h : s.spanReady) (l : Layout) (f : Fmt) (pv : Bool) :
    exec (.fmtFloat l f pv) s =
      .next (s.writeSpan (floatText s.windows l (s.floatOperand l) f pv (s.precOperand pv))) :=
  h.onSpan _

/-- Settles O35: the span write of the fixed writer's text. -/
theorem writeFixedWritesItsText : Obligations.WriteFixedWritesItsText := fun neg gen pv _ h =>
  ⟨_, exec_writeFixed h neg gen pv, State.wroteSpan_writeSpan h.1 _⟩

/-- Settles O41: the span write of the dispatcher's text, A cut to the width. -/
theorem fmtFloatWritesItsText : Obligations.FmtFloatWritesItsText := by
  intro l f pv s h
  rw [← s.floatOperand_eq]
  exact ⟨_, exec_fmtFloat h l f pv, State.wroteSpan_writeSpan h.1 _⟩

/-- Settles O46: both runs write the same text into the same span. -/
theorem fmtFloatDependsOnlyOnOperands : Obligations.FmtFloatDependsOnlyOnOperands := by
  intro l f pv s s' h h' ha hprec hfirst hlast hwindows
  have htext : floatText s'.windows l (s'.floatOperand l) f pv (s'.precOperand pv) =
      floatText s.windows l (s.floatOperand l) f pv (s.precOperand pv) := by
    rw [hwindows, State.floatOperand_congr (s := s) (by rw [ha]), State.precOperand_congr hprec]
  have hrun' := exec_fmtFloat h' l f pv
  rw [htext] at hrun'
  refine ⟨_, _, exec_fmtFloat h l f pv, hrun', ?_⟩
  generalize floatText s.windows l (s.floatOperand l) f pv (s.precOperand pv) = text
  have hsize : s'.spanSize = s.spanSize := by rw [State.spanSize, State.spanSize, hfirst, hlast]
  refine ⟨by rw [State.writeSpan_status, State.writeSpan_status, hsize],
    by rw [State.writeSpan_cursor, State.writeSpan_cursor, hsize, hfirst, hlast], fun hok => ?_⟩
  have hfit : textLength text ≤ s.spanSize := by
    by_contra hlong
    rw [State.writeSpan_status, if_neg hlong] at hok
    cases hok
  have hout := State.writeSpan_outcome h.1 text
  rw [if_pos hfit] at hout
  rw [hout.2, Nat.add_sub_cancel_left, State.writeSpan_mem, State.writeSpan_mem, if_pos hfit, if_pos (hsize ▸ hfit),
    hfirst, ← textBytes_length, Memory.readBytes_writeBytes, Memory.readBytes_writeBytes]

/-! ### The fixed length (45_fixed_writer.md R218) -/

/-- The body's length, form by form (45_fixed_writer.md R215). -/
theorem fixedBody_length (sig : Nat) (ex n : Int) (hn : n = (ndigits sig : Int)) :
    (textLength (fixedBody sig ex) : Int) = if sig = 0 then 1 else if 0 ≤ ex then n + ex
      else if 0 < n + ex then n + 1 else 2 + (-ex - n) + n := by
  have hlen : (dec sig).length = ndigits sig := rfl
  unfold fixedBody
  dsimp only
  rw [← hn]
  split_ifs <;>
    simp only [textLength, pieceLength, List.length_cons, List.length_nil, List.length_take, List.length_drop, hlen] <;>
    omega

theorem decompText_length (d : Decomp) :
    (textLength (decompText d) : Int) =
      (if d.neg = true then 1 else 0) + (textLength (fixedBody d.sig d.ex) : Int) := by
  rw [decompText, textLength_append, signText_length]
  cases d.neg <;> simp

/-- Settles O37: FixedLen is the length of the text, which decides the outcome of the span write. -/
theorem fixedLengthDecidesTheOutcome : Obligations.FixedLengthDecidesTheOutcome := by
  rintro neg gen pv s d n body h rfl hn hbody
  refine ⟨_, exec_writeFixed h neg gen pv, ?_⟩
  rw [hbody, ← fixedBody_length _ _ n hn, ← decompText_length]
  have hle := h.1
  have hout := State.writeSpan_outcome hle (fixedText { sig := s.a.toNat, ex := s.exp.toInt, neg := neg } pv
    (if pv = true then s.prec.toNat else 0) gen)
  rw [fixedText] at hout ⊢
  generalize decompText (adjustDecomp pv (if pv = true then s.prec.toNat else 0) gen
    { sig := s.a.toNat, ex := s.exp.toInt, neg := neg }) = text at hout ⊢
  unfold State.spanSize at hout
  split
  · next hlong => rwa [if_neg (by omega)] at hout
  · next hfit =>
    rw [if_pos (by omega)] at hout
    exact ⟨hout.1, by rw [hout.2, Nat.cast_add]⟩

/-! ### The zero literal and the tokens -/

/-- The sign bit is the top bit of the operand. -/
theorem signBit_eq (l : Layout) : (layoutRow l).signBit = (layoutRow l).width - 1 := by cases l <;> rfl

/-- Every field below the sign of an operand whose bits below the sign are 0. -/
theorem State.floatOperand_zero {aw : Nat} {s : State aw} {l : Layout}
    (h : s.a.toNat % 2 ^ ((layoutRow l).width - 1) = 0) :
    classifyFloat l (s.floatOperand l) = .zero := by
  have hfield {lo k : Nat} (hk : lo + k ≤ (layoutRow l).width - 1) : s.a.toNat / 2 ^ lo % 2 ^ k = 0 := by
    rw [← mod_div_mod _ hk, h, Nat.zero_div, Nat.zero_mod]
  have hexp : (extractFloat l (s.floatOperand l)).exponent = 0 := by
    rw [s.floatOperand_exponent]
    exact hfield (by cases l <;> decide)
  have hfrac : (extractFloat l (s.floatOperand l)).fraction = 0 := by
    rw [s.floatOperand_fraction]
    simpa using hfield (lo := 0) (k := (layoutRow l).fracWidth) (by cases l <;> decide)
  have hint : (extractFloat l (s.floatOperand l)).intBit = false := by
    rw [extractFloat_intBit, hexp]
    split
    · next hl =>
      subst hl
      rw [s.floatOperand_bit (l := .b80) (by decide)]
      have hbit := hfield (lo := 63) (k := 1) (by decide)
      simp at hbit
      simp [hbit]
    · rfl
  simp [classifyFloat, hexp, hfrac, hint]

/-- Settles O47: the operand is a zero, row 2 of the routing. -/
theorem hexZeroLiteral : Obligations.HexZeroLiteral := by
  intro l pv s h hzero
  have hbytes : textBytes (floatText s.windows l (s.floatOperand l) .hex pv (s.precOperand pv)) =
      (if s.a.toNat / 2 ^ ((layoutRow l).width - 1) % 2 = 1 then [0x2D] else []) ++ [0x30, 0x70, 0x2B, 0x30] := by
    rw [floatText_hexZero (State.floatOperand_zero hzero), hexZeroText_bytes, s.floatOperand_sign, signBit_eq]
    simp only [decide_eq_true_eq]
  rw [← hbytes]
  exact ⟨_, exec_fmtFloat h l .hex pv, State.wroteSpan_writeSpan h.1 _⟩

/-- The class of an operand whose exponent field is all ones (42_float_layout.md R152). -/
theorem State.floatOperand_nonFinite {aw : Nat} {s : State aw} {l : Layout} {frac : Nat}
    (h : s.a.toNat / 2 ^ (layoutRow l).expLo % 2 ^ (layoutRow l).expWidth = (layoutRow l).emax)
    (hf : frac = s.a.toNat % 2 ^ (layoutRow l).fracWidth) :
    classifyFloat l (s.floatOperand l) =
      if frac = 0 then .infinite
      else if frac / 2 ^ ((layoutRow l).fracWidth - 1) = 1 then .quietNaN else .signalingNaN := by
  have hmax : (layoutRow l).emax ≠ 0 := by cases l <;> decide
  have hquiet : frac / 2 ^ ((layoutRow l).fracWidth - 1) = s.a.toNat / 2 ^ (layoutRow l).quietBit % 2 := by
    obtain ⟨_, _, _, hq, _⟩ := layout_fields_inside l
    rw [hf, ← hq, Nat.add_sub_cancel, Nat.pow_succ, Nat.mod_mul_right_div_self]
  unfold classifyFloat
  simp only [s.floatOperand_exponent, h, hmax, if_false, if_true, s.floatOperand_fraction, ← hf, s.floatOperand_quiet,
    hquiet, decide_eq_true_eq]

/-- Settles O48: row 1 of the routing, token by token. -/
theorem nonFiniteTokens : Obligations.NonFiniteTokens := by
  intro l f pv s sg frac h hexp hsg hfrac
  have hclass := State.floatOperand_nonFinite hexp hfrac
  have hnf : nonFinite (classifyFloat l (s.floatOperand l)) = true := by rw [hclass]; split_ifs <;> rfl
  have hsign : (extractFloat l (s.floatOperand l)).sign = sg := by
    rw [s.floatOperand_sign, signBit_eq, Bool.eq_iff_iff, hsg, decide_eq_true_eq]
  refine ⟨_, exec_fmtFloat h l f pv, ?_⟩
  have hw := State.wroteSpan_writeSpan h.1 (floatText s.windows l (s.floatOperand l) f pv (s.precOperand pv))
  rw [floatText_nonFinite hnf, hsign, hclass] at hw
  convert hw using 1
  cases sg
  case false => simp only [Bool.false_eq_true, if_false]; split_ifs <;> rfl
  case true => simp only [if_true]; split_ifs <;> rfl

end Sys2Proof.Machine
end

section
/-! The rational a decimal text denotes (45_fixed_writer.md R215, R223): digits around at most one point, then the sign,
then the rounding to P + 1 digits (R212, R213). -/

namespace Sys2Proof.Machine

/-! ### Numbers with a point, in any base -/

theorem numeralFrom_append (b acc : Nat) (xs ys : List Byte) :
    numeralFrom b acc (xs ++ ys) = numeralFrom b (numeralFrom b acc xs) ys :=
  List.foldl_append

/-- Characters other than the point are digits, counted as fractional once the point has been seen. -/
theorem foldl_pointStep (b : Nat) (cs : List Byte) : ∀ acc k seen, chPoint ∉ cs →
    cs.foldl (pointStep b) (acc, k, seen) = (numeralFrom b acc cs, if seen then k + cs.length else k, seen) := by
  induction cs with
  | nil => intro acc k seen _; cases seen <;> rfl
  | cons c cs ih =>
    intro acc k seen h
    have hc : ¬ c = 0x2E := fun hc => h (hc ▸ List.mem_cons_self ..)
    rw [List.foldl_cons, pointStep, if_neg hc, ih _ _ _ fun hm => h (List.mem_cons_of_mem _ hm), numeralFrom_cons]
    cases seen
    · rfl
    · simp only [if_true, List.length_cons]
      rw [Nat.add_assoc, Nat.add_comm 1]

theorem pointValue_whole (b : Nat) {cs : List Byte} (h : chPoint ∉ cs) :
    pointValue b cs = (numeralFrom b 0 cs : ℚ) := by
  rw [pointValue, foldl_pointStep b cs 0 0 false h]
  simp

theorem pointValue_point (b : Nat) {xs ys : List Byte} (hx : chPoint ∉ xs) (hy : chPoint ∉ ys) :
    pointValue b (xs ++ chPoint :: ys) = (numeralFrom b 0 (xs ++ ys) : ℚ) / (b : ℚ) ^ ys.length := by
  have hpoint (r : Nat × Nat × Bool) : pointStep b r chPoint = (r.1, r.2.1, true) := if_pos rfl
  rw [pointValue, List.foldl_append, List.foldl_cons, foldl_pointStep b xs 0 0 false hx, hpoint,
    foldl_pointStep b ys _ _ true hy, numeralFrom_append]
  simp

/-! ### Decimal digits -/

theorem numeralFrom_map_digitByte (ds : List Nat) (h : ∀ d ∈ ds, d < 10) : ∀ acc,
    numeralFrom 10 acc (ds.map digitByte) = ds.foldl (fun a d => a * 10 + d) acc := by
  induction ds with
  | nil => exact fun acc => rfl
  | cons d ds ih =>
    intro acc
    rw [List.map_cons, numeralFrom_cons, digitValue_digitByte d (h d (List.mem_cons_self ..)),
      ih (fun e he => h e (List.mem_cons_of_mem _ he)), List.foldl_cons]

theorem numeralFrom_dec (acc n : Nat) : numeralFrom 10 acc (dec n) = acc * 10 ^ ndigits n + n := by
  rw [dec_eq, numeralFrom_map_digitByte _ (decDigits_lt _ _), foldl_dec_digits]

theorem numeralFrom_zeros (acc k : Nat) : numeralFrom 10 acc (List.replicate k chZero) = acc * 10 ^ k := by
  have hdigits : ∀ d ∈ List.replicate k 0, d < 10 := fun d hd => by rw [List.eq_of_mem_replicate hd]; decide
  rw [replicate_chZero, numeralFrom_map_digitByte _ hdigits, foldl_zeros]

theorem chPoint_not_mem {cs : List Byte} (h : ∀ c ∈ cs, IsDecDigit c) : chPoint ∉ cs :=
  fun hm => not_isDecDigit_chPoint (h chPoint hm)

theorem chPoint_not_mem_dec (n : Nat) : chPoint ∉ dec n := chPoint_not_mem fun _ => isDecDigit_of_mem_dec

theorem chPoint_not_mem_zeros (k : Nat) : chPoint ∉ List.replicate k chZero :=
  chPoint_not_mem fun _ => isDecDigit_of_mem_zeros

/-! ### The body (45_fixed_writer.md R215) -/

/-- Each form of the body denotes sig * 10^ex. -/
theorem pointValue_fixedBody (sig : Nat) (ex : Int) :
    pointValue 10 (textBytes (fixedBody sig ex)) = (sig : ℚ) * (10 : ℚ) ^ ex := by
  unfold fixedBody
  dsimp only
  split_ifs with hzero hwhole hinside
  · have hb : textBytes [.bytes [chZero]] = List.replicate 1 chZero := rfl
    rw [hb, pointValue_whole 10 (chPoint_not_mem_zeros 1), numeralFrom_zeros, hzero]
    simp
  · have hb : textBytes [.bytes (dec sig), .run chZero ex.toNat] = dec sig ++ List.replicate ex.toNat chZero := by
      simp [textBytes, pieceBytes]
    rw [hb, pointValue_whole 10
      (fun h => (List.mem_append.mp h).elim (chPoint_not_mem_dec _) (chPoint_not_mem_zeros _)), numeralFrom_append,
      numeralFrom_dec, numeralFrom_zeros]
    obtain ⟨k, rfl⟩ := Int.eq_ofNat_of_zero_le hwhole
    simp
  · have hb (k : Nat) : textBytes [.bytes ((dec sig).take k), .bytes [chPoint], .bytes ((dec sig).drop k)] =
        (dec sig).take k ++ chPoint :: (dec sig).drop k := by
      simp [textBytes, pieceBytes]
    have hlen : (((dec sig).drop ((ndigits sig : Int) + ex).toNat).length : Int) = -ex := by
      rw [List.length_drop]
      have : (dec sig).length = ndigits sig := rfl
      omega
    rw [hb, pointValue_point 10 (fun h => chPoint_not_mem_dec sig (List.mem_of_mem_take h))
      (fun h => chPoint_not_mem_dec sig (List.mem_of_mem_drop h)), List.take_append_drop, numeralFrom_dec,
      ← zpow_natCast, hlen, zpow_neg, div_inv_eq_mul]
    simp
  · have hb (k : Nat) : textBytes [.bytes [chZero, chPoint], .run chZero k, .bytes (dec sig)] =
        List.replicate 1 chZero ++ chPoint :: (List.replicate k chZero ++ dec sig) := by
      simp [textBytes, pieceBytes]
    have hlen : ((List.replicate (-ex - (ndigits sig : Int)).toNat chZero ++ dec sig).length : Int) = -ex := by
      rw [List.length_append, List.length_replicate]
      have : (dec sig).length = ndigits sig := rfl
      omega
    rw [hb, pointValue_point 10 (chPoint_not_mem_zeros 1)
      (fun h => (List.mem_append.mp h).elim (chPoint_not_mem_zeros _) (chPoint_not_mem_dec _)),
      numeralFrom_append, numeralFrom_append, numeralFrom_zeros, numeralFrom_zeros, numeralFrom_dec, ← zpow_natCast,
      hlen, zpow_neg, div_inv_eq_mul]
    simp

/-! ### The sign -/

/-- A text whose first character is no minus is negated by the sign put before it. -/
theorem signedValue_signText (f : List Byte → ℚ) (neg : Bool) {body : List Byte} (h : ∀ c ∈ body.head?, c ≠ chMinus) :
    signedValue f (textBytes (signText neg) ++ body) = (if neg = true then -1 else 1) * f body := by
  cases neg
  case true =>
    have htext : textBytes (signText true) ++ body = chMinus :: body := rfl
    have hminus : chMinus = 0x2D := rfl
    rw [htext, signedValue, if_pos hminus, if_pos rfl, neg_one_mul]
  case false =>
    rw [if_neg (by decide), one_mul]
    cases body with
    | nil => rfl
    | cons c cs => exact if_neg (h c rfl)

theorem PlainDigits.head_ne_minus {bs : List Byte} (h : PlainDigits bs) : ∀ c ∈ bs.head?, c ≠ chMinus := by
  rintro c hc rfl
  rcases h.digit_or_point (List.mem_of_mem_head? hc) with hd | hp
  · exact absurd hd (by unfold IsDecDigit; decide)
  · exact absurd hp (by decide)

/-- The text of a decomposition denotes it (45_fixed_writer.md R210, R215). -/
theorem decimalValue_decompText (d : Decomp) : decimalValue (textBytes (decompText d)) = decompValue d := by
  rw [decompText, textBytes_append, decimalValue,
    signedValue_signText _ _ (fixedBody_plainDigits d.sig d.ex).head_ne_minus, pointValue_fixedBody, decompValue_eq]

/-- Settles O54: without a precision the text denotes the decomposition, which parses back. -/
theorem contractTextParsesBack : Obligations.ContractTextParsesBack := by
  rintro l x d p gen ⟨_, _, _, hback, _⟩
  rwa [fixedText, adjustDecomp_exact, decimalValue_decompText]

/-! ### The rounding (45_fixed_writer.md R212, R213) -/

theorem ndigits_eq_of_bounds {n k : Nat} (hlo : 10 ^ k ≤ n) (hhi : n < 10 ^ (k + 1)) : ndigits n = k + 1 := by
  have hpos : 0 < n := Nat.lt_of_lt_of_le (Nat.pow_pos (by decide)) hlo
  have h1 : k < ndigits n := (Nat.pow_lt_pow_iff_right (by decide)).mp (Nat.lt_of_le_of_lt hlo (lt_ten_pow_ndigits n))
  have h2 : ndigits n - 1 < k + 1 :=
    (Nat.pow_lt_pow_iff_right (by decide)).mp (Nat.lt_of_le_of_lt (ten_pow_ndigits_le hpos) hhi)
  omega

/-- A number of more than j digits loses j of them when divided by 10^j. -/
theorem ndigits_div_ten_pow {n j : Nat} (h : j < ndigits n) : ndigits (n / 10 ^ j) = ndigits n - j := by
  rcases Nat.eq_zero_or_pos n with rfl | hpos
  · have h1 : ndigits 0 = 1 := rfl
    obtain rfl : j = 0 := by omega
    rfl
  · obtain ⟨k, hk⟩ := Nat.exists_eq_add_of_lt h
    have hlo := ten_pow_ndigits_le hpos
    have hhi := lt_ten_pow_ndigits n
    rw [hk] at hlo hhi ⊢
    have hj : 0 < 10 ^ j := Nat.pow_pos (by decide)
    rw [ndigits_eq_of_bounds (k := k)]
    · omega
    · rw [Nat.le_div_iff_mul_le hj, ← Nat.pow_add]
      exact Nat.le_trans (Nat.pow_le_pow_right (by decide) (by omega)) hlo
    · rw [Nat.div_lt_iff_lt_mul hj, ← Nat.pow_add]
      exact Nat.lt_of_lt_of_le hhi (Nat.pow_le_pow_right (by decide) (by omega))

/-- The coarse truncation drops the digits beyond the first P + 2. -/
theorem coarseCut_eq (fuel p : Nat) : ∀ d : Decomp, ndigits d.sig - (p + 2) ≤ fuel →
    coarseCut fuel p d = ⟨d.sig / 10 ^ (ndigits d.sig - (p + 2)), d.ex + (ndigits d.sig - (p + 2) : Nat), d.neg⟩ := by
  induction fuel with
  | zero =>
    intro d h
    rw [Nat.le_zero.mp h]
    simp [coarseCut]
  | succ fuel ih =>
    intro d h
    rw [coarseCut]
    split
    · next hlong =>
      have hdrop : ndigits (d.sig / 10) = ndigits d.sig - 1 := by
        simpa using ndigits_div_ten_pow (n := d.sig) (j := 1) (by omega)
      have hsub : ndigits d.sig - (p + 2) = ndigits d.sig - 1 - (p + 2) + 1 := by omega
      rw [ih (dropDigit d) (by rw [dropDigit]; dsimp only; omega), dropDigit]
      dsimp only
      rw [hdrop, hsub, Nat.div_div_eq_div_mul, ← Nat.pow_succ']
      push_cast
      congr 1
      ring
    · next hshort =>
      rw [Nat.sub_eq_zero_of_le (Nat.not_lt.mp hshort)]
      simp

/-- Half-up rounding at a power of ten, by the digit just below the cut. -/
theorem round_half_up (n j : Nat) : (2 * n + 10 ^ (j + 1)) / (2 * 10 ^ (j + 1)) =
    if 5 ≤ n / 10 ^ j % 10 then n / 10 ^ j / 10 + 1 else n / 10 ^ j / 10 := by
  have hj : 0 < 10 ^ j := Nat.pow_pos (by decide)
  have hsum : 2 * n + 10 ^ (j + 1) = 2 * (n + 5 * 10 ^ j) := by rw [pow_succ]; ring
  rw [hsum, Nat.mul_div_mul_left _ _ (by decide), pow_succ, ← Nat.div_div_eq_div_mul, Nat.add_mul_div_right _ _ hj]
  split <;> omega

/-- With fewer than P + 2 digits there is nothing to round. -/
theorem adjustDecomp_short {p : Nat} {d : Decomp} (h : ndigits d.sig < p + 2) : adjustDecomp true p false d = d := by
  have hcut : coarseCut (ndigits d.sig) p d = d := by
    rw [coarseCut_eq _ _ _ (Nat.sub_le _ _), Nat.sub_eq_zero_of_le h.le]
    simp
  simp only [adjustDecomp, hcut, if_true, Bool.false_eq_true, if_false]
  exact if_neg h.ne

/-- Else the significand is rounded half-up to P + 1 digits. -/
theorem adjustDecomp_round {p : Nat} {d : Decomp} (h : p + 2 ≤ ndigits d.sig) :
    adjustDecomp true p false d =
      ⟨(2 * d.sig + 10 ^ (ndigits d.sig - (p + 1))) / (2 * 10 ^ (ndigits d.sig - (p + 1))),
        d.ex + (ndigits d.sig - (p + 1) : Nat), d.neg⟩ := by
  obtain ⟨j, hj⟩ := Nat.exists_eq_add_of_le h
  have hcut := coarseCut_eq (ndigits d.sig) p d (Nat.sub_le _ _)
  have hlen : ndigits (d.sig / 10 ^ j) = p + 2 := by
    rw [ndigits_div_ten_pow (by omega)]; omega
  have hk : ndigits d.sig - (p + 1) = j + 1 := by omega
  rw [show ndigits d.sig - (p + 2) = j by omega] at hcut
  simp only [adjustDecomp, hcut, if_true, Bool.false_eq_true, if_false, hk, roundBoundary, hlen, dropDigit,
    round_half_up]
  split <;> simp [add_assoc]

/-- Settles O36: the text denotes the adjusted decomposition, and the strip of general mode keeps its value. -/
theorem fixedTextDenotesItsValue : Obligations.FixedTextDenotesItsValue := by
  rintro d pv p k gen rfl
  have hgen : decompValue (adjustDecomp pv p gen d) = decompValue (adjustDecomp pv p false d) := by
    cases pv with
    | false => rfl
    | true =>
      cases gen with
      | false => rfl
      | true => exact (generalStripKeepsTheValue d p).1
  rw [fixedText, decimalValue_decompText, hgen]
  by_cases h : pv = true ∧ p + 2 ≤ ndigits d.sig
  · rw [if_pos h]
    obtain ⟨rfl, hlong⟩ := h
    rw [adjustDecomp_round hlong, decompValue_eq]
  · have hadjust : adjustDecomp pv p false d = d := by
      cases pv with
      | false => rfl
      | true => exact adjustDecomp_short (by simpa using h)
    rw [if_neg h, hadjust, decompValue_eq]

end Sys2Proof.Machine
end

section
/-! The integer window (46_dispatcher.md R244, R246, R247): its values are integers, written by their digits, the same
under General and Fixed, and read back by PARSE_INT. -/

namespace Sys2Proof.Machine

/-! ### The magnitude is an integer -/

theorem windowLegal_iff {w : WindowConfig} {l : Layout} : windowLegal w l = true ↔
    2 ^ ((layoutRow l).precision - 1) ≤ (windowOf w l).maxFrac ∧ (windowOf w l).maxFrac ≤ (windowOf w l).maxInt := by
  rw [windowLegal, Bool.and_eq_true, decide_eq_true_iff, decide_eq_true_iff]

/-- A magnitude of 2^(P(L)-1) or more has no fraction, since the significand is below 2^P(L). -/
theorem scale_nonneg {l : Layout} {x : Quad} (h : (2 : ℚ) ^ ((layoutRow l).precision - 1) ≤ floatMag l x) :
    0 ≤ scale l x := by
  by_contra hneg
  have hsig : (significand l x : ℚ) < 2 * (2 : ℚ) ^ ((layoutRow l).precision - 1) := by
    have hlt := significand_lt l x
    rw [two_pow_precision] at hlt
    exact_mod_cast hlt
  have hscale : (2 : ℚ) ^ scale l x ≤ 2⁻¹ := by
    rw [← zpow_neg_one]
    exact zpow_le_zpow_right₀ (by norm_num) (by omega)
  have hmag : floatMag l x ≤ (significand l x : ℚ) * 2⁻¹ := mul_le_mul_of_nonneg_left hscale (by positivity)
  linarith

/-- Without a negative scale the integer part is the magnitude (46_dispatcher.md R246). -/
theorem magInt_cast {l : Layout} {x : Quad} (h : 0 ≤ scale l x) : (magInt l x : ℚ) = floatMag l x := by
  rw [magInt, if_pos h, floatMag]
  push_cast
  rw [← zpow_natCast, Int.toNat_of_nonneg h]

theorem magInt_of_intWindow {w : WindowConfig} {l : Layout} {x : Quad} (hw : windowLegal w l = true)
    (h : inIntWindow w l x = true) : (magInt l x : ℚ) = floatMag l x := by
  obtain ⟨hlow, _⟩ := windowLegal_iff.mp hw
  obtain ⟨_, hfrac, _⟩ := inIntWindow_iff.mp h
  refine magInt_cast (scale_nonneg (le_trans ?_ hfrac))
  exact_mod_cast hlow

/-- The plain-integer text is the text of the integer as a decomposition. -/
theorem plainIntText_bytes_eq (l : Layout) (x : Quad) :
    textBytes (plainIntText l x) = textBytes (decompText ⟨magInt l x, 0, (extractFloat l x).sign⟩) := by
  have hbody : textBytes (fixedBody (magInt l x) 0) = dec (magInt l x) := by
    unfold fixedBody
    dsimp only
    split
    · next h => rw [h]; rfl
    · simp [textBytes, pieceBytes]
  rw [plainIntText_bytes, decompText, textBytes_append, hbody, signText_bytes_eq]

theorem floatVal_eq_sign_mul (l : Layout) (x : Quad) :
    floatVal l x = (if (extractFloat l x).sign = true then -1 else 1) * floatMag l x := by
  unfold floatVal
  split <;> simp

/-- An integer magnitude as a decomposition has the value of the pattern. -/
theorem decompValue_magInt {l : Layout} {x : Quad} (h : (magInt l x : ℚ) = floatMag l x) :
    decompValue ⟨magInt l x, 0, (extractFloat l x).sign⟩ = floatVal l x := by
  rw [decompValue_eq, floatVal_eq_sign_mul, zpow_zero, mul_one, h]

theorem ndigits_mono {m n : Nat} (h : m ≤ n) : ndigits m ≤ ndigits n := by
  rcases Nat.eq_zero_or_pos m with rfl | hpos
  · exact ndigits_pos n
  · have hlt : ndigits m - 1 < ndigits n := (Nat.pow_lt_pow_iff_right (by decide)).mp
      (calc 10 ^ (ndigits m - 1) ≤ m := ten_pow_ndigits_le hpos
        _ ≤ n := h
        _ < 10 ^ ndigits n := lt_ten_pow_ndigits n)
    omega

/-- Settles O44: the magnitude is its integer part, and the text is that of a decomposition of its value. -/
theorem integerWindowIsIntegral : Obligations.IntegerWindowIsIntegral := by
  refine ⟨fun w l x hw h => ?_, ?_, ?_, ?_, ?_⟩
  · have hint := magInt_of_intWindow hw h
    obtain ⟨_, _, hmax⟩ := inIntWindow_iff.mp h
    have hlt : magInt l x < (windowOf w l).maxInt := by
      rw [← hint] at hmax
      exact_mod_cast hmax
    exact ⟨hint, hlt, ndigits_mono (by omega),
      by rw [plainIntText_bytes_eq, decimalValue_decompText, decompValue_magInt hint]⟩
  · exact ndigits_eq_of_bounds (k := 9) (by decide) (by decide)
  · exact ndigits_eq_of_bounds (k := 19) (by decide) (by decide)
  · exact ndigits_eq_of_bounds (k := 19) (by decide) (by decide)
  · exact ndigits_eq_of_bounds (k := 38) (by decide) (by decide)

/-! ### General and Fixed -/

theorem nonFinite_eq_false_of {c : FloatClass} (h : c = .normal ∨ c = .subnormal) : nonFinite c = false := by
  rcases h with rfl | rfl <;> rfl

theorem finite_of_window {w : WindowConfig} {l : Layout} {x : Quad}
    (h : inFixedWindow w l x = true ∨ inIntWindow w l x = true) : nonFinite (classifyFloat l x) = false :=
  nonFinite_eq_false_of (h.elim (fun hf => (inFixedWindow_iff.mp hf).1) fun hi => (inIntWindow_iff.mp hi).1)

/-- Without a precision the fixed writer has no general mode, and the plain integer no format. -/
theorem windowText_general_eq_fixed {w : WindowConfig} {l : Layout} {x : Quad}
    (h : inFixedWindow w l x = true ∨ inIntWindow w l x = true) :
    windowText w l x .general = windowText w l x .fixed := by
  by_cases hfixed : inFixedWindow w l x = true
  · rw [windowText_fixedWindow hfixed, windowText_fixedWindow hfixed, fixedText, fixedText, adjustDecomp_exact,
      adjustDecomp_exact]
  · have hfixed : inFixedWindow w l x = false := by simpa using hfixed
    have hint : inIntWindow w l x = true := h.resolve_left (by simp [hfixed])
    rw [windowText_intWindow hfixed hint, windowText_intWindow hfixed hint]

theorem floatText_window {w : WindowConfig} {l : Layout} {x : Quad} {f : Fmt} (hf : f = .fixed ∨ f = .general)
    (h : inFixedWindow w l x = true ∨ inIntWindow w l x = true) (p : Word) :
    floatText w l x f false p = windowText w l x .fixed := by
  have hfinite := finite_of_window h
  rcases hf with rfl | rfl
  · rw [floatText_decimal hfinite (.inl rfl), decimalText_window (by decide)]
  · rw [floatText_decimal hfinite (.inr (.inr rfl)), decimalText_window (by decide), windowText_general_eq_fixed h]

/-- Settles O45: in a window both formats make the same text. -/
theorem generalIsFixedInWindows : Obligations.GeneralIsFixedInWindows := by
  intro l s h
  show s.onSpan (s.writeSpan (floatText _ _ _ .general _ _)) = s.onSpan (s.writeSpan (floatText _ _ _ .fixed _ _))
  rw [floatText_window (.inr rfl) h, floatText_window (.inl rfl) h]

/-! ### Reading the integer back -/

/-- A value of the integer window is not in the fixed window before it. -/
theorem inFixedWindow_of_intWindow {w : WindowConfig} {l : Layout} {x : Quad} (h : inIntWindow w l x = true) :
    inFixedWindow w l x = false := by
  rw [← Bool.not_eq_true, inFixedWindow_iff]
  rintro ⟨_, _, hlt⟩
  exact absurd (inIntWindow_iff.mp h).2.1 (not_le.mpr hlt)

theorem State.spanHazard_eq_none_iff {aw : Nat} (s : State aw) :
    s.spanHazard = none ↔ ∀ r ∈ s.regions, regionMeets r s.first.toNat s.last.toNat = false := by
  have hkind (r : Region) : r.kind = .sideEffects ∨ r.kind = .contended := by cases r.kind <;> simp
  unfold State.spanHazard
  constructor
  · intro h r hr
    by_contra hmeets
    have hmeets : regionMeets r s.first.toNat s.last.toNat = true := by simpa using hmeets
    split_ifs at h with hside hcont
    rcases hkind r with hk | hk
    · exact hside (List.any_eq_true.mpr ⟨r, hr, by simp [hk, hmeets]⟩)
    · exact hcont (List.any_eq_true.mpr ⟨r, hr, by simp [hk, hmeets]⟩)
  · intro h
    have hnone (k : RegionKind) :
        ¬ (s.regions.any fun r => r.kind = k && regionMeets r s.first.toNat s.last.toNat) = true := by
      rw [List.any_eq_true]
      rintro ⟨r, hr, hmeets⟩
      simp [h r hr] at hmeets
    rw [if_neg (hnone _), if_neg (hnone _)]

/-- A span inside one that meets no region meets none. -/
theorem State.spanHazard_shrink {aw : Nat} {s t : State aw} (h : s.spanHazard = none) (hregions : t.regions = s.regions)
    (hfirst : t.first = s.first) (hle : t.last.toNat ≤ s.last.toNat) : t.spanHazard = none := by
  rw [State.spanHazard_eq_none_iff] at h ⊢
  intro r hr
  have hmeets := h r (hregions ▸ hr)
  rw [← Bool.not_eq_true, regionMeets_iff] at hmeets ⊢
  rintro ⟨a, hbase, hend, hlo, hhi⟩
  exact hmeets ⟨a, hbase, hend, hfirst ▸ hlo, by omega⟩

/-- The digits `dec` writes are those of the number. -/
theorem map_digitValue_dec (n : Nat) :
    (dec n).map digitValue = if n = 0 then [0] else (Nat.digits 10 n).reverse := by
  rw [(decWritesDecimalDigits n).1]
  split
  · decide
  · rw [List.map_map]
    refine (List.map_congr_left fun d hd => ?_).trans (List.map_id _)
    exact digitValue_digitByte d (Nat.digits_lt_base (by decide) (List.mem_reverse.mp hd))

/-- After a span write that fits, the host sets LAST to CURSOR: the span holds the text and is still a place for a
command (20_memory.md R63). -/
theorem State.span_of_writeSpan {aw : Nat} {s : State aw} (h : s.spanReady) {text : Text}
    (hfit : textLength text ≤ s.spanSize) :
    State.spanReady { s.writeSpan text with last := (s.writeSpan text).cursor } ∧
    State.spanBytes { s.writeSpan text with last := (s.writeSpan text).cursor } = textBytes text := by
  obtain ⟨hle, hhazard⟩ := h
  have hout := State.writeSpan_outcome hle text
  rw [if_pos hfit] at hout
  have hcursor : (s.writeSpan text).cursor.toNat = s.first.toNat + textLength text := hout.2
  have hlast : (s.writeSpan text).cursor.toNat ≤ s.last.toNat := by unfold State.spanSize at hfit; omega
  refine ⟨⟨?_, State.spanHazard_shrink hhazard (s.writeSpan_regions text) (s.writeSpan_first text) hlast⟩, ?_⟩
  · dsimp only
    rw [State.writeSpan_first]
    omega
  · unfold State.spanBytes State.spanSize
    dsimp only
    rw [State.writeSpan_first, hcursor, Nat.add_sub_cancel_left, State.writeSpan_mem, if_pos hfit, ← textBytes_length,
      Memory.readBytes_writeBytes]

/-- An integer below 2^128, or one of magnitude at most 2^127 with its sign, is a value of the 128-bit type. -/
theorem signedInt_in_range {n : Nat} {sg : Bool} (hn : n < 2 ^ 128) (hneg : sg = true → n ≤ 2 ^ 127) (hpos : 0 < n) :
    if sg = true then -(2 : Int) ^ (128 - 1) ≤ signedInt sg n ∧ signedInt sg n < (2 : Int) ^ (128 - 1)
    else 0 ≤ signedInt sg n ∧ signedInt sg n < (2 : Int) ^ 128 := by
  cases sg
  case false => simp only [signedInt, Bool.false_eq_true, if_false]; omega
  case true => have := hneg rfl; simp only [signedInt, if_true]; omega

/-- A 128-bit pattern of such a value reads back as it. -/
theorem ofInt_reads_back {v : Int} {sg : Bool}
    (h : if sg = true then -(2 : Int) ^ (128 - 1) ≤ v ∧ v < (2 : Int) ^ (128 - 1) else 0 ≤ v ∧ v < (2 : Int) ^ 128) :
    (if sg = true then (BitVec.ofInt 128 v).toInt else ((BitVec.ofInt 128 v).toNat : Int)) = v := by
  cases sg
  case false =>
    simp only [Bool.false_eq_true, if_false] at h ⊢
    rw [BitVec.toNat_ofInt]
    omega
  case true =>
    simp only [if_true] at h ⊢
    exact BitVec.toInt_ofInt_eq_self (by decide) h.1 h.2

theorem defaultWindows_legal (l : Layout) : windowLegal defaultWindows l = true := by cases l <;> decide

theorem defaultWindows_maxInt_le (l : Layout) : (windowOf defaultWindows l).maxInt ≤ 2 ^ 128 := by cases l <;> decide

/-- A value of the default integer window: an integer from 1 to 2^128 - 1 (10_state.md R36). -/
theorem magInt_default_window {l : Layout} {x : Quad} (h : inIntWindow defaultWindows l x = true) :
    0 < magInt l x ∧ magInt l x < 2 ^ 128 ∧ ndigits (magInt l x) ≤ 39 := by
  obtain ⟨hwindow, hdigits, _⟩ := integerWindowIsIntegral
  obtain ⟨hint, hlt, hlen, _⟩ := hwindow defaultWindows l x (defaultWindows_legal l) h
  have hmax := defaultWindows_maxInt_le l
  obtain ⟨_, hlow, _⟩ := inIntWindow_iff.mp h
  have hfrac : 0 < (windowOf defaultWindows l).maxFrac := by cases l <;> decide
  rw [← hint] at hlow
  have hlow : (windowOf defaultWindows l).maxFrac ≤ magInt l x := by exact_mod_cast hlow
  have h39 : ndigits (magInt l x) ≤ ndigits (2 ^ 128 - 1) := ndigits_mono (by omega)
  rw [ndigits_eq_of_bounds (n := 2 ^ 128 - 1) (k := 38) (by decide) (by decide)] at h39
  exact ⟨by omega, by omega, h39⟩

/-- FMT_FLOAT of such a value under Fixed or General without a precision is the span write of the plain integer. -/
theorem exec_fmtFloat_intWindow {s : State} {l : Layout} {f : Fmt} (hready : s.spanReady)
    (hf : f = .fixed ∨ f = .general) (hint : inIntWindow s.windows l (s.floatOperand l) = true) :
    exec (.fmtFloat l f false) s = .next (s.writeSpan (plainIntText l (s.floatOperand l))) := by
  rw [exec_fmtFloat hready, floatText_window hf (.inr hint),
    windowText_intWindow (inFixedWindow_of_intWindow hint) hint]

/-- The plain integer is the numeral of its signed value. -/
theorem plainIntText_numeral {l : Layout} {x : Quad} (hpos : 0 < magInt l x) :
    textBytes (plainIntText l x) = minusOf (signedInt (extractFloat l x).sign (magInt l x)) ++ dec (magInt l x) := by
  rw [plainIntText_bytes]
  cases (extractFloat l x).sign <;> simp [minusOf, signedInt, hpos]

theorem plainIntText_length (l : Layout) (x : Quad) :
    textLength (plainIntText l x) = (extractFloat l x).sign.toNat + ndigits (magInt l x) := by
  rw [plainIntText, textLength_append, signText_length]
  rfl

theorem signedInt_natAbs (neg : Bool) (n : Nat) : (signedInt neg n).natAbs = n := by
  cases neg <;> simp [signedInt]

/-- An integer magnitude with the sign of the pattern is the value (42_float_layout.md R153). -/
theorem signedInt_magInt_cast {l : Layout} {x : Quad} (h : (magInt l x : ℚ) = floatMag l x) :
    ((signedInt (extractFloat l x).sign (magInt l x) : Int) : ℚ) = floatVal l x := by
  rw [floatVal_eq_sign_mul, ← h]
  cases (extractFloat l x).sign <;> simp [signedInt]

/-- Settles O55: the text is the integer's numeral, which fits and which O32 reads back. -/
theorem formatThenParseGivesTheValue : Obligations.FormatThenParseGivesTheValue := by
  rintro l f s _ hf hready hwin hint rfl hneg hroom
  have hrun := exec_fmtFloat_intWindow hready hf hint
  rw [hwin] at hint
  obtain ⟨hpos, hlt, hlen⟩ := magInt_default_window hint
  have hmag := magInt_of_intWindow (defaultWindows_legal l) hint
  generalize s.floatOperand l = x at *
  have hfit : textLength (plainIntText l x) ≤ s.spanSize := by
    rw [plainIntText_length]
    unfold State.spanSize
    omega
  have hhalf (h : (extractFloat l x).sign = true) : magInt l x ≤ 2 ^ 127 := by
    have hle := hneg h
    rw [← hmag] at hle
    exact_mod_cast hle
  have hrange := signedInt_in_range hlt hhalf hpos
  obtain ⟨hready', hspan⟩ := State.span_of_writeSpan hready hfit
  have hout := State.writeSpan_outcome hready.1 (plainIntText l x)
  rw [if_pos hfit] at hout
  have hne : signedInt (extractFloat l x).sign (magInt l x) ≠ 0 := by
    rw [← Int.natAbs_ne_zero, signedInt_natAbs]
    omega
  refine ⟨_, _, hrun, hout.1, parseIntRoundTrip 4 _ 10 _ (signedInt (extractFloat l x).sign (magInt l x)) _ 128
    (by decide) (by decide) (by decide) hready' (by decide) hrange ?_ (hspan.trans (plainIntText_numeral hpos)), rfl,
    rfl, ?_⟩
  · rw [if_neg hne, signedInt_natAbs]
    exact (map_digitValue_dec _).trans (if_neg hpos.ne')
  · rw [← signedInt_magInt_cast hmag]
    exact congrArg _ (ofInt_reads_back hrange)

end Sys2Proof.Machine
end

section
/-! The oracle's contract (46_dispatcher.md R240): what the answers of the oracle port parse back to, and General's text
by each of its routes. -/

namespace Sys2Proof.Machine

/-! ### ORACLE_DECOMP -/

/-- The open parameter's decomposition has a last digit from 1 to 9. -/
theorem rawDecomp_sig_mod (l : Layout) (x : Quad) : 0 < (rawDecomp l x).sig ∧ (rawDecomp l x).sig % 10 ≠ 0 := by
  have hdigit := (Config.oracleDecomp l x).2.1.isLt
  unfold rawDecomp
  dsimp only
  omega

/-- ORACLE_DECOMP's answer is the open parameter's or the computed one, and has the form either has. -/
theorem oracleDecomp_form (l : Layout) (x : Quad) :
    (oracleDecomp l x).neg = (extractFloat l x).sign ∧ 0 < (oracleDecomp l x).sig ∧
    (oracleDecomp l x).sig % 10 ≠ 0 := by
  obtain ⟨hpos, hmod⟩ := rawDecomp_sig_mod l x
  unfold oracleDecomp
  split
  · exact ⟨rfl, hpos, hmod⟩
  next hnz =>
    split
    · exact ⟨rfl, hpos, hmod⟩
    · obtain ⟨_, hneg, hpos', hmod', _⟩ := shortestDecomp_spec hnz
      exact ⟨hneg, hpos', hmod'⟩

/-- Of a value that is not zero it parses back with the fewest digits. -/
theorem oracleDecomp_shortestOk {l : Layout} {x : Quad} (h : significand l x ≠ 0) :
    shortestOk l x (oracleDecomp l x) (ndigits (oracleDecomp l x).sig) = true := by
  rw [oracleDecomp, if_neg h]
  split
  · next hraw => exact hraw
  · exact shortestOk_shortestDecomp l x

theorem significand_ne_zero_of_mag {l : Layout} {x : Quad} (h : 1 ≤ floatMag l x) : significand l x ≠ 0 := by
  intro hzero
  rw [floatMag, hzero] at h
  norm_num at h

/-- Settles O57: the answer has the form, and `readsBack` is parsing back. -/
theorem oracleDecompMeetsItsContract : Obligations.OracleDecompMeetsItsContract := by
  intro l x hclass hmag
  have hfinite := nonFinite_eq_false_of hclass
  obtain ⟨hneg, hpos, hmod⟩ := oracleDecomp_form l x
  obtain ⟨hback, hmin⟩ := shortestOk_minimal (oracleDecomp_shortestOk (significand_ne_zero_of_mag hmag))
  refine ⟨hneg, hpos, hmod, (readsBack_iff hfinite).mp hback, fun d' hlt hback' => ?_⟩
  exact absurd (hmin d' ((readsBack_iff hfinite).mpr hback')) (Nat.not_le.mpr hlt)

/-! ### ORACLE_SHORTEST -/

/-- Settles O58: the text has the properties asked of it, and `readsBack` is parsing back. -/
theorem oracleShortestMeetsItsContract : Obligations.OracleShortestMeetsItsContract := by
  intro l x f hfinite
  obtain ⟨r, hread, hrep, hback, hmin⟩ := shortestTextOk_reads (oracleShortest_ok l x f)
  obtain ⟨hfixed, hscientific⟩ := (inRepresentation_iff f r).mp hrep
  refine ⟨⟨r, hread, hfixed, hscientific⟩, r, hread, (readsBack_iff hfinite).mp hback, fun d' hlt hback' => ?_⟩
  exact absurd (hmin d' ((readsBack_iff hfinite).mpr hback')) (Nat.not_le.mpr hlt)

/-! ### The bytes of the oracle's texts -/

/-- An ASCII byte (00_scope.md R14). -/
def IsAscii (c : Byte) : Prop := c.toNat < 128

theorem IsDecDigit.isAscii {c : Byte} (h : IsDecDigit c) : IsAscii c := by
  unfold IsDecDigit at h
  unfold IsAscii
  omega

theorem signText_isAscii (neg : Bool) : ∀ c ∈ textBytes (signText neg), IsAscii c := by
  unfold IsAscii
  cases neg <;> decide

theorem decompText_isAscii (d : Decomp) : ∀ c ∈ textBytes (decompText d), IsAscii c := by
  intro c hc
  rw [decompText, textBytes_append, List.mem_append] at hc
  rcases hc with hc | hc
  · exact signText_isAscii _ c hc
  · rcases (fixedBody_plainDigits d.sig d.ex).digit_or_point hc with h | rfl
    · exact h.isAscii
    · unfold IsAscii; decide

theorem scientificText_isAscii (d : Decomp) : ∀ c ∈ textBytes (scientificText d), IsAscii c := by
  have hbytes : textBytes (scientificText d) = textBytes (signText d.neg) ++ (dec d.sig ++
      ([0x65, if 0 ≤ d.ex then chPlus else chMinus] ++ dec d.ex.natAbs)) := by
    simp [scientificText, textBytes, pieceBytes]
  have hmid : ∀ c ∈ [0x65, if 0 ≤ d.ex then chPlus else chMinus], IsAscii c := by
    unfold IsAscii
    split <;> decide
  intro c hc
  rw [hbytes] at hc
  simp only [List.mem_append] at hc
  rcases hc with hc | hc | hc | hc
  · exact signText_isAscii _ c hc
  · exact (isDecDigit_of_mem_dec hc).isAscii
  · exact hmid c hc
  · exact (isDecDigit_of_mem_dec hc).isAscii

theorem plainShortest_isAscii (l : Layout) (x : Quad) (f : DecFmt) : ∀ c ∈ plainShortest l x f, IsAscii c := by
  unfold plainShortest
  split
  · exact scientificText_isAscii _
  · exact decompText_isAscii _

/-- Seven bits make an ASCII byte. -/
theorem asciiBytes_isAscii (t : BitVec 7 × List (BitVec 7)) :
    ∀ c ∈ (asciiBytes t).1 :: (asciiBytes t).2, IsAscii c := by
  have hchar (c : BitVec 7) : IsAscii (c.setWidth 8) := by
    have hlt := c.isLt
    unfold IsAscii
    rw [BitVec.toNat_setWidth]
    omega
  intro c hc
  rcases List.mem_cons.mp hc with rfl | hc
  · exact hchar _
  · obtain ⟨d, _, rfl⟩ := List.mem_map.mp hc
    exact hchar d

/-- Every oracle text is one of the two sources, both ASCII. -/
theorem oracleText_isAscii {l : Layout} {x : Quad} {f : DecFmt} {ok : List Byte → Bool} {raw : Byte × List Byte}
    (hraw : ∀ c ∈ raw.1 :: raw.2, IsAscii c) : ∀ c ∈ textBytes (oracleText l x f ok raw), IsAscii c := by
  have hbytes (t : Byte × List Byte) : textBytes (nonemptyText t) = t.1 :: t.2 := List.append_nil _
  rw [oracleText, hbytes]
  split
  · exact hraw
  · have hplain := plainShortest_isAscii l x f
    obtain ⟨c, cs, hcs⟩ := List.exists_cons_of_ne_nil (plainShortest_ne_nil l x f)
    rw [hcs] at hplain ⊢
    exact hplain

/-- Settles O53: the decomposition and the texts, each by its two sources. -/
theorem oracleAnswersHaveRequiredForm : Obligations.OracleAnswersHaveRequiredForm := by
  intro l x f q
  obtain ⟨hneg, hpos, hmod⟩ := oracleDecomp_form l x
  obtain ⟨r, hread, hrep⟩ := (precTextOk_iff f _).mp (oraclePrec_ok l x f q)
  obtain ⟨hfixed, hscientific⟩ := (inRepresentation_iff f r).mp hrep
  exact ⟨hneg, hpos, hmod, oracleText_length_pos .., oracleText_isAscii (asciiBytes_isAscii _),
    oracleText_length_pos .., oracleText_isAscii (asciiBytes_isAscii _), r, hread, hfixed, hscientific⟩

/-! ### General without a precision -/

/-- The text of a decomposition says a decimal of its value (log 23). -/
theorem readText_decompText_value (d : Decomp) :
    ∃ r, readText (textBytes (decompText d)) = some r ∧ decompValue r.value = decompValue d := by
  refine ⟨_, readText_decompText d, ?_⟩
  split_ifs with hzero hwhole
  · simp [decompValue_eq, hzero]
  · obtain ⟨k, hk⟩ := Int.eq_ofNat_of_zero_le hwhole
    simp [decompValue_eq, hk]
  · rfl

/-- A value parses back to its own pattern. -/
theorem parsesBack_floatVal {l : Layout} {x : Quad} (h : nonFinite (classifyFloat l x) = false)
    (h0 : significand l x ≠ 0) : parsesBack l (floatVal l x) x := by
  have hsig : canonicalSig l x ≠ 0 := mt canonicalSig_eq_zero.mp h0
  have hround := RoundsTo.of_inInterval h hsig (floatMag_inInterval hsig)
  rw [parsesBack_iff_roundsTo h]
  unfold floatVal
  split
  · rwa [neg_neg]
  · exact hround

/-- Settles O60, by the route: the fixed window, the integer window, and ORACLE_SHORTEST. -/
theorem generalTextParsesBack : Obligations.GeneralTextParsesBack := by
  intro w l x p hw hfinite
  rw [floatText_decimal hfinite (.inr (.inr rfl)), decimalText_window (by decide)]
  by_cases hfixed : inFixedWindow w l x = true
  · obtain ⟨hclass, hmag, _⟩ := inFixedWindow_iff.mp hfixed
    obtain ⟨_, _, _, hback, _⟩ := oracleDecompMeetsItsContract l x hclass hmag
    obtain ⟨r, hread, hvalue⟩ := readText_decompText_value (oracleDecomp l x)
    rw [windowText_fixedWindow hfixed, fixedText, adjustDecomp_exact]
    exact ⟨r, hread, hvalue ▸ hback⟩
  · have hfixed : inFixedWindow w l x = false := by simpa using hfixed
    by_cases hint : inIntWindow w l x = true
    · have hmag := magInt_of_intWindow hw hint
      have hlow : 1 ≤ floatMag l x := by
        obtain ⟨hlegal, _⟩ := windowLegal_iff.mp hw
        obtain ⟨_, hfrac, _⟩ := inIntWindow_iff.mp hint
        exact le_trans (by exact_mod_cast (one_le_two_pow_precision l).trans hlegal) hfrac
      obtain ⟨r, hread, hvalue⟩ := readText_decompText_value ⟨magInt l x, 0, (extractFloat l x).sign⟩
      rw [windowText_intWindow hfixed hint, plainIntText_bytes_eq]
      rw [decompValue_magInt hmag] at hvalue
      exact ⟨r, hread, hvalue ▸ parsesBack_floatVal hfinite (significand_ne_zero_of_mag hlow)⟩
    · have hint : inIntWindow w l x = false := by simpa using hint
      obtain ⟨_, r, hread, hback, _⟩ := oracleShortestMeetsItsContract l x .general hfinite
      rw [windowText_outside hfixed hint]
      exact ⟨r, hread, hback⟩

end Sys2Proof.Machine
end

section
/-! The hex writer (44_hex_writer.md R183 to R191): the parts of a hex text, and the rational it denotes. -/

namespace Sys2Proof.Machine

/-! ### The native digits (44_hex_writer.md R183, R185) -/

theorem extractFloat_fraction_lt (l : Layout) (x : Quad) : (extractFloat l x).fraction < 2 ^ (layoutRow l).fracWidth :=
  BitVec.isLt _

/-- The N native digits have room for the fraction field (42_float_layout.md R150). -/
theorem fracWidth_le_native (l : Layout) : (layoutRow l).fracWidth ≤ 4 * (layoutRow l).nhex := by cases l <;> decide

theorem two_pow_four_mul (n : Nat) : 2 ^ (4 * n) = 16 ^ n := by rw [Nat.pow_mul]

theorem hexFraction_lt (l : Layout) (x : Quad) : hexFraction l x < 16 ^ (layoutRow l).nhex := by
  rw [← two_pow_four_mul, ← Nat.add_sub_cancel' (fracWidth_le_native l), Nat.pow_add]
  exact Nat.mul_lt_mul_of_pos_right (extractFloat_fraction_lt l x) (Nat.two_pow_pos _)

theorem hexNative_eq (l : Layout) (x : Quad) :
    hexNative l x = (extractFloat l x).intBit.toNat * 16 ^ (layoutRow l).nhex + hexFraction l x := by
  rw [hexNative, two_pow_four_mul]

/-! ### The strip (44_hex_writer.md R187) -/

/-- The strip takes zeros off the end, all of them. -/
theorem stripHex_spec (n : Nat) : ∀ m, (stripHex n m).2 ≤ n ∧ (stripHex n m).1 * 16 ^ (n - (stripHex n m).2) = m ∧
    ((stripHex n m).2 = 0 ∨ (stripHex n m).1 % 16 ≠ 0) := by
  induction n with
  | zero => exact fun m => ⟨Nat.le_refl _, Nat.mul_one m, .inl rfl⟩
  | succ n ih =>
    intro m
    rw [stripHex]
    split
    · next hzero =>
      obtain ⟨hcount, hfrac, hlast⟩ := ih (m / 16)
      refine ⟨by omega, ?_, hlast⟩
      rw [Nat.succ_sub hcount, Nat.pow_succ, ← Nat.mul_assoc, hfrac]
      omega
    · next hdigit => exact ⟨Nat.le_refl _, by simp, .inr hdigit⟩

/-! ### The rounding (44_hex_writer.md R185) -/

/-- The rounded number is the cut one or the next. -/
theorem roundHalfEven_cases (q drop : Nat) :
    roundHalfEven q drop = q / 2 ^ drop ∨ roundHalfEven q drop = q / 2 ^ drop + 1 := by
  unfold roundHalfEven
  dsimp only
  split
  · exact .inr rfl
  · exact .inl rfl

/-- It is at most half a unit away, and even when exactly so. -/
theorem roundHalfEven_nearest (q drop : Nat) (hd : 0 < drop) :
    2 * q ≤ 2 * (roundHalfEven q drop * 2 ^ drop) + 2 ^ drop ∧
    2 * (roundHalfEven q drop * 2 ^ drop) ≤ 2 * q + 2 ^ drop ∧
    (2 * q = 2 * (roundHalfEven q drop * 2 ^ drop) + 2 ^ drop ∨
      2 * (roundHalfEven q drop * 2 ^ drop) = 2 * q + 2 ^ drop → roundHalfEven q drop % 2 = 0) := by
  have hhalf : 2 ^ drop = 2 * 2 ^ (drop - 1) := by rw [← Nat.pow_succ', Nat.succ_eq_add_one, Nat.sub_add_cancel hd]
  have hsum := Nat.div_add_mod' q (2 ^ drop)
  have hlt : q % 2 ^ drop < 2 ^ drop := Nat.mod_lt _ (Nat.two_pow_pos _)
  unfold roundHalfEven
  dsimp only
  generalize q / 2 ^ drop = k at hsum ⊢
  generalize q % 2 ^ drop = r at hsum hlt ⊢
  split
  · next hup =>
    rw [Nat.add_mul, Nat.one_mul]
    generalize k * 2 ^ drop = kd at hsum ⊢
    omega
  · next hdown =>
    generalize k * 2 ^ drop = kd at hsum ⊢
    omega

/-! ### The parts -/

theorem hexParts_exact (l : Layout) (x : Quad) (p : Nat) : hexParts l x false p =
    ⟨(extractFloat l x).intBit.toNat, (stripHex (layoutRow l).nhex (hexFraction l x)).1,
      (stripHex (layoutRow l).nhex (hexFraction l x)).2, 0⟩ := rfl

theorem hexParts_padded {l : Layout} {p : Nat} (h : (layoutRow l).nhex ≤ p) (x : Quad) : hexParts l x true p =
    ⟨(extractFloat l x).intBit.toNat, hexFraction l x, (layoutRow l).nhex, p - (layoutRow l).nhex⟩ := by
  simp [hexParts, h]

theorem hexParts_rounded {l : Layout} {p : Nat} (h : p < (layoutRow l).nhex) (x : Quad) : hexParts l x true p =
    ⟨roundHalfEven (hexNative l x) (4 * ((layoutRow l).nhex - p)) / 16 ^ p,
      roundHalfEven (hexNative l x) (4 * ((layoutRow l).nhex - p)) % 16 ^ p, p, 0⟩ := by
  simp [hexParts, Nat.not_le.mpr h]

/-- Settles O51, by the branches of `hexParts`: the strip, the padding, the rounding at the cut. -/
theorem hexDigitsAreStrippedOrPadded : Obligations.HexDigitsAreStrippedOrPadded := by
  rintro l x p _ _ rfl rfl
  obtain ⟨hcount, hfrac, hlast⟩ := stripHex_spec (layoutRow l).nhex (hexFraction l x)
  rw [hexParts_exact]
  refine ⟨⟨rfl, hcount, hfrac, hlast⟩, ?_, fun hp => ?_⟩
  · rcases Nat.lt_or_ge p (layoutRow l).nhex with hlt | hge
    · rw [hexParts_rounded hlt]
      rfl
    · rw [hexParts_padded hge]
      exact Nat.add_sub_cancel' hge
  · rw [hexParts_padded hp]
    exact ⟨rfl, rfl, rfl⟩

/-- The rounded digits: as they are cut, or carried into, up to the leading digit (44_hex_writer.md R186). -/
theorem rounded_lead {l : Layout} {p : Nat} (h : p < (layoutRow l).nhex) (x : Quad) :
    (hexParts l x true p).lead = (extractFloat l x).intBit.toNat ∨
    ((hexParts l x true p).lead = (extractFloat l x).intBit.toNat + 1 ∧ (hexParts l x true p).frac = 0) := by
  set j := (extractFloat l x).intBit.toNat with hj
  set cut := hexFraction l x / 16 ^ ((layoutRow l).nhex - p) with hcut
  have hpow : 16 ^ (layoutRow l).nhex = 16 ^ p * 16 ^ ((layoutRow l).nhex - p) := by
    rw [← Nat.pow_add, Nat.add_sub_cancel' h.le]
  have hpos : 0 < 16 ^ ((layoutRow l).nhex - p) := Nat.pow_pos (by decide)
  have hlt : cut < 16 ^ p := by
    rw [hcut, Nat.div_lt_iff_lt_mul hpos, ← hpow]
    exact hexFraction_lt l x
  have hquot : hexNative l x / 2 ^ (4 * ((layoutRow l).nhex - p)) = j * 16 ^ p + cut := by
    rw [two_pow_four_mul, hexNative_eq, hpow, ← Nat.mul_assoc, Nat.add_comm, Nat.add_mul_div_right _ _ hpos,
      Nat.add_comm]
  have hp : 0 < 16 ^ p := Nat.pow_pos (by decide)
  rw [hexParts_rounded h]
  dsimp only
  rcases roundHalfEven_cases (hexNative l x) (4 * ((layoutRow l).nhex - p)) with hk | hk <;> rw [hk, hquot]
  · left
    rw [Nat.add_comm, Nat.add_mul_div_right _ _ hp, Nat.div_eq_of_lt hlt, Nat.zero_add]
  · rcases Nat.lt_or_ge (cut + 1) (16 ^ p) with hno | hcarry
    · left
      rw [Nat.add_assoc, Nat.add_comm, Nat.add_mul_div_right _ _ hp, Nat.div_eq_of_lt hno, Nat.zero_add]
    · right
      have hsum : j * 16 ^ p + cut + 1 = (j + 1) * 16 ^ p := by rw [Nat.add_mul]; omega
      rw [hsum]
      exact ⟨Nat.mul_div_cancel _ hp, Nat.mul_mod_left _ _⟩

/-- The leading digit is the integer bit, but for a carry (44_hex_writer.md R186). -/
theorem hexParts_lead (l : Layout) (x : Quad) (pv : Bool) (p : Nat) :
    (hexParts l x pv p).lead = (extractFloat l x).intBit.toNat ∨
    ((hexParts l x pv p).lead = (extractFloat l x).intBit.toNat + 1 ∧ (hexParts l x pv p).frac = 0 ∧ pv = true ∧
      p < (layoutRow l).nhex) := by
  cases pv with
  | false => exact .inl rfl
  | true =>
    rcases Nat.lt_or_ge p (layoutRow l).nhex with hlt | hge
    · exact (rounded_lead hlt x).imp_right fun ⟨hlead, hfrac⟩ => ⟨hlead, hfrac, rfl, hlt⟩
    · exact .inl (by rw [hexParts_padded hge])

theorem hexParts_lead_le (l : Layout) (x : Quad) (pv : Bool) (p : Nat) : (hexParts l x pv p).lead ≤ 2 := by
  have hbit := Bool.toNat_le (extractFloat l x).intBit
  rcases hexParts_lead l x pv p with h | ⟨h, _⟩ <;> omega

/-- Settles O50: the text ends with the exponent, which does not see the rounding. -/
theorem hexCarryGoesToTheLeadingDigit : Obligations.HexCarryGoesToTheLeadingDigit := by
  rintro l x pv p _ rfl
  exact ⟨hexParts_lead_le l x pv p, hexParts_lead l x pv p, _, textBytes_append _ _⟩

/-! ### The value of a hex text (44_hex_writer.md R191) -/

theorem digitValue_hexdig : ∀ v < 16, digitValue (hexdig v) = v := by decide

theorem hexdig_ne : ∀ v < 16, hexdig v ≠ chPoint ∧ hexdig v ≠ chP ∧ hexdig v ≠ chMinus := by decide

theorem mem_hexDigits {count v : Nat} {c : Byte} (h : c ∈ hexDigits count v) : ∃ d < 16, c = hexdig d := by
  induction count generalizing v with
  | zero => cases h
  | succ n ih =>
    rw [hexDigits, List.mem_append, List.mem_singleton] at h
    rcases h with h | rfl
    · exact ih h
    · exact ⟨_, Nat.mod_lt _ (by decide), rfl⟩

theorem numeralFrom_hexDigits (count : Nat) : ∀ acc v,
    numeralFrom 16 acc (hexDigits count v) = acc * 16 ^ count + v % 16 ^ count := by
  induction count with
  | zero => intro acc v; simp [hexDigits, numeralFrom, Nat.mod_one]
  | succ n ih =>
    intro acc v
    rw [hexDigits, numeralFrom_append, ih, numeralFrom_cons, digitValue_hexdig _ (Nat.mod_lt _ (by decide)),
      Nat.pow_succ', Nat.mod_mul]
    show (acc * 16 ^ n + v / 16 % 16 ^ n) * 16 + v % 16 = _
    ring

theorem numeralFrom_zeros_hex (acc k : Nat) : numeralFrom 16 acc (List.replicate k chZero) = acc * 16 ^ k := by
  induction k generalizing acc with
  | zero => simp [numeralFrom]
  | succ n ih =>
    have hzero : digitValue chZero = 0 := by decide
    rw [List.replicate_succ, numeralFrom_cons, ih, hzero, Nat.pow_succ']
    ring

/-- The bytes of the number before 'p'. -/
def hexMantissa (h : HexParts) : List Byte := hexdig h.lead :: textBytes (hexFractionText h)

/-- The number before 'p': the leading digit and the digits after the point. -/
theorem pointValue_hexMantissa {h : HexParts} (hlead : h.lead < 16) (hfrac : h.frac < 16 ^ h.count) :
    pointValue 16 (hexMantissa h) = ((h.lead * 16 ^ h.count + h.frac : Nat) : ℚ) / (16 : ℚ) ^ h.count := by
  have hdigit : digitValue (hexdig h.lead) = h.lead := digitValue_hexdig _ hlead
  have hpoint : chPoint ∉ [hexdig h.lead] := by simpa using (hexdig_ne _ hlead).1.symm
  have hone : numeralFrom 16 0 [hexdig h.lead] = h.lead := by simp [numeralFrom, hdigit]
  unfold hexMantissa hexFractionText
  split
  · next hnone =>
    obtain ⟨hcount, _⟩ := Nat.add_eq_zero_iff.mp hnone
    rw [hcount] at hfrac ⊢
    have hzero : h.frac = 0 := by simpa using hfrac
    rw [show textBytes [] = [] from rfl, pointValue_whole 16 hpoint, hone, hzero]
    simp
  · have hbytes : hexdig h.lead ::
          textBytes [.bytes [chPoint], .bytes (hexDigits h.count h.frac), .run chZero h.zeros] =
        [hexdig h.lead] ++ chPoint :: (hexDigits h.count h.frac ++ List.replicate h.zeros chZero) := by
      simp [textBytes, pieceBytes]
    have hno : chPoint ∉ hexDigits h.count h.frac ++ List.replicate h.zeros chZero := by
      intro hm
      rcases List.mem_append.mp hm with hm | hm
      · obtain ⟨d, hd, he⟩ := mem_hexDigits hm
        exact (hexdig_ne d hd).1 he.symm
      · exact chPoint_not_mem_zeros _ hm
    rw [hbytes, pointValue_point 16 hpoint hno, numeralFrom_append, numeralFrom_append, hone, numeralFrom_hexDigits,
      numeralFrom_zeros_hex, Nat.mod_eq_of_lt hfrac, List.length_append, hexDigits_length, List.length_replicate,
      pow_add]
    push_cast
    exact mul_div_mul_right _ _ (by positivity)

theorem chP_not_mem_hexMantissa {h : HexParts} (hlead : h.lead < 16) : chP ∉ hexMantissa h := by
  have hbytes : ∀ c ∈ textBytes (hexFractionText h), c ≠ chP := by
    unfold hexFractionText
    split
    · simp [textBytes]
    · intro c hc
      simp only [textBytes, pieceBytes, List.append_nil, List.mem_append, List.mem_singleton] at hc
      rcases hc with rfl | hc | hc
      · decide
      · obtain ⟨d, hd, rfl⟩ := mem_hexDigits hc
        exact (hexdig_ne d hd).2.1
      · rw [List.eq_of_mem_replicate hc]; decide
  intro hm
  rcases List.mem_cons.mp hm with he | hm
  · exact (hexdig_ne _ hlead).2.1 he.symm
  · exact hbytes _ hm rfl

/-- The exponent after 'p' reads as itself (44_hex_writer.md R181, R184). -/
theorem hexExponentValue_text (e : Int) :
    hexExponentValue ((if 0 ≤ e then chPlus else chMinus) :: dec e.natAbs) = e := by
  have hdec : numeralValue 10 (dec e.natAbs) = e.natAbs := by
    rw [numeralValue_eq, numeralFrom_dec, Nat.zero_mul, Nat.zero_add]
  have hplus : ¬ chPlus = 0x2D := by decide
  have hminus : chMinus = 0x2D := rfl
  by_cases h : 0 ≤ e
  · rw [if_pos h, hexExponentValue, if_neg hplus, hdec]
    omega
  · rw [if_neg h, hexExponentValue, if_pos hminus, hdec]
    omega

/-- The number before 'p' times two to the exponent after it. -/
theorem hexMagnitude_text {h : HexParts} (hlead : h.lead < 16) (e : Int) :
    hexMagnitude (hexMantissa h ++ textBytes (hexExponentText e)) = pointValue 16 (hexMantissa h) * (2 : ℚ) ^ e := by
  have hexp : textBytes (hexExponentText e) = chP :: (if 0 ≤ e then chPlus else chMinus) :: dec e.natAbs := by
    simp [hexExponentText, textBytes, pieceBytes]
  have hkeep : ∀ c ∈ hexMantissa h, (c != 0x70) = true := fun c hc =>
    bne_iff_ne.mpr fun he : c = chP => chP_not_mem_hexMantissa hlead (he ▸ hc)
  have htake (cs : List Byte) : (chP :: cs).takeWhile (fun c => c != 0x70) = [] :=
    List.takeWhile_cons_of_neg (by decide)
  have hdrop (cs : List Byte) : (chP :: cs).dropWhile (fun c => c != 0x70) = chP :: cs :=
    List.dropWhile_cons_of_neg (by decide)
  rw [hexMagnitude, hexp, List.takeWhile_append_of_pos hkeep, List.dropWhile_append_of_pos hkeep, htake, hdrop,
    List.append_nil, List.drop_succ_cons, List.drop_zero, hexExponentValue_text]

theorem hexText_bytes (l : Layout) (x : Quad) (pv : Bool) (p : Nat) : textBytes (hexText l x pv p) =
    textBytes (signText (extractFloat l x).sign) ++
      (hexMantissa (hexParts l x pv p) ++ textBytes (hexExponentText (unbiased l x))) := by
  simp [hexText, hexMantissa, textBytes, pieceBytes]

/-- Digits with zeros behind them that fit n places fit the places before the zeros. -/
theorem lt_pow_of_mul_pow {f c n : Nat} (hc : c ≤ n) (h : f * 16 ^ (n - c) < 16 ^ n) : f < 16 ^ c := by
  rw [show n = c + (n - c) by omega, Nat.pow_add, Nat.add_sub_cancel_left] at h
  exact Nat.lt_of_mul_lt_mul_right h

/-- Zeros behind the digits do not change the fraction. -/
theorem div_pow_of_mul_pow {j f c n : Nat} (hc : c ≤ n) :
    ((j * 16 ^ n + f * 16 ^ (n - c) : Nat) : ℚ) / (16 : ℚ) ^ n = ((j * 16 ^ c + f : Nat) : ℚ) / (16 : ℚ) ^ c := by
  have hsum : j * 16 ^ n + f * 16 ^ (n - c) = (j * 16 ^ c + f) * 16 ^ (n - c) := by
    rw [Nat.add_mul, Nat.mul_assoc, ← Nat.pow_add, Nat.add_sub_cancel' hc]
  have hpow : (16 : ℚ) ^ n = 16 ^ c * 16 ^ (n - c) := by rw [← pow_add, Nat.add_sub_cancel' hc]
  rw [hsum, hpow, Nat.cast_mul, Nat.cast_pow]
  exact mul_div_mul_right _ _ (by positivity)

/-- The digits of the text never exceed their number of places. -/
theorem hexParts_frac_lt (l : Layout) (x : Quad) (pv : Bool) (p : Nat) :
    (hexParts l x pv p).frac < 16 ^ (hexParts l x pv p).count := by
  have hm := hexFraction_lt l x
  cases pv with
  | false =>
    rw [hexParts_exact]
    obtain ⟨hcount, hfrac, _⟩ := stripHex_spec (layoutRow l).nhex (hexFraction l x)
    exact lt_pow_of_mul_pow hcount (hfrac.trans_lt hm)
  | true =>
    rcases Nat.lt_or_ge p (layoutRow l).nhex with hlt | hge
    · rw [hexParts_rounded hlt]
      exact Nat.mod_lt _ (Nat.pow_pos (by decide))
    · rw [hexParts_padded hge]
      exact hm

/-- The value of the text from its parts. -/
theorem hexValue_hexText (l : Layout) (x : Quad) (pv : Bool) (p : Nat) :
    hexValue (textBytes (hexText l x pv p)) = (if (extractFloat l x).sign = true then -1 else 1) *
      ((((hexParts l x pv p).lead * 16 ^ (hexParts l x pv p).count + (hexParts l x pv p).frac : Nat) : ℚ)
        / (16 : ℚ) ^ (hexParts l x pv p).count * (2 : ℚ) ^ unbiased l x) := by
  have hlead : (hexParts l x pv p).lead < 16 := by
    have := hexParts_lead_le l x pv p
    omega
  have hhead : ∀ c ∈ (hexMantissa (hexParts l x pv p) ++ textBytes (hexExponentText (unbiased l x))).head?,
      c ≠ chMinus := by
    rintro c hc
    obtain rfl : hexdig (hexParts l x pv p).lead = c := Option.some.inj hc
    exact (hexdig_ne _ hlead).2.2
  rw [hexText_bytes, hexValue, signedValue_signText _ _ hhead, hexMagnitude_text hlead,
    pointValue_hexMantissa hlead (hexParts_frac_lt l x pv p)]

/-- The native digits denote the magnitude (42_float_layout.md R153, 44_hex_writer.md R185). -/
theorem floatMag_eq_hexNative (l : Layout) (x : Quad) :
    floatMag l x = (hexNative l x : ℚ) / (16 : ℚ) ^ (layoutRow l).nhex * (2 : ℚ) ^ unbiased l x := by
  have hnative : hexNative l x = significand l x * 2 ^ (4 * (layoutRow l).nhex - (layoutRow l).fracWidth) := by
    obtain ⟨d, hd⟩ := Nat.exists_eq_add_of_le (fracWidth_le_native l)
    rw [hexNative, hexFraction, significand, hd, Nat.add_sub_cancel_left, pow_add]
    ring
  have hpow : (16 : ℚ) ^ (layoutRow l).nhex =
      2 ^ (4 * (layoutRow l).nhex - (layoutRow l).fracWidth) * 2 ^ (layoutRow l).fracWidth := by
    rw [← pow_add, Nat.sub_add_cancel (fracWidth_le_native l), pow_mul]
    norm_num
  rw [floatMag, scale, hnative, hpow, zpow_sub₀ (by norm_num), zpow_natCast]
  push_cast
  rw [mul_comm (2 ^ (4 * _ - _) : ℚ), mul_div_mul_right _ _ (by positivity)]
  ring

/-- Without a rounding the parts are the native digits. -/
theorem hexParts_native {l : Layout} {pv : Bool} {p : Nat} (h : pv = false ∨ (layoutRow l).nhex ≤ p) (x : Quad) :
    (((hexParts l x pv p).lead * 16 ^ (hexParts l x pv p).count + (hexParts l x pv p).frac : Nat) : ℚ)
      / (16 : ℚ) ^ (hexParts l x pv p).count = (hexNative l x : ℚ) / (16 : ℚ) ^ (layoutRow l).nhex := by
  cases pv with
  | false =>
    obtain ⟨hcount, hfrac, _⟩ := stripHex_spec (layoutRow l).nhex (hexFraction l x)
    rw [hexParts_exact, hexNative_eq]
    exact (div_pow_of_mul_pow hcount).symm.trans (by rw [hfrac])
  | true =>
    rw [hexParts_padded (h.resolve_left (by decide)), hexNative_eq]

/-- The magnitude in units of the last place kept. -/
theorem floatMag_in_units {l : Layout} {x : Quad} {p : Nat} {unit : ℚ} (hp : p ≤ (layoutRow l).nhex)
    (hunit : unit = (2 : ℚ) ^ unbiased l x / (16 : ℚ) ^ p) :
    floatMag l x = (hexNative l x : ℚ) * (unit / (2 : ℚ) ^ (4 * ((layoutRow l).nhex - p))) := by
  have hpow : (16 : ℚ) ^ (layoutRow l).nhex = 16 ^ p * 2 ^ (4 * ((layoutRow l).nhex - p)) := by
    rw [pow_mul, show (2 : ℚ) ^ 4 = 16 by norm_num, ← pow_add, Nat.add_sub_cancel' hp]
  rw [floatMag_eq_hexNative, hunit, hpow, div_div]
  ring

/-- Nearest in integers is nearest in rationals, each unit being 2^drop parts. -/
theorem roundHalfEven_dist {q drop : Nat} (hd : 0 < drop) {unit : ℚ} (hu : 0 < unit) :
    |(roundHalfEven q drop : ℚ) * unit - q * (unit / 2 ^ drop)| ≤ unit / 2 ∧
    (|(roundHalfEven q drop : ℚ) * unit - q * (unit / 2 ^ drop)| = unit / 2 → roundHalfEven q drop % 2 = 0) := by
  obtain ⟨hlo, hhi, htie⟩ := roundHalfEven_nearest q drop hd
  set k := roundHalfEven q drop
  set part := unit / 2 ^ drop with hpart
  have hpos : 0 < part := by positivity
  have hparts : unit = 2 ^ drop * part := by rw [hpart, mul_div_cancel₀ _ (by positivity)]
  have hdist : (k : ℚ) * unit - q * part = ((k * 2 ^ drop : Nat) - q : ℚ) * part := by rw [hparts]; push_cast; ring
  have hhalf : unit / 2 = ((2 ^ drop : Nat) / 2 : ℚ) * part := by rw [hparts]; push_cast; ring
  have hlo : (2 * q : ℚ) ≤ 2 * (k * 2 ^ drop : Nat) + (2 ^ drop : Nat) := by exact_mod_cast hlo
  have hhi : (2 * (k * 2 ^ drop : Nat) : ℚ) ≤ 2 * q + (2 ^ drop : Nat) := by exact_mod_cast hhi
  rw [hdist, hhalf, abs_mul, abs_of_pos hpos, mul_le_mul_iff_left₀ hpos, mul_left_inj' hpos.ne']
  refine ⟨abs_le.mpr ⟨by linarith, by linarith⟩, fun h => htie ?_⟩
  rcases abs_eq (by positivity) |>.mp h with h | h
  · right
    have : (2 * (k * 2 ^ drop : Nat) : ℚ) = 2 * q + (2 ^ drop : Nat) := by linarith
    exact_mod_cast this
  · left
    have : (2 * q : ℚ) = 2 * (k * 2 ^ drop : Nat) + (2 ^ drop : Nat) := by linarith
    exact_mod_cast this

/-- Settles O49: without a rounding the text is the native digits; with one it is the nearest multiple of the last place
kept. -/
theorem hexTextDenotesItsValue : Obligations.HexTextDenotesItsValue := by
  rintro l x pv p unit hunit
  refine ⟨fun h => ?_, fun hpv hp => ?_⟩
  · rw [hexValue_hexText, hexParts_native h, ← floatMag_eq_hexNative, floatVal_eq_sign_mul]
  · subst hpv
    have hpos : 0 < unit := by rw [hunit]; positivity
    have hvalue := hexValue_hexText l x true p
    rw [hexParts_rounded hp] at hvalue
    dsimp only at hvalue
    rw [Nat.div_add_mod', div_mul_eq_mul_div, mul_div_assoc, ← hunit] at hvalue
    refine ⟨_, hvalue, ?_⟩
    rw [floatMag_in_units hp.le hunit]
    exact roundHalfEven_dist (by omega) hpos

end Sys2Proof.Machine
end

section
/-! The vectors through ORACLE_DECOMP (46_dispatcher.md R254): where the rounding interval holds one decimal of so few
digits, the contract leaves the oracle no other answer. -/

namespace Sys2Proof.Machine

/-- A decimal of no more digits than m * 10^e, which has no trailing zero, and less than a twentieth of 10^e away from
it is the same. -/
theorem decimal_unique {sig m : Nat} {ex e : Int} (hm : m % 10 ≠ 0) (hdigits : ndigits sig ≤ ndigits m)
    (hlo : ((20 * m - 1 : Nat) : ℚ) * (10 : ℚ) ^ e < ((20 * sig : Nat) : ℚ) * (10 : ℚ) ^ ex)
    (hhi : ((20 * sig : Nat) : ℚ) * (10 : ℚ) ^ ex < ((20 * m + 1 : Nat) : ℚ) * (10 : ℚ) ^ e) : sig = m ∧ ex = e := by
  have hpos (n : Int) : (0 : ℚ) < (10 : ℚ) ^ n := zpow_pos (by norm_num) n
  have hsplit (n : Int) (k : Nat) : (10 : ℚ) ^ (n + k) = ((10 ^ k : Nat) : ℚ) * (10 : ℚ) ^ n := by
    rw [zpow_add₀ (by norm_num), zpow_natCast]; push_cast; ring
  rcases lt_trichotomy ex e with hlt | rfl | hgt
  · exfalso
    obtain ⟨k, rfl⟩ : ∃ k : Nat, e = ex + (k + 1 : Nat) := ⟨(e - ex - 1).toNat, by omega⟩
    rw [hsplit, ← mul_assoc, mul_lt_mul_iff_left₀ (hpos ex)] at hlo
    have hlo : (20 * m - 1) * 10 ^ (k + 1) < 20 * sig := by exact_mod_cast hlo
    have hten : 10 ^ ndigits m = 10 * 10 ^ (ndigits m - 1) := by
      rw [← Nat.pow_succ', Nat.succ_eq_add_one, Nat.sub_add_cancel (ndigits_pos m)]
    have hmlow := ten_pow_ndigits_le (n := m) (by omega)
    have hshigh := (lt_ten_pow_ndigits sig).trans_le (Nat.pow_le_pow_right (by decide) hdigits)
    have hmul : (20 * m - 1) * 10 ≤ (20 * m - 1) * 10 ^ (k + 1) :=
      Nat.mul_le_mul_left _ (Nat.le_self_pow (Nat.succ_ne_zero k) 10)
    omega
  · rw [mul_lt_mul_iff_left₀ (hpos ex)] at hlo hhi
    have hlo : 20 * m - 1 < 20 * sig := by exact_mod_cast hlo
    have hhi : 20 * sig < 20 * m + 1 := by exact_mod_cast hhi
    exact ⟨by omega, rfl⟩
  · exfalso
    obtain ⟨k, rfl⟩ : ∃ k : Nat, ex = e + (k + 1 : Nat) := ⟨(ex - e - 1).toNat, by omega⟩
    rw [hsplit, ← mul_assoc, mul_lt_mul_iff_left₀ (hpos e)] at hlo hhi
    have hlo : 20 * m - 1 < 20 * sig * 10 ^ (k + 1) := by exact_mod_cast hlo
    have hhi : 20 * sig * 10 ^ (k + 1) < 20 * m + 1 := by exact_mod_cast hhi
    rw [Nat.pow_succ] at hlo hhi
    have hmul : 20 * sig * (10 ^ k * 10) = 200 * (sig * 10 ^ k) := by ring
    omega

/-- The rounding interval of x lies within a twentieth of 10^e around m * 10^e. -/
def intervalNear (l : Layout) (x : Quad) (m : Nat) (e : Int) : Bool :=
  decimalSide (20 * m - 1) e (canonicalExp l x - 2) < binarySide (20 * roundingLow l x) e (canonicalExp l x - 2) &&
  binarySide (20 * roundingHigh l x) e (canonicalExp l x - 2) < decimalSide (20 * m + 1) e (canonicalExp l x - 2)

theorem intervalNear_bounds {l : Layout} {x : Quad} {m : Nat} {e : Int} (h : intervalNear l x m e = true) {p : ℚ}
    (hp : InInterval l x p) :
    ((20 * m - 1 : Nat) : ℚ) * (10 : ℚ) ^ e < 20 * p ∧ 20 * p < ((20 * m + 1 : Nat) : ℚ) * (10 : ℚ) ^ e := by
  have hends : (roundingLow l x : ℚ) * (2 : ℚ) ^ (canonicalExp l x - 2) ≤ p ∧
      p ≤ (roundingHigh l x : ℚ) * (2 : ℚ) ^ (canonicalExp l x - 2) := by
    unfold InInterval at hp
    split at hp
    · exact hp
    · exact ⟨hp.1.le, hp.2.le⟩
  rw [intervalNear, Bool.and_eq_true, decide_eq_true_iff, decide_eq_true_iff, ← not_le, ← not_le, binarySide_le,
    decimalSide_le, not_le, not_le] at h
  obtain ⟨hlow, hhigh⟩ := h
  push_cast at hlow hhigh ⊢
  constructor <;> linarith

/-- Where m * 10^e parses back and the interval lies near it, it is the oracle's answer. -/
theorem oracleDecomp_eq {l : Layout} {x : Quad} {m : Nat} {e : Int} (h0 : significand l x ≠ 0) (hm : m % 10 ≠ 0)
    (hback : readsBack l x ⟨m, e, (extractFloat l x).sign⟩ = true) (hnear : intervalNear l x m e = true) :
    oracleDecomp l x = ⟨m, e, (extractFloat l x).sign⟩ := by
  obtain ⟨hneg, _⟩ := oracleDecomp_form l x
  obtain ⟨hread, hmin⟩ := shortestOk_minimal (oracleDecomp_shortestOk h0)
  generalize oracleDecomp l x = d at hneg hread hmin ⊢
  obtain ⟨sig, ex, neg⟩ := d
  dsimp only at hneg hmin
  subst hneg
  obtain ⟨hlo, hhi⟩ := intervalNear_bounds hnear (readsBack_sameSign.mp hread)
  rw [← mul_assoc] at hlo hhi
  obtain ⟨rfl, rfl⟩ := decimal_unique (sig := sig) (ex := ex) hm (hmin _ hback) (by exact_mod_cast hlo)
    (by exact_mod_cast hhi)
  rfl

/-- In the fixed window Fixed and General write the oracle's decomposition as it stands. -/
theorem floatText_fixedWindow {w : WindowConfig} {l : Layout} {x : Quad} {f : Fmt} (hf : f = .fixed ∨ f = .general)
    (h : inFixedWindow w l x = true) (p : Word) : floatText w l x f false p = decompText (oracleDecomp l x) := by
  rw [floatText_window hf (.inl h), windowText_fixedWindow h, fixedText, adjustDecomp_exact]

theorem oracleDecomp_b64_three_halves : oracleDecomp .b64 0x3FF8000000000000 = ⟨15, -1, false⟩ :=
  oracleDecomp_eq (by decide) (by decide) (by decide) (by decide)

theorem oracleDecomp_b64_hundred : oracleDecomp .b64 0x4059000000000000 = ⟨1, 2, false⟩ :=
  oracleDecomp_eq (by decide) (by decide) (by decide) (by decide)

theorem oracleDecomp_b64_minus_one : oracleDecomp .b64 0xBFF0000000000000 = ⟨1, 0, true⟩ :=
  oracleDecomp_eq (by decide) (by decide) (by decide) (by decide)

theorem oracleDecomp_b32_three_halves : oracleDecomp .b32 0x3FC00000 = ⟨15, -1, false⟩ :=
  oracleDecomp_eq (by decide) (by decide) (by decide) (by decide)

/-- Settles O59: four patterns of the fixed window whose rounding interval holds one such decimal. -/
theorem oracleDecompVectors : Obligations.OracleDecompVectors := by
  intro p
  rw [floatText_fixedWindow (.inl rfl) (by decide), floatText_fixedWindow (.inr rfl) (by decide),
    floatText_fixedWindow (.inl rfl) (by decide), floatText_fixedWindow (.inr rfl) (by decide),
    oracleDecomp_b64_three_halves, oracleDecomp_b64_hundred, oracleDecomp_b64_minus_one, oracleDecomp_b32_three_halves]
  exact ⟨rfl, by decide, rfl, by decide, rfl, by decide, rfl, by decide⟩

end Sys2Proof.Machine
end
